-- ==== Sys2Proof/Word.lean ====
section
/-! DEFINITION. The word and byte types (`00_scope.md` rule R14). All word arithmetic is `BitVec`
arithmetic: it wraps modulo 2^64, and a shift by 64 or more yields 0, as R14 says. -/

namespace Sys2Proof

/-- A word, `u64` of rule R14: 64 bits, read as unsigned by `toNat` and as int64 by `toInt`. -/
abbrev Word := BitVec 64

/-- A byte: 8 bits, bit 7 the most significant (rule R14). -/
abbrev Byte := BitVec 8

end Sys2Proof
end

