-- ==== Sys2Proof/Machine/Port.lean ====
section
/-! DEFINITION. The owner's port at transaction level (`30_encoding.md` rules R101 to R106,
decision D1): a command with its operands and the caller's buffers going in, a response coming
out. The spec gives each operand a width and no bit position, so a command is a record (log 13). -/

namespace Sys2Proof.Machine

/-- One command as it stands at the port: the 8-bit code of rule R101 and the operands of every
command, each in its own field with the width R101 gives it. A command reads only its own. -/
structure CommandWord where
  code : Byte
  /-- `signed` of `RESET`. -/
  signed : Bool
  /-- `N`, `K` or `count`: u32. -/
  count : BitVec 32
  /-- `MASKED` (rule R102). -/
  masked : Bool
  /-- The position token of `SEEK` (rule R106): four u64. -/
  p0 : Word
  p1 : Word
  p2 : Word
  p3 : Word
  deriving DecidableEq, Repr

/-- A command code whose every operand is zero. -/
def CommandWord.bare (code : Byte) : CommandWord :=
  { code := code, signed := false, count := 0, masked := false, p0 := 0, p1 := 0, p2 := 0, p3 := 0 }

/-- What the owner hands over when it issues a command: the command and the caller's buffers
(rules R57, R58), and for `RESET` the input sequence the environment presents (rule R290). -/
structure Request where
  command : CommandWord
  out : List Word
  mask : List Bool
  values : List Word
  input : List Byte
  deriving DecidableEq, Repr

/-- The response of a command (rule R104). `total` is there only when the rule gives it a meaning:
after a `FLUSH` that returns status 0 (log 20). -/
structure Response where
  status : BitVec 3
  total : Option Word
  deriving DecidableEq, Repr

end Sys2Proof.Machine
end

