-- ==== Sys2Proof/Machine/Widths.lean ====
section
/-! DEFINITION. The width table shared by both halves (`30_encoding.md` rules R83 to R85), and the
bit length of a word (`00_scope.md` rule R14). -/

namespace Sys2Proof.Machine

/-- `WIDTH[c]` (rule R83): codes 0 to 23 give code + 1, codes 24 to 27 give 26, 28, 30, 32, codes
28 to 31 give 40, 48, 56, 64. -/
def widthOfCode (c : BitVec 5) : Nat :=
  if c.toNat ≤ 23 then c.toNat + 1
  else if c.toNat ≤ 27 then 26 + 2 * (c.toNat - 24)
  else 40 + 8 * (c.toNat - 28)

/-- Membership in the image of `WIDTH` (rule R83). -/
def isTableWidth (w : Nat) : Bool :=
  (decide (1 ≤ w) && decide (w ≤ 24)) || [26, 28, 30, 32, 40, 48, 56, 64].contains w

/-- `codeOf(w)` for `w` in the image of `WIDTH` (rule R85). -/
def codeOfWidth (w : Nat) : BitVec 5 :=
  if w ≤ 24 then BitVec.ofNat 5 (w - 1)
  else if w ≤ 32 then BitVec.ofNat 5 (24 + (w - 26) / 2)
  else BitVec.ofNat 5 (28 + (w - 40) / 8)

/-- `closestWidth(n)` for `0 <= n <= 64` (rule R84): the smallest table width that is at least
`max(n, 1)`. -/
def closestWidth (n : Nat) : Nat :=
  if n ≤ 1 then 1
  else if n ≤ 24 then n
  else if n ≤ 26 then 26
  else if n ≤ 28 then 28
  else if n ≤ 30 then 30
  else if n ≤ 32 then 32
  else if n ≤ 40 then 40
  else if n ≤ 48 then 48
  else if n ≤ 56 then 56
  else 64

/-- `bitlen(z)` (rule R14): the position of the highest set bit plus one; 0 for 0. -/
def bitLength (z : Word) : Nat :=
  if z.toNat = 0 then 0 else z.toNat.log2 + 1

end Sys2Proof.Machine
end

