-- ==== Sys2Proof/Config.lean ====
section
/-! DEFINITION. What an implementation fixes, and the free values.
The parameters of `00_scope.md` rules R12, R13 are plain data (`Settings`, held in State and never
written but for `signed`, rule R22), so a claim about every state is a claim about every setting.
The free values are constants without a body: nothing can be proved about which value they are. -/

namespace Sys2Proof

/-- `P_PATCH_ENTRY_WIDTH` (rules R12, R206): how wide one entry of a patch list is. -/
inductive PatchEntryWidth where
  | exact
  | closestFixed
  deriving DecidableEq, Repr

/-- `P_GAP_SENTINEL` (rules R12, R208): which patch entry chains. -/
inductive GapSentinel where
  | maxGap
  | gap255Patch0
  deriving DecidableEq, Repr

/-- `P_DELTA_BASE` (rules R12, R222): how the base of a Delta run is spelled. -/
inductive DeltaBase where
  | signed
  | byStream
  deriving DecidableEq, Repr

/-- One answer of the byte-stream collaborator: the token integers `p0`, `p1` stand at index `pos`. -/
structure LocateRow where
  p0 : Word
  p1 : Word
  pos : Nat
  deriving DecidableEq, Repr

/-- `STREAM_LOCATE` (rules R13, R241) as plain data: the default sum of an uncompressed stream, or
the finite table of a collaborator's answers, where an unlisted token answers `none`. -/
inductive StreamLocate where
  | uncompressed
  | table (rows : List LocateRow)
  deriving DecidableEq, Repr

/-- The configuration `CFG.*` of `10_state.md` rules R21, R22. -/
structure Settings where
  /-- `CFG.SIGNED` (R21), the only field a command writes (`RESET`). -/
  signed : Bool
  /-- `P_MASK_CONSUMES` (R166, R252). -/
  maskConsumes : Bool
  /-- `P_PATCH_ENTRY_WIDTH` (R206). -/
  patchEntryWidth : PatchEntryWidth
  /-- `P_GAP_SENTINEL` (R208). -/
  gapSentinel : GapSentinel
  /-- `P_PB_SECTION_ALIGN` (R205). -/
  sectionAlign : Bool
  /-- `P_DELTA_BASE` (R222). -/
  deltaBase : DeltaBase
  /-- `CFG.SINK_CAPACITY` (R258), only tested for zero. -/
  sinkCapacity : Nat
  /-- `STREAM_LOCATE` (R241). -/
  locate : StreamLocate
  deriving DecidableEq, Repr

/-- The places whose 64-bit (or narrower) content the spec calls unspecified (rules R29, R33, R40,
R277, R278). -/
inductive FreePlace where
  | runBuffer
  | patchEntry
  | deltaScratch
  | litBuf
  | outSlot
  | curByte
  | base
  | firstDelta
  deriving DecidableEq, Repr

/-- The registers holding a number whose content the spec calls unspecified (rules R40, R277). -/
inductive FreeNumber where
  | spos
  | bitsLeft
  | dstate
  | runSubenc
  | runLength
  | runConsumed
  | w
  | bw
  | pw
  | pgw
  | pll
  deriving DecidableEq, Repr

/-- The free word left at entry `index` of `place` by the unspecified event numbered `event`
(log 6 to 10). -/
opaque Config.freeWord : (place : FreePlace) → (event index : Nat) → Word

/-- The free number left in register `reg` by the unspecified event numbered `event` (log 6, 7). -/
opaque Config.freeNumber : (reg : FreeNumber) → (event : Nat) → Nat

end Sys2Proof
end

