-- ==== Sys2Proof/Syntax.lean ====
section
/-! DEFINITION. The instructions: one constructor per row of `spec/opcode_table.json`, four run
forms fetched from the input stream and six commands issued by the owner (`30_encoding.md` rules
R81, R101, R109). Operands are the values the fields stand for (rule R99), not raw field bits. -/

namespace Sys2Proof

/-- The instruction set of the engine (`00_scope.md` rules R2, R19). -/
inductive Instr where
  /-- Short Repeat run (R88): a value of `byteWidth` bytes, `repeatCount` times. -/
  | sr (byteWidth repeatCount : Nat)
  /-- Direct run (R90): `length` fields of `bitWidth` bits. -/
  | direct (bitWidth length : Nat)
  /-- Patched Base run (R92). -/
  | pb (deltaWidth length baseWidth patchWidth gapWidth listLength : Nat)
  /-- Delta run (R96); `deltaWidth = 0` is the constant stride (R86). -/
  | delta (deltaWidth length : Nat)
  /-- `RESET(signed)` (R290). -/
  | reset (signed : Bool)
  /-- `NEXT(N, MASKED, out, mask)` (R164); the buffers stand in State. -/
  | next (n : BitVec 32) (masked : Bool)
  /-- `SKIP(K)` (R236). -/
  | skip (k : BitVec 32)
  /-- `SEEK(p0, p1, p2, p3)` (R240). -/
  | seek (p0 p1 p2 p3 : Word)
  /-- `ADD(count, MASKED, values, mask)` (R251); the buffers stand in State. -/
  | add (count : BitVec 32) (masked : Bool)
  /-- `FLUSH()` (R256). -/
  | flush
  deriving DecidableEq, Repr

end Sys2Proof
end

