-- ==== Sys2Proof/WellFormed.lean ====
section
/-! DEFINITION. Which instructions exist: the operand ranges of `30_encoding.md` rules R86 to R96.
Command operands have the widths of rule R101 in their types, so every command is well formed. -/

namespace Sys2Proof

open Sys2Proof.Machine

/-- `length` of a run lies in 1..512 (`MIN_RUN`, `MAX_RUN` of rule R10). -/
def lengthOk (length : Nat) : Bool := decide (1 ≤ length) && decide (length ≤ 512)

/-- The operands lie in the ranges their fields can spell. -/
def Instr.wellFormed : Instr → Bool
  | .sr byteWidth repeatCount =>
      decide (1 ≤ byteWidth) && decide (byteWidth ≤ 8) &&
        decide (3 ≤ repeatCount) && decide (repeatCount ≤ 10)
  | .direct bitWidth length => isTableWidth bitWidth && lengthOk length
  | .pb deltaWidth length baseWidth patchWidth gapWidth listLength =>
      isTableWidth deltaWidth && lengthOk length &&
        (decide (1 ≤ baseWidth) && decide (baseWidth ≤ 8)) && isTableWidth patchWidth &&
        (decide (1 ≤ gapWidth) && decide (gapWidth ≤ 8)) && decide (listLength ≤ 31)
  | .delta deltaWidth length =>
      (decide (deltaWidth = 0) || (isTableWidth deltaWidth && decide (deltaWidth ≠ 1))) &&
        lengthOk length
  | .reset _ => true
  | .next _ _ => true
  | .skip _ => true
  | .seek _ _ _ _ => true
  | .add _ _ => true
  | .flush => true

end Sys2Proof
end

