-- ==== Sys2Proof/Decode.lean ====
section
/-! DEFINITION. Decoding and encoding (`30_encoding.md` rules R80 to R109). An instruction's words
stand in one of two places: a run header in the input stream, a command at the owner's port. The
decoder of each is total and rejects by name; the encoder follows, from the same tables. -/

namespace Sys2Proof

open Sys2Proof.Machine

/-- Why a decoder gives no instruction. -/
inductive DecodeError where
  /-- Fewer header bytes than the tag calls for (rule R81). -/
  | truncatedHeader
  /-- A command code `0x06..0xFF` (rule R101). -/
  | unknownCommand (code : Byte)
  deriving DecidableEq, Repr

/-- A run header's content (rule R161: a tagged union dispatched by the 2-bit tag). -/
inductive Run where
  | sr (byteWidth repeatCount : Nat)
  | direct (bitWidth length : Nat)
  | pb (deltaWidth length baseWidth patchWidth gapWidth listLength : Nat)
  | delta (deltaWidth length : Nat)
  deriving DecidableEq, Repr

/-- The instruction a run header stands for. -/
def Run.toInstr : Run → Instr
  | .sr byteWidth repeatCount => .sr byteWidth repeatCount
  | .direct bitWidth length => .direct bitWidth length
  | .pb deltaWidth length baseWidth patchWidth gapWidth listLength =>
      .pb deltaWidth length baseWidth patchWidth gapWidth listLength
  | .delta deltaWidth length => .delta deltaWidth length

/-- Where an instruction's words stand, and what they are. -/
inductive Words where
  | stream (bytes : List Byte)
  | port (command : CommandWord)
  deriving DecidableEq, Repr

/-! ### Fields of a run header -/

/-- The tag `h0[7:6]` (rule R81). -/
def tagOf (h0 : Byte) : BitVec 2 := h0.extractLsb' 6 2

/-- The number of header bytes of each sub-encoding (rule R81). -/
def headerLength (tag : BitVec 2) : Nat :=
  if tag = 0 then 1 else if tag = 1 then 2 else if tag = 2 then 4 else 2

/-- The width code `h0[5:1]` (rules R90, R92, R96). -/
def widthCode (h0 : Byte) : BitVec 5 := h0.extractLsb' 1 5

/-- `length = ((h0[0] << 8) | h1) + 1` (rule R99). -/
def lengthField (h0 h1 : Byte) : Nat := (h0.extractLsb' 0 1 ++ h1).toNat + 1

/-- The width of a Delta header's code: 0 for code 0, else the table's (rule R86). -/
def deltaWidthOfCode (c : BitVec 5) : Nat := if c = 0 then 0 else widthOfCode c

/-- Short Repeat, `00wwwccc` (rule R88). -/
def srOfHeader (h0 : Byte) : Run :=
  .sr ((h0.extractLsb' 3 3).toNat + 1) ((h0.extractLsb' 0 3).toNat + 3)

/-- Direct, `01cccccl llllllll` (rule R90). -/
def directOfHeader (h0 h1 : Byte) : Run :=
  .direct (widthOfCode (widthCode h0)) (lengthField h0 h1)

/-- Patched Base, `10cccccl llllllll bbbppppp gggnnnnn` (rules R87, R92). -/
def pbOfHeader (h0 h1 h2 h3 : Byte) : Run :=
  .pb (widthOfCode (widthCode h0)) (lengthField h0 h1) ((h2.extractLsb' 5 3).toNat + 1)
    (widthOfCode (h2.extractLsb' 0 5)) ((h3.extractLsb' 5 3).toNat + 1) (h3.extractLsb' 0 5).toNat

/-- Delta, `11cccccl llllllll` (rules R86, R96). -/
def deltaOfHeader (h0 h1 : Byte) : Run :=
  .delta (deltaWidthOfCode (widthCode h0)) (lengthField h0 h1)

/-- Decode a run header from the bytes of the stream, giving the run and the bytes after the
header (rules R80, R81, R161). Every first byte starts a run (rule R82), so the only rejection is a
header cut short. -/
def decodeHeader : List Byte → Except DecodeError (Run × List Byte)
  | [] => .error .truncatedHeader
  | h0 :: rest =>
      if tagOf h0 = 0 then .ok (srOfHeader h0, rest)
      else if tagOf h0 = 1 then
        match rest with
        | h1 :: rest => .ok (directOfHeader h0 h1, rest)
        | _ => .error .truncatedHeader
      else if tagOf h0 = 2 then
        match rest with
        | h1 :: h2 :: h3 :: rest => .ok (pbOfHeader h0 h1 h2 h3, rest)
        | _ => .error .truncatedHeader
      else
        match rest with
        | h1 :: rest => .ok (deltaOfHeader h0 h1, rest)
        | _ => .error .truncatedHeader

/-- Decode a command by its code (rule R101). -/
def decodeCommand (c : CommandWord) : Except DecodeError Instr :=
  if c.code = 0x00 then .ok (.reset c.signed)
  else if c.code = 0x01 then .ok (.next c.count c.masked)
  else if c.code = 0x02 then .ok (.skip c.count)
  else if c.code = 0x03 then .ok (.seek c.p0 c.p1 c.p2 c.p3)
  else if c.code = 0x04 then .ok (.add c.count c.masked)
  else if c.code = 0x05 then .ok .flush
  else .error (.unknownCommand c.code)

/-- The decoder, total on any words. -/
def decode : Words → Except DecodeError Instr
  | .stream bytes =>
      match decodeHeader bytes with
      | .ok (r, _) => .ok r.toInstr
      | .error e => .error e
  | .port command => decodeCommand command

/-! ### The encoder -/

/-- The first header byte of a form with a width code and a 9-bit length (rules R90, R92, R96). -/
def headByte (tag : BitVec 2) (code : BitVec 5) (length : Nat) : Byte :=
  tag ++ code ++ (BitVec.ofNat 9 (length - 1)).extractLsb' 8 1

/-- The low eight bits of `length - 1` (rules R90, R92, R96). -/
def lengthByte (length : Nat) : Byte := (BitVec.ofNat 9 (length - 1)).extractLsb' 0 8

/-- The width code of a Delta header (rule R86). -/
def codeOfDeltaWidth (w : Nat) : BitVec 5 := if w = 0 then 0 else codeOfWidth w

/-- The header bytes of a run (rules R88, R90, R92, R96). -/
def encodeHeader : Run → List Byte
  | .sr byteWidth repeatCount =>
      [0#2 ++ BitVec.ofNat 3 (byteWidth - 1) ++ BitVec.ofNat 3 (repeatCount - 3)]
  | .direct bitWidth length =>
      [headByte 1 (codeOfWidth bitWidth) length, lengthByte length]
  | .pb deltaWidth length baseWidth patchWidth gapWidth listLength =>
      [headByte 2 (codeOfWidth deltaWidth) length, lengthByte length,
        BitVec.ofNat 3 (baseWidth - 1) ++ codeOfWidth patchWidth,
        BitVec.ofNat 3 (gapWidth - 1) ++ BitVec.ofNat 5 listLength]
  | .delta deltaWidth length =>
      [headByte 3 (codeOfDeltaWidth deltaWidth) length, lengthByte length]

/-- The words of an instruction: header bytes for a run, the port's record for a command. -/
def encode : Instr → Words
  | .sr byteWidth repeatCount => .stream (encodeHeader (.sr byteWidth repeatCount))
  | .direct bitWidth length => .stream (encodeHeader (.direct bitWidth length))
  | .pb deltaWidth length baseWidth patchWidth gapWidth listLength =>
      .stream (encodeHeader (.pb deltaWidth length baseWidth patchWidth gapWidth listLength))
  | .delta deltaWidth length => .stream (encodeHeader (.delta deltaWidth length))
  | .reset signed => .port { CommandWord.bare 0x00 with signed := signed }
  | .next n masked => .port { CommandWord.bare 0x01 with count := n, masked := masked }
  | .skip k => .port { CommandWord.bare 0x02 with count := k }
  | .seek p0 p1 p2 p3 =>
      .port { CommandWord.bare 0x03 with p0 := p0, p1 := p1, p2 := p2, p3 := p3 }
  | .add count masked => .port { CommandWord.bare 0x04 with count := count, masked := masked }
  | .flush => .port (CommandWord.bare 0x05)

/-! ### The opcode table's words -/

/-- The `n` bytes of `w`, the least significant first (the table's first word stands in the lowest
bits). -/
def bytesOfTableWord : (n w : Nat) → List Byte
  | 0, _ => []
  | n + 1, w => BitVec.ofNat 8 w :: bytesOfTableWord n (w / 256)

/-- Whether a table word is read at the owner's port: a single byte that is a command code. The two
spaces overlap there (`0x00..0x05` also start Short Repeat runs, rules R81, R101); log 16. -/
def isCommandTableWord (nbits w : Nat) : Bool := decide (nbits = 8) && decide (w ≤ 5)

/-- The words a table word stands for: a bare command, or header bytes with zeros above `nbits`. -/
def wordsOfTableWord (nbits w : Nat) : Words :=
  if isCommandTableWord nbits w then .port (CommandWord.bare (BitVec.ofNat 8 w))
  else .stream (bytesOfTableWord 4 (w % 2 ^ nbits))

/-- The instruction the decoder reads from an opcode-table word. -/
def decodeTableWord (nbits w : Nat) : Option Instr :=
  match decode (wordsOfTableWord nbits w) with
  | .ok i => some i
  | .error _ => none

end Sys2Proof
end

