-- ==== Sys2Proof/Machine/Memory.lean ====
section
/-! DEFINITION. The two byte sequences of the engine, `IN` and `OUT` (`20_memory.md` rules R50 to
R55), as lists of cells in one canonical form: the addresses are exactly 0, 1, 2, … in this order.
An unlisted address reads as no value (the sequence is finite); log 11. -/

namespace Sys2Proof.Machine

/-- A finite byte sequence, each byte at its logical index. -/
abbrev Memory := List Host.Cell

/-- The byte at an index, or no value at and beyond the end. -/
def Memory.read? : Memory → Nat → Option Byte
  | [], _ => none
  | (k, b) :: rest, a => if k = a then some b else Memory.read? rest a

/-- `len(S)` of rule R14. -/
def Memory.size (m : Memory) : Nat := m.length

/-- Append one byte at the end: the only write a sequence knows (rules R54, R55). -/
def Memory.append (m : Memory) (b : Byte) : Memory := m ++ [(Memory.size m, b)]

/-- The cells of a byte list laid out from index `start` on. -/
def Memory.cellsFrom (start : Nat) : List Byte → Memory
  | [] => []
  | b :: rest => (start, b) :: Memory.cellsFrom (start + 1) rest

/-- A byte list as a sequence that starts at index 0. -/
def Memory.ofBytes (bytes : List Byte) : Memory := Memory.cellsFrom 0 bytes

/-- The bytes of a sequence in order. -/
def Memory.bytes (m : Memory) : List Byte := m.map fun cell => cell.2

/-- The canonical form: the listed addresses are 0, 1, …, size − 1, in this order. No listed entry
can equal what an unlisted address reads as, which is no value. -/
def Memory.wf (m : Memory) : Bool := m.map (fun cell => cell.1) == List.range m.length

end Sys2Proof.Machine
end

