-- ==== Sys2Proof/Machine/State.lean ====
section
/-! DEFINITION. The state of the engine (`10_state.md`), of the spaces it reaches (`20_memory.md`)
and of the owner's port (`30_encoding.md` rules R101 to R104), the reasons a step can stop, and the
state right after reset (rule R40). -/

namespace Sys2Proof.Machine

/-- The decoder's position: `D.SPOS`, the program counter, with the bit cursor `D.BITSLEFT`,
`D.CURBYTE` (rules R23, R25). -/
structure Cursor where
  spos : Nat
  /-- `0..8`: how many low-order bits of `curByte` are still unread. -/
  bitsLeft : Nat
  /-- The last byte a packed read fetched. -/
  curByte : Byte
  deriving DecidableEq, Repr

/-- `D.DSTATE` (rule R26). -/
inductive DState where
  | awaitingHeader
  | inRun
  deriving DecidableEq, Repr

/-- The decoder half (rules R23 to R32). -/
structure Decoder where
  cur : Cursor
  dstate : DState
  /-- `D.RUN.SUBENC` (R27). -/
  runSubenc : BitVec 2
  /-- `D.RUN.LENGTH`, 1..512 (R27). -/
  runLength : Nat
  /-- `D.RUN.CONSUMED`, 0..512 (R27). -/
  runConsumed : Nat
  /-- `D.FAULT` (R28). -/
  fault : Bool
  /-- `D.ERR` (R28). -/
  err : BitVec 3
  /-- `D.runBuffer[0..511]` (R29). -/
  runBuffer : List Word
  /-- `D.W`, 0..64 (R30). -/
  w : Nat
  /-- `D.BW`, 1..8 (R30). -/
  bw : Nat
  /-- `D.PW`, 1..64 (R30). -/
  pw : Nat
  /-- `D.PGW`, 1..8 (R30). -/
  pgw : Nat
  /-- `D.PLL`, 0..31 (R30). -/
  pll : Nat
  /-- `D.BASE` (R30). -/
  base : Word
  /-- `D.FD` (R30). -/
  fd : Word
  /-- `D.patchEntries[0..30]` (R31). -/
  patchEntries : List Word
  /-- `D.deltaScratch[0..509]` (R32). -/
  deltaScratch : List Word
  /-- The model's own: the number of the next unspecified event of this half (log 6). -/
  freeCount : Nat
  deriving DecidableEq, Repr

/-- The encoder's write side: the sink `OUT` (R54), which is the environment's, with the engine's
byte counter and write cursor (R34, R35). -/
structure WritePort where
  out : Memory
  /-- `E.BYTESWRITTEN` (R35). -/
  bytesWritten : Word
  /-- `E.WBITSLEFT`, 1..8 (R34). -/
  wbitsLeft : Nat
  /-- `E.WCURBYTE` (R34). -/
  wcurByte : Byte
  deriving DecidableEq, Repr

/-- The encoder half (rules R33 to R36). -/
structure Encoder where
  /-- `E.LITBUF[0..511]` (R33). -/
  litBuf : List Word
  /-- `E.LITCOUNT`, 0..511 between commands (R33). -/
  litCount : Nat
  port : WritePort
  /-- `E.FAULT` (R36). -/
  fault : Bool
  /-- `E.ERR` (R36). -/
  err : BitVec 3
  /-- The model's own: the number of the next unspecified event of this half (log 6). -/
  freeCount : Nat
  deriving DecidableEq, Repr

/-- The whole machine: configuration, two halves, and the environment's spaces and port (R38). -/
structure State where
  /-- `CFG.*` (R21, R22). -/
  cfg : Settings
  /-- The decoder half (R20). -/
  dec : Decoder
  /-- The encoder half (R20). -/
  enc : Encoder
  /-- `IN` (R50). -/
  input : Memory
  /-- The caller's output slots `out[0..]` (R57). -/
  out : List Word
  /-- The caller's presence mask (R58). -/
  mask : List Bool
  /-- The caller's input values of `ADD` (R58). -/
  values : List Word
  /-- The input sequence the environment presents for the next `RESET` (R290). -/
  presented : Memory
  /-- The model's own count of `SinkFlush()` calls since `RESET` (R56, R66; log 19). -/
  sinkFlushes : Nat
  /-- The response of the last command (R104). -/
  response : Response
  /-- The commands the owner has yet to issue, oldest first (R101). -/
  pending : List Request
  deriving DecidableEq, Repr

/-- Why a step stops with a fault of the model. No step does: every error of the spec is an entry
to the fault state (rule R276), which is a next state. -/
inductive Fault where
  deriving DecidableEq, Repr

/-- Why a step is refused. -/
inductive Refusal where
  /-- Raised by `exec` for an instruction without a meaning. Safe: nothing is proved about it. -/
  | notModelled (mnemonic : String)
  /-- Raised by `step` for a command code `0x06..0xFF`: "refuse (no step)" (R101, U6). Safe. -/
  | unknownCommand (code : Byte)
  /-- Raised by `NEXT` and `ADD` when a buffer is shorter than the count: "refuse" (R299, U7).
  Safe. -/
  | bufferTooShort
  deriving DecidableEq, Repr

/-- The cursor at the reset vector (R40, R63). -/
def Cursor.reset : Cursor := { spos := 0, bitsLeft := 0, curByte := 0 }

/-- The decoder half after reset (R40). The elements R40 calls unspecified hold the least value of
their range (log 5). -/
def Decoder.reset : Decoder :=
  { cur := Cursor.reset, dstate := .awaitingHeader
    runSubenc := 0, runLength := 1, runConsumed := 0
    fault := false, err := 0
    runBuffer := List.replicate 512 0
    w := 0, bw := 1, pw := 1, pgw := 1, pll := 0, base := 0, fd := 0
    patchEntries := List.replicate 31 0
    deltaScratch := List.replicate 510 0
    freeCount := 0 }

/-- The write side after reset (R40): an empty sink and no pending bits. -/
def WritePort.reset : WritePort := { out := [], bytesWritten := 0, wbitsLeft := 8, wcurByte := 0 }

/-- The encoder half after reset (R40); the literal window is unspecified there (log 5). -/
def Encoder.reset : Encoder :=
  { litBuf := List.replicate 512 0, litCount := 0, port := WritePort.reset
    fault := false, err := 0, freeCount := 0 }

/-- The default parameters (R12, R241), with log 3 for the capacity and log 4 for `signed`. -/
def Settings.default : Settings :=
  { signed := false, maskConsumes := true, patchEntryWidth := .exact, gapSentinel := .maxGap
    sectionAlign := false, deltaBase := .signed, sinkCapacity := 1, locate := .uncompressed }

/-- The machine right after reset (R40, R293). The environment's part is empty (log 12). -/
def State.reset : State :=
  { cfg := Settings.default, dec := Decoder.reset, enc := Encoder.reset
    input := [], out := [], mask := [], values := [], presented := []
    sinkFlushes := 0, response := { status := 0, total := none }, pending := [] }

end Sys2Proof.Machine
end

