-- ==== Sys2Proof/Machine/Flags.lean ====
section
/-! DEFINITION. The engine's flags are its fault bits, error codes and response status
(`60_exceptions.md`, `30_encoding.md` rule R104): the codes of rule R270, the responses, and the
gate that a fault bit puts before every command of its half (rules R170, R259). -/

namespace Sys2Proof.Machine

/-- The error kinds of rule R270. -/
inductive ErrorKind where
  | malformedHeader
  | truncatedStream
  | invalidWidthCode
  | seekOutOfRange
  | encoderArgument
  deriving DecidableEq, Repr

/-- The 3-bit code of an error kind (rule R270). -/
def ErrorKind.code : ErrorKind → BitVec 3
  | .malformedHeader => 1
  | .truncatedStream => 2
  | .invalidWidthCode => 3
  | .seekOutOfRange => 4
  | .encoderArgument => 5

/-- A response that carries a status and no total (rule R104). -/
def respond (status : BitVec 3) (s : State) : State :=
  { s with response := { status := status, total := none } }

/-- The response of a `FLUSH` that succeeds (rules R104, R256). -/
def respondTotal (total : Word) (s : State) : State :=
  { s with response := { status := 0, total := some total } }

/-- Rule R170: while `D.FAULT = 1` a decoder command does nothing and returns `D.ERR`. -/
def whenDecoderReady (s : State) (body : Host.Outcome State Fault Refusal) :
    Host.Outcome State Fault Refusal :=
  if s.dec.fault then .next (respond s.dec.err s) else body

/-- Rule R259: while `E.FAULT = 1` an encoder command does nothing and returns `E.ERR`. -/
def whenEncoderReady (s : State) (body : Host.Outcome State Fault Refusal) :
    Host.Outcome State Fault Refusal :=
  if s.enc.fault then .next (respond s.enc.err s) else body

end Sys2Proof.Machine
end

