-- ==== Sys2Proof/Machine/Reader.lean ====
section
/-! DEFINITION. The read primitives (`40_bit_primitives.md` rules R120 to R133, `20_memory.md` rule
R52). Each reads `IN` through `streamRead` only and moves the cursor; each ends in a value with
the new cursor, or in `TruncatedStream`. -/

namespace Sys2Proof.Machine

/-- The low `k` bits set (`2^k - 1` as a byte). -/
def lowMask8 (k : Nat) : Byte := BitVec.ofNat 8 (2 ^ k - 1)

/-- The low `k` bits set (`2^k - 1` as a word). -/
def lowMask64 (k : Nat) : Word := BitVec.ofNat 64 (2 ^ k - 1)

/-- `StreamRead()` (rule R52). -/
def streamRead (inp : Memory) (c : Cursor) : Except ErrorKind (Byte × Cursor) :=
  match Memory.read? inp c.spos with
  | none => .error .truncatedStream
  | some b => .ok (b, { c with spos := c.spos + 1 })

/-- `readByte()` (rule R121): it neither looks at nor changes the bit cursor. -/
def readByte (inp : Memory) (c : Cursor) : Except ErrorKind (Byte × Cursor) := streamRead inp c

/-- The loop of rule R122: `n` more bytes below the value read so far. -/
def readLongBEFrom (inp : Memory) : (n : Nat) → (v : Word) → Cursor →
    Except ErrorKind (Word × Cursor)
  | 0, v, c => .ok (v, c)
  | n + 1, v, c => do
      let (b, c) ← readByte inp c
      readLongBEFrom inp n ((v <<< 8) ||| b.setWidth 64) c

/-- `readLongBE(n)` (rule R122): a big-endian unsigned integer of `n` bytes. -/
def readLongBE (inp : Memory) (n : Nat) (c : Cursor) : Except ErrorKind (Word × Cursor) :=
  readLongBEFrom inp n 0 c

/-- The loop of rule R124. Every turn reads one more listed byte, so `fuel` above the size of `IN`
never runs out before the stream does. -/
def readVulongFrom (inp : Memory) : (fuel : Nat) → (v : Word) → (off : Nat) → Cursor →
    Except ErrorKind (Word × Cursor)
  | 0, _, _, _ => .error .truncatedStream
  | fuel + 1, v, off, c => do
      let (b, c) ← readByte inp c
      let v := if off < 64 then v ||| ((b &&& 0x7f).setWidth 64 <<< off) else v
      if b.msb then readVulongFrom inp fuel v (off + 7) c else .ok (v, c)

/-- `readVulong()` (rule R124): an unsigned base-128 varint, little-end first. -/
def readVulong (inp : Memory) (c : Cursor) : Except ErrorKind (Word × Cursor) :=
  readVulongFrom inp (Memory.size inp + 1) 0 0 c

/-- `zigzagDecode(z)` (rule R127). -/
def zigzagDecode (z : Word) : Word := (z >>> 1) ^^^ (-(z &&& 1))

/-- `zigzagEncode(v)` (rule R128). -/
def zigzagEncode (v : Word) : Word := (v <<< 1) ^^^ (v.sshiftRight 63)

/-- `readVslong()` (rule R125). -/
def readVslong (inp : Memory) (c : Cursor) : Except ErrorKind (Word × Cursor) := do
  let (z, c) ← readVulong inp c
  .ok (zigzagDecode z, c)

/-- `resetRun()` (rule R132). -/
def resetRun (c : Cursor) : Cursor := { c with bitsLeft := 0, curByte := 0 }

/-- The end of one value in rule R130: take the last `need` bits from the bit cursor. -/
def takeBits (r : Word) (need : Nat) (c : Cursor) : Word × Cursor :=
  if 0 < need then
    let left := c.bitsLeft - need
    ((r <<< need) ||| ((c.curByte >>> left) &&& lowMask8 need).setWidth 64,
      { c with bitsLeft := left })
  else (r, c)

/-- The inner loop of rule R130: while more bits are needed than the cursor holds, take what it
holds and fetch a byte. A value of `w` bits takes at most `1 + ceil(w/8)` turns. -/
def readValueFrom (inp : Memory) : (fuel : Nat) → (r : Word) → (need : Nat) → Cursor →
    Except ErrorKind (Word × Cursor)
  | 0, r, need, c => .ok (takeBits r need c)
  | fuel + 1, r, need, c =>
      if c.bitsLeft < need then do
        let r := (r <<< c.bitsLeft) ||| (c.curByte &&& lowMask8 c.bitsLeft).setWidth 64
        let need := need - c.bitsLeft
        let (b, c) ← readByte inp c
        readValueFrom inp fuel r need { c with curByte := b, bitsLeft := 8 }
      else .ok (takeBits r need c)

/-- One `w`-bit value of rule R130. -/
def readValue (inp : Memory) (w : Nat) (c : Cursor) : Except ErrorKind (Word × Cursor) :=
  readValueFrom inp (w + 1) 0 w c

/-- `readLongs` (rule R130): the `n` values of `w` bits it puts at `dst[off..]`, in order. -/
def readLongs (inp : Memory) : (n : Nat) → (w : Nat) → Cursor →
    Except ErrorKind (List Word × Cursor)
  | 0, _, c => .ok ([], c)
  | n + 1, w, c => do
      let (v, c) ← readValue inp w c
      let (vs, c) ← readLongs inp n w c
      .ok (v :: vs, c)

end Sys2Proof.Machine
end

