-- ==== Sys2Proof/Machine/Operands.lean ====
section
/-! DEFINITION. The operands a command takes from the caller's buffers and from the collaborator:
the presence mask (`30_encoding.md` rule R102, `20_memory.md` rule R58), the buffer lengths
(`70_reset_and_hazards.md` rule R299), `STREAM_LOCATE` (`46_seek_skip.md` rule R241), and the
stored form of a value (`30_encoding.md` rule R99). -/

namespace Sys2Proof.Machine

/-- The presence of slots `0..n-1`: the mask, or all true when the mask is absent (R102). -/
def presentSlots (masked : Bool) (mask : List Bool) (n : Nat) : List Bool :=
  if masked then mask.take n else List.replicate n true

/-- The mask covers `n` slots, or is not read (R102, R299). -/
def maskCovers (masked : Bool) (mask : List Bool) (n : Nat) : Bool :=
  !masked || decide (n ≤ mask.length)

/-- The buffers of a command cover its count (R299). -/
def buffersCover (masked : Bool) (mask : List Bool) (buffer : List Word) (n : Nat) : Bool :=
  decide (n ≤ buffer.length) && maskCovers masked mask n

/-- A row of a collaborator's table answers the token integers. -/
def LocateRow.answers (p0 p1 : Word) (r : LocateRow) : Bool := r.p0 == p0 && r.p1 == p1

/-- `STREAM_LOCATE(p0, p1)` (R241): the sum as natural numbers for an uncompressed stream, else the
collaborator's answer. -/
def streamLocate (locate : StreamLocate) (p0 p1 : Word) : Option Nat :=
  match locate with
  | .uncompressed => some (p0.toNat + p1.toNat)
  | .table rows => (rows.find? (LocateRow.answers p0 p1)).map fun r => r.pos

/-- The value of a stored Short Repeat or Direct field (R99): zig-zag decoded when signed. -/
def valueOfStored (signed : Bool) (raw : Word) : Word := if signed then zigzagDecode raw else raw

/-- The stored form of a value (R186, R196): zig-zag encoded when signed. -/
def storedOfValue (signed : Bool) (v : Word) : Word := if signed then zigzagEncode v else v

/-- The literals an `ADD` buffers (R251, R252): a masked-false slot is the filler 0, or nothing. -/
def literalsOf (maskConsumes : Bool) : List Bool → List Word → List Word
  | p :: ps, v :: vs =>
      if p then v :: literalsOf maskConsumes ps vs
      else if maskConsumes then 0 :: literalsOf maskConsumes ps vs
      else literalsOf maskConsumes ps vs
  | _, _ => []

end Sys2Proof.Machine
end

