-- ==== Sys2Proof/Machine/Writer.lean ====
section
/-! DEFINITION. The write primitives (`40_bit_primitives.md` rules R135 to R141, `20_memory.md` rule
R55). Each appends to `OUT` through `sinkWrite` only, and none fails. -/

namespace Sys2Proof.Machine

/-- `SinkWrite(b)` (rule R55). -/
def sinkWrite (b : Byte) (p : WritePort) : WritePort :=
  { p with out := Memory.append p.out b, bytesWritten := p.bytesWritten + 1 }

/-- `writeByte(b)` (rule R136). -/
def writeByte (b : Byte) (p : WritePort) : WritePort := sinkWrite b p

/-- `writeLongBE(v, n)` (rule R137): the low `8n` bits, most significant byte first. -/
def writeLongBE (v : Word) : (n : Nat) → WritePort → WritePort
  | 0, p => p
  | n + 1, p => writeLongBE v n (writeByte ((v >>> (8 * n)).setWidth 8) p)

/-- The loop of rule R138; ten turns write any word. -/
def writeVulongFrom : (fuel : Nat) → (v : Word) → WritePort → WritePort
  | 0, _, p => p
  | fuel + 1, v, p =>
      if v.toNat < 128 then writeByte (v.setWidth 8) p
      else writeVulongFrom fuel (v >>> 7) (writeByte (0x80 ||| (v.setWidth 8 &&& 0x7f)) p)

/-- `writeVulong(v)` (rule R138): the shortest varint of `toU(v)`, 1 to 10 bytes. -/
def writeVulong (v : Word) (p : WritePort) : WritePort := writeVulongFrom 10 v p

/-- `writeVslong(v)` (rule R138). -/
def writeVslong (v : Word) (p : WritePort) : WritePort := writeVulong (zigzagEncode v) p

/-- Write the collected byte and start an empty one (rules R140, R141). -/
def emitCurByte (p : WritePort) : WritePort :=
  { sinkWrite p.wcurByte p with wcurByte := 0, wbitsLeft := 8 }

/-- The end of one value in rule R140: the last `need` bits go below the pending ones, and a full
byte is written. -/
def putBits (v : Word) (need : Nat) (p : WritePort) : WritePort :=
  let left := p.wbitsLeft - need
  let p := { p with
    wbitsLeft := left
    wcurByte := p.wcurByte ||| ((v &&& lowMask64 need) <<< left).setWidth 8 }
  if p.wbitsLeft = 0 then emitCurByte p else p

/-- The inner loop of rule R140: while more bits are to go than the byte has room for, fill the
byte and write it. -/
def writeValueFrom : (fuel : Nat) → (v : Word) → (need : Nat) → WritePort → WritePort
  | 0, v, need, p => putBits v need p
  | fuel + 1, v, need, p =>
      if p.wbitsLeft < need then
        let part := ((v >>> (need - p.wbitsLeft)) &&& lowMask64 p.wbitsLeft).setWidth 8
        let rest := need - p.wbitsLeft
        writeValueFrom fuel v rest (emitCurByte { p with wcurByte := p.wcurByte ||| part })
      else putBits v need p

/-- One value of rule R140: the low `w` bits of `v`. -/
def writeValue (v : Word) (w : Nat) (p : WritePort) : WritePort :=
  writeValueFrom (w + 1) (if w < 64 then v &&& lowMask64 w else v) w p

/-- `writeLongs` (rule R140) over the values `src[off..off+n-1]`. -/
def writeLongs : (vs : List Word) → (w : Nat) → WritePort → WritePort
  | [], _, p => p
  | v :: vs, w, p => writeLongs vs w (writeValue v w p)

/-- `flushBits()` (rule R141). -/
def flushBits (p : WritePort) : WritePort := if p.wbitsLeft ≠ 8 then emitCurByte p else p

end Sys2Proof.Machine
end

