-- ==== Sys2Proof/Machine/Ops.lean ====
section
/-! DEFINITION. The shared operations over the registers: free values, entering a run, TAKING AN
ERROR (`60_exceptions.md` rules R276 to R278) and the only way back, `RESET`
(`70_reset_and_hazards.md` rule R290). -/

namespace Sys2Proof.Machine

/-- `count` free words for the entries `start, start+1, …` of a place at one unspecified event. Irreducible, so that no
comparison of states unfolds five hundred entries: cite its laws. -/
@[irreducible] def freeWords (place : FreePlace) (event start count : Nat) : List Word :=
  (List.range count).map fun i => Config.freeWord place event (start + i)

/-- The end of a run fetch (rules R161, R162): the decoded values stand in the run buffer, whose
entries at and above the length are unspecified (R29, log 9), and the run begins. -/
def enterRun (tag : BitVec 2) (vals : List Word) (d : Decoder) : Decoder :=
  { d with
    runBuffer := vals ++ freeWords .runBuffer d.freeCount vals.length (512 - vals.length)
    runSubenc := tag
    runLength := vals.length
    runConsumed := 0
    dstate := .inRun
    freeCount := d.freeCount + 1 }

/-- The first entries of an array overwritten, the others kept. -/
def overwrite (vals old : List Word) : List Word := vals ++ old.drop vals.length

/-- Unspecified decoder registers, each within the range its rule gives it (R27, R29 to R32):
everything `RESET` leaves open (R40), which is part of what a fault leaves open (R277). -/
def Decoder.havocWorking (d : Decoder) : Decoder :=
  { d with
    runSubenc := BitVec.ofNat 2 (Config.freeNumber .runSubenc d.freeCount)
    runLength := 1 + Config.freeNumber .runLength d.freeCount % 512
    runConsumed := Config.freeNumber .runConsumed d.freeCount % 513
    runBuffer := freeWords .runBuffer d.freeCount 0 512
    w := Config.freeNumber .w d.freeCount % 65
    bw := 1 + Config.freeNumber .bw d.freeCount % 8
    pw := 1 + Config.freeNumber .pw d.freeCount % 64
    pgw := 1 + Config.freeNumber .pgw d.freeCount % 8
    pll := Config.freeNumber .pll d.freeCount % 32
    base := Config.freeWord .base d.freeCount 0
    fd := Config.freeWord .firstDelta d.freeCount 0
    patchEntries := freeWords .patchEntry d.freeCount 0 31
    deltaScratch := freeWords .deltaScratch d.freeCount 0 510
    freeCount := d.freeCount + 1 }

/-- An unspecified position within the ranges of R23 and R25. -/
def freeCursor (event inputSize : Nat) : Cursor :=
  { spos := Config.freeNumber .spos event % (inputSize + 1)
    bitsLeft := Config.freeNumber .bitsLeft event % 9
    curByte := (Config.freeWord .curByte event 0).setWidth 8 }

/-- An unspecified `D.DSTATE`. -/
def freeDState (event : Nat) : DState :=
  if Config.freeNumber .dstate event % 2 = 0 then .awaitingHeader else .inRun

/-- The decoder half in its fault state (rules R276, R277): only `D.FAULT` and `D.ERR` are
defined. -/
def Decoder.faulted (inputSize : Nat) (k : ErrorKind) (d : Decoder) : Decoder :=
  { d.havocWorking with
    cur := freeCursor d.freeCount inputSize
    dstate := freeDState d.freeCount
    fault := true
    err := k.code }

/-- `raise K` inside a decoder command (rules R276, R277): the half enters its fault state and the
response carries the code. There is no handler, no saved program counter, no mode change. -/
def raiseDecoder (k : ErrorKind) (s : State) : State :=
  respond k.code { s with dec := s.dec.faulted (Memory.size s.input) k }

/-- What a run fetch or a slot walk leaves: the decoder it gives, or the fault state. -/
def settleDecoder (s : State) (r : Except ErrorKind Decoder) : State :=
  match r with
  | .ok d => { s with dec := d }
  | .error k => raiseDecoder k s

/-- The decoder half after `RESET` (rule R290): the listed registers take their reset values, the
others are unspecified (R40). -/
def Decoder.restart (d : Decoder) : Decoder :=
  { d.havocWorking with
    cur := Cursor.reset, dstate := .awaitingHeader, fault := false, err := 0 }

/-- The encoder half after `RESET` (rules R258, R290): an empty window and sink, and the fault
state at once when the sink has no capacity. `E.LITBUF` is unspecified. -/
def Encoder.restart (sinkCapacity : Nat) (e : Encoder) : Encoder :=
  { litBuf := freeWords .litBuf e.freeCount 0 512
    litCount := 0
    port := WritePort.reset
    fault := decide (sinkCapacity = 0)
    err := if sinkCapacity = 0 then ErrorKind.encoderArgument.code else 0
    freeCount := e.freeCount + 1 }

/-- `RESET(signed)` (rules R280, R290): both halves restart over the input sequence the environment
presents and an empty sink. It is the only way out of a fault state. -/
def restartEngine (signed : Bool) (s : State) : State :=
  { s with
    cfg := { s.cfg with signed := signed }
    dec := s.dec.restart
    enc := s.enc.restart s.cfg.sinkCapacity
    input := s.presented
    sinkFlushes := 0
    response :=
      { status := if s.cfg.sinkCapacity = 0 then ErrorKind.encoderArgument.code else 0
        total := none } }

end Sys2Proof.Machine
end

