-- ==== Sys2Proof/Machine/Direct.lean ====
section
/-! DEFINITION. The Direct run, both directions (`43_direct.md`). -/

namespace Sys2Proof.Machine

/-- `decodeDirect` (rule R192) after its header: `length` fields of `bitWidth` bits, each taken as
stored. -/
def decodeDirect (cfg : Settings) (inp : Memory) (bitWidth length : Nat) (d : Decoder) :
    Except ErrorKind Decoder := do
  let (raws, cur) ← readLongs inp length bitWidth d.cur
  .ok (enterRun 1 (raws.map (valueOfStored cfg.signed)) { d with cur := cur, w := bitWidth })

/-- `DIRECT`: the run whose header has just been fetched is materialised (rules R162, R192). -/
def execDirect (bitWidth length : Nat) (s : State) : Host.Outcome State Fault Refusal :=
  whenDecoderReady s
    (.next (settleDecoder s (decodeDirect s.cfg s.input bitWidth length s.dec)))

/-- The bits the widest stored value needs: `max(1, max bitlen(z[i]))` (rule R196). -/
def neededWidth : List Word → Nat
  | [] => 1
  | z :: zs => max (bitLength z) (neededWidth zs)

/-- `emitDirect(vals, m)` (rule R196), `m` being the number of values. -/
def emitDirect (signed : Bool) (vals : List Word) (p : WritePort) : WritePort :=
  let zs := vals.map (storedOfValue signed)
  let w := closestWidth (neededWidth zs)
  let p := writeByte (headByte 1 (codeOfWidth w) vals.length) p
  let p := writeByte (lengthByte vals.length) p
  flushBits (writeLongs zs w p)

end Sys2Proof.Machine
end

