-- ==== Sys2Proof/Machine/ShortRepeat.lean ====
section
/-! DEFINITION. The Short Repeat run, both directions (`42_short_repeat.md`). -/

namespace Sys2Proof.Machine

/-- `decodeShortRepeat` (rule R182) after its header: one big-endian value, `repeatCount` times. -/
def decodeShortRepeat (cfg : Settings) (inp : Memory) (byteWidth repeatCount : Nat) (d : Decoder) :
    Except ErrorKind Decoder := do
  let (raw, cur) ← readLongBE inp byteWidth d.cur
  .ok (enterRun 0 (List.replicate repeatCount (valueOfStored cfg.signed raw))
    { d with cur := cur, bw := byteWidth })

/-- `SR`: the run whose header has just been fetched is materialised (rules R162, R182). -/
def execSr (byteWidth repeatCount : Nat) (s : State) : Host.Outcome State Fault Refusal :=
  whenDecoderReady s
    (.next (settleDecoder s (decodeShortRepeat s.cfg s.input byteWidth repeatCount s.dec)))

/-- The bytes that hold a stored value: `max(1, ceil(bitlen(z) / 8))` (rule R186). -/
def storedBytes (z : Word) : Nat := max 1 ((bitLength z + 7) / 8)

/-- `emitShortRepeat(v, n)` (rule R186). -/
def emitShortRepeat (signed : Bool) (v : Word) (n : Nat) (p : WritePort) : WritePort :=
  let z := storedOfValue signed v
  let header := 0#2 ++ BitVec.ofNat 3 (storedBytes z - 1) ++ BitVec.ofNat 3 (n - 3)
  writeLongBE z (storedBytes z) (writeByte header p)

end Sys2Proof.Machine
end

