-- ==== Sys2Proof/Machine/EncoderControl.lean ====
section
/-! DEFINITION. Encoder control: `ADD`, `FLUSH` and the run selection (`47_encoder_control.md`). -/

namespace Sys2Proof.Machine

/-- How many leading words equal `v`. -/
def equalRun (v : Word) : List Word → Nat
  | [] => 0
  | x :: xs => if x = v then equalRun v xs + 1 else 0

/-- `identRun` at the head of the rest of the window (rule R253): the equal words from there on,
capped at 10. -/
def identRun : List Word → Nat
  | [] => 0
  | v :: rest => min 10 (equalRun v rest + 1)

/-- How many leading literals go into a Direct run: up to the next stretch of three equal ones
(rule R254). -/
def directSpan : List Word → Nat
  | [] => 0
  | v :: rest => if identRun (v :: rest) < 3 then directSpan rest + 1 else 0

/-- The loop of `emitWindow` over the literals from `i` on (rule R254). Every turn takes at least
one literal, so a fuel of the literals' number suffices. -/
def emitLiterals (signed : Bool) : (fuel : Nat) → (lits : List Word) → WritePort → WritePort
  | 0, _, p => p
  | _ + 1, [], p => p
  | fuel + 1, v :: rest, p =>
      let r := identRun (v :: rest)
      if 3 ≤ r then
        emitLiterals signed fuel ((v :: rest).drop r) (emitShortRepeat signed v r p)
      else
        let k := directSpan (v :: rest)
        emitLiterals signed fuel ((v :: rest).drop k) (emitDirect signed ((v :: rest).take k) p)

/-- The literals of the window (rule R33). -/
def windowLiterals (e : Encoder) : List Word := e.litBuf.take e.litCount

/-- `emitWindow()` (rule R254). The emptied window's entries are unspecified (log 10). -/
def emitWindow (signed : Bool) (e : Encoder) : Encoder :=
  { e with
    port := emitLiterals signed e.litCount (windowLiterals e) e.port
    litBuf := freeWords .litBuf e.freeCount 0 512
    litCount := 0
    freeCount := e.freeCount + 1 }

/-- One literal into the window; the 512th empties it (rule R251). -/
def pushLiteral (signed : Bool) (e : Encoder) (v : Word) : Encoder :=
  let e := { e with litBuf := e.litBuf.set e.litCount v, litCount := e.litCount + 1 }
  if e.litCount = 512 then emitWindow signed e else e

/-- The literals of an `ADD`, in order (rule R251). -/
def pushLiterals (signed : Bool) (vs : List Word) (e : Encoder) : Encoder :=
  vs.foldl (pushLiteral signed) e

/-- The literals the first `n` slots of the caller's buffers stand for (rules R251, R252). -/
def addedLiterals (masked : Bool) (n : Nat) (s : State) : List Word :=
  literalsOf s.cfg.maskConsumes (presentSlots masked s.mask n) (s.values.take n)

/-- `ADD(count, MASKED, values, mask)` (rules R251, R252). -/
def execAdd (count : BitVec 32) (masked : Bool) (s : State) : Host.Outcome State Fault Refusal :=
  whenEncoderReady s
    (if buffersCover masked s.mask s.values count.toNat then
      let e := pushLiterals s.cfg.signed (addedLiterals masked count.toNat s) s.enc
      .next (respond 0 { s with enc := e })
    else .refused .bufferTooShort)

/-- The window emitted when it holds anything (rule R256). -/
def flushWindow (signed : Bool) (e : Encoder) : Encoder :=
  if 0 < e.litCount then emitWindow signed e else e

/-- `SinkFlush()` (rule R56): it changes neither `OUT` nor engine state; the model counts it. -/
def sinkFlush (s : State) : State := { s with sinkFlushes := s.sinkFlushes + 1 }

/-- `FLUSH()` (rule R256). -/
def execFlush (s : State) : Host.Outcome State Fault Refusal :=
  whenEncoderReady s
    (let e := flushWindow s.cfg.signed s.enc
     .next (respondTotal e.port.bytesWritten (sinkFlush { s with enc := e })))

end Sys2Proof.Machine
end

