-- ==== Sys2Proof/Machine/Reset.lean ====
section
/-! DEFINITION. The `RESET` command (`70_reset_and_hazards.md` rule R290). -/

namespace Sys2Proof.Machine

/-- `RESET(signed)`: accepted in every state, both fault states included. -/
def execReset (signed : Bool) (s : State) : Host.Outcome State Fault Refusal :=
  .next (restartEngine signed s)

end Sys2Proof.Machine
end

