-- ==== Sys2Proof/Machine/Delta.lean ====
section
/-! DEFINITION. The Delta run (`45_delta.md`). The engine never writes this form (rule R8). -/

namespace Sys2Proof.Machine

/-- `readDeltaBase()` (rule R222). -/
def readDeltaBase (cfg : Settings) (inp : Memory) (c : Cursor) : Except ErrorKind (Word × Cursor) :=
  match cfg.deltaBase with
  | .signed => readVslong inp c
  | .byStream => if cfg.signed then readVslong inp c else readVulong inp c

/-- `v`, then each value moved on by the next step: `value[k] = value[k-1] + step[k-1]` modulo 2^64
(rule R221). -/
def runningSums (v : Word) : (steps : List Word) → List Word
  | [] => [v]
  | step :: rest => v :: runningSums (v + step) rest

/-- A magnitude with the sign of `firstDelta` (rule R225); 0 counts as non-negative. -/
def signedStep (fd mag : Word) : Word := if fd.toInt < 0 then -mag else mag

/-- How many magnitudes follow: none for a constant stride, else `max(length - 2, 0)` (rules R97,
R223). -/
def magnitudeCount (deltaWidth length : Nat) : Nat := if deltaWidth = 0 then 0 else length - 2

/-- The steps from each value of the run to the next: `firstDelta` first, then `firstDelta` again
for a constant stride (R224), else the signed magnitudes (R225). -/
def deltaSteps (deltaWidth length : Nat) (fd : Word) (mags : List Word) : List Word :=
  if length ≤ 1 then []
  else if deltaWidth = 0 then List.replicate (length - 1) fd
  else fd :: mags.map (signedStep fd)

/-- `decodeDelta` (rule R221) after its header. -/
def decodeDelta (cfg : Settings) (inp : Memory) (deltaWidth length : Nat) (d : Decoder) :
    Except ErrorKind Decoder := do
  let (base, cur) ← readDeltaBase cfg inp d.cur
  let (fd, cur) ← readVslong inp cur
  let (mags, cur) ← readLongs inp (magnitudeCount deltaWidth length) deltaWidth cur
  .ok (enterRun 3 (runningSums base (deltaSteps deltaWidth length fd mags))
    { d with
      cur := cur, w := deltaWidth, base := base, fd := fd
      deltaScratch := overwrite mags d.deltaScratch })

/-- `DELTA`: the run whose header has just been fetched is materialised (rules R162, R221). -/
def execDelta (deltaWidth length : Nat) (s : State) : Host.Outcome State Fault Refusal :=
  whenDecoderReady s
    (.next (settleDecoder s (decodeDelta s.cfg s.input deltaWidth length s.dec)))

end Sys2Proof.Machine
end

