-- ==== Sys2Proof/Machine/PatchedBase.lean ====
section
/-! DEFINITION. The Patched Base run: delta unpacker and outlier-patch reconstruction
(`44_patched_base.md`). The engine never writes this form (rule R8). -/

namespace Sys2Proof.Machine

/-- The base of a sign-and-magnitude spelling of `bw` bytes (rules R95, R204). -/
def baseOfRaw (bw : Nat) (raw : Word) : Word :=
  let mag := raw &&& lowMask64 (8 * bw - 1)
  if raw.getLsbD (8 * bw - 1) then -mag else mag

/-- `readBase(bw)` (rule R204). -/
def readBase (inp : Memory) (bw : Nat) (c : Cursor) : Except ErrorKind (Word × Cursor) := do
  let (raw, c) ← readLongBE inp bw c
  .ok (baseOfRaw bw raw, c)

/-- `entryWidth(pgw, pw)` (rule R206). -/
def entryWidth (kind : PatchEntryWidth) (pgw pw : Nat) : Nat :=
  match kind with
  | .exact => pgw + pw
  | .closestFixed => closestWidth (pgw + pw)

/-- `gap_k` (rules R94, R207): the bits of an entry above its patch. -/
def gapOf (pw : Nat) (entry : Word) : Nat := (entry >>> pw).toNat

/-- `patch_k` (rules R94, R207): the low `pw` bits of an entry. -/
def patchOf (pw : Nat) (entry : Word) : Word := entry &&& lowMask64 pw

/-- `isChain(gap, patch)` (rule R208). -/
def isChain (kind : GapSentinel) (pgw gap : Nat) (patch : Word) : Bool :=
  match kind with
  | .maxGap => gap == 2 ^ pgw - 1
  | .gap255Patch0 => gap == 255 && patch == 0

/-- The scratch delta at `cursor` with the patch ORed above its `w` low bits (rule R209). -/
def patchAt (w cursor : Nat) (patch : Word) (scratch : List Word) : List Word :=
  scratch.modify cursor (fun delta => delta ||| (patch <<< w))

/-- The walk of rule R209 and the check of rule R210. `pending` says that the last entry walked was
a chaining one. -/
def applyPatchesFrom (kind : GapSentinel) (w pw pgw : Nat) :
    (entries : List Word) → (cursor : Nat) → (pending : Bool) → (scratch : List Word) →
    Except ErrorKind (List Word)
  | [], _, pending, scratch => if pending then .error .malformedHeader else .ok scratch
  | entry :: rest, cursor, _, scratch =>
      let gap := gapOf pw entry
      let patch := patchOf pw entry
      if isChain kind pgw gap patch then
        applyPatchesFrom kind w pw pgw rest (cursor + gap) true scratch
      else if scratch.length ≤ cursor + gap then .error .malformedHeader
      else
        applyPatchesFrom kind w pw pgw rest (cursor + gap) false
          (patchAt w (cursor + gap) patch scratch)

/-- `applyPatches(L)` (rule R209): the cursor starts at run position 0. -/
def applyPatches (kind : GapSentinel) (w pw pgw : Nat) (entries scratch : List Word) :
    Except ErrorKind (List Word) :=
  applyPatchesFrom kind w pw pgw entries 0 false scratch

/-- `decodePatchedBase` (rules R201 to R212) after its header: the check of rule R202, the base, the
packed deltas, the patch list, the walk, the addition. -/
def decodePatchedBase (cfg : Settings) (inp : Memory)
    (deltaWidth length baseWidth patchWidth gapWidth listLength : Nat) (d : Decoder) :
    Except ErrorKind Decoder :=
  if 64 < gapWidth + patchWidth then .error .malformedHeader
  else do
    let (base, cur) ← readBase inp baseWidth d.cur
    let (deltas, cur) ← readLongs inp length deltaWidth cur
    let cur := if cfg.sectionAlign then resetRun cur else cur
    let (entries, cur) ←
      readLongs inp listLength (entryWidth cfg.patchEntryWidth gapWidth patchWidth) cur
    let scratch ← applyPatches cfg.gapSentinel deltaWidth patchWidth gapWidth entries deltas
    .ok (enterRun 2 (scratch.map fun delta => base + delta)
      { d with
        cur := cur, w := deltaWidth, bw := baseWidth, pw := patchWidth, pgw := gapWidth
        pll := listLength, base := base
        patchEntries := overwrite entries (List.replicate 31 0) })

/-- `PB`: the run whose header has just been fetched is materialised (rules R162, R201). -/
def execPb (deltaWidth length baseWidth patchWidth gapWidth listLength : Nat) (s : State) :
    Host.Outcome State Fault Refusal :=
  whenDecoderReady s
    (.next (settleDecoder s
      (decodePatchedBase s.cfg s.input deltaWidth length baseWidth patchWidth gapWidth listLength
        s.dec)))

end Sys2Proof.Machine
end

