-- ==== Sys2Proof/Machine/Dispatcher.lean ====
section
/-! DEFINITION. The run dispatcher and `NEXT` (`41_run_dispatcher.md`). -/

namespace Sys2Proof.Machine

/-- `n` whole bytes of a header, in stream order. -/
def readBytes (inp : Memory) : (n : Nat) → Cursor → Except ErrorKind (List Byte × Cursor)
  | 0, c => .ok ([], c)
  | n + 1, c => do
      let (b, c) ← readByte inp c
      let (bs, c) ← readBytes inp n c
      .ok (b :: bs, c)

/-- Fetch a run header at the cursor and decode it (rules R80, R162): the first byte's tag says how
many header bytes there are (R81). A header cut short is `TruncatedStream` (R272). -/
def fetchHeader (inp : Memory) (c : Cursor) : Except ErrorKind (Run × Cursor) := do
  let (h0, c) ← readByte inp c
  let (rest, c) ← readBytes inp (headerLength (tagOf h0) - 1) c
  match decodeHeader (h0 :: rest) with
  | .ok (r, _) => .ok (r, c)
  | .error _ => .error .truncatedStream

/-- The four materialisers (rule R161). -/
def materialise (cfg : Settings) (inp : Memory) (r : Run) (d : Decoder) : Except ErrorKind Decoder :=
  match r with
  | .sr byteWidth repeatCount => decodeShortRepeat cfg inp byteWidth repeatCount d
  | .direct bitWidth length => decodeDirect cfg inp bitWidth length d
  | .pb deltaWidth length baseWidth patchWidth gapWidth listLength =>
      decodePatchedBase cfg inp deltaWidth length baseWidth patchWidth gapWidth listLength d
  | .delta deltaWidth length => decodeDelta cfg inp deltaWidth length d

/-- `fetchRun()` (rule R162). -/
def fetchRun (cfg : Settings) (inp : Memory) (d : Decoder) : Except ErrorKind Decoder := do
  let (r, cur) ← fetchHeader inp (resetRun d.cur)
  materialise cfg inp r { d with cur := cur }

/-- The run in progress, fetched first when there is none (rules R162, R165). -/
def ensureRun (cfg : Settings) (inp : Memory) (d : Decoder) : Except ErrorKind Decoder :=
  match d.dstate with
  | .awaitingHeader => fetchRun cfg inp d
  | .inRun => .ok d

/-- The value at the run's current position (rule R165). -/
def currentValue (d : Decoder) : Word := d.runBuffer.getD d.runConsumed 0

/-- One position consumed; the last one ends the run (rule R165). -/
def consumePosition (d : Decoder) : Decoder :=
  { d with
    runConsumed := d.runConsumed + 1
    dstate := if d.runConsumed + 1 = d.runLength then .awaitingHeader else d.dstate }

/-- `slotStep()` (rule R165). -/
def slotStep (cfg : Settings) (inp : Memory) (d : Decoder) : Except ErrorKind (Word × Decoder) := do
  let d ← ensureRun cfg inp d
  .ok (currentValue d, consumePosition d)

/-- The slot loop of `NEXT` (rules R164, R166): a present slot takes a value; an absent one consumes
a position under `P_MASK_CONSUMES` and is never written. Slots beyond the count keep their
content. -/
def fillSlots (cfg : Settings) (inp : Memory) : (present : List Bool) → (out : List Word) →
    Decoder → Except ErrorKind (List Word × Decoder)
  | p :: ps, slot :: rest, d =>
      if p || cfg.maskConsumes then do
        let (v, d) ← slotStep cfg inp d
        let (rest, d) ← fillSlots cfg inp ps rest d
        .ok ((if p then v else slot) :: rest, d)
      else do
        let (rest, d) ← fillSlots cfg inp ps rest d
        .ok (slot :: rest, d)
  | _, out, d => .ok (out, d)

/-- What the slot loop leaves (rules R276, R278): the filled slots, or a faulted decoder and `n`
unspecified slots. -/
def settleSlots (n : Nat) (s : State) (r : Except ErrorKind (List Word × Decoder)) : State :=
  match r with
  | .ok (out, d) => respond 0 { s with dec := d, out := out }
  | .error k =>
      { raiseDecoder k s with out := freeWords .outSlot s.dec.freeCount 0 n ++ s.out.drop n }

/-- `NEXT(N, MASKED, out, mask)` (rule R164). -/
def execNext (n : BitVec 32) (masked : Bool) (s : State) : Host.Outcome State Fault Refusal :=
  whenDecoderReady s
    (if buffersCover masked s.mask s.out n.toNat then
      .next (settleSlots n.toNat s
        (fillSlots s.cfg s.input (presentSlots masked s.mask n.toNat) s.out s.dec))
    else .refused .bufferTooShort)

end Sys2Proof.Machine
end

