-- ==== Sys2Proof/Machine/SeekSkip.lean ====
section
/-! DEFINITION. The seek and skip controller (`46_seek_skip.md`). -/

namespace Sys2Proof.Machine

/-- `k` slot steps whose values are discarded (rules R236, R240). -/
def skipSlots (cfg : Settings) (inp : Memory) : (k : Nat) → Decoder → Except ErrorKind Decoder
  | 0, d => .ok d
  | k + 1, d => do
      let (_, d) ← slotStep cfg inp d
      skipSlots cfg inp k d

/-- What a skip leaves: status 0, or the fault state (rules R236, R276). -/
def settleSkip (s : State) (r : Except ErrorKind Decoder) : State :=
  match r with
  | .ok d => respond 0 { s with dec := d }
  | .error k => raiseDecoder k s

/-- `SKIP(K)` (rule R236). -/
def execSkip (k : BitVec 32) (s : State) : Host.Outcome State Fault Refusal :=
  whenDecoderReady s (.next (settleSkip s (skipSlots s.cfg s.input k.toNat s.dec)))

/-- The decoder repositioned at a run header (rule R240): the run in progress is dropped and the bit
cursor cleared. -/
def repositioned (pos : Nat) (d : Decoder) : Decoder :=
  { d with cur := resetRun { d.cur with spos := pos }, dstate := .awaitingHeader }

/-- The walk of rule R240: locate, reposition, skip `p3` positions. -/
def seekTo (cfg : Settings) (inp : Memory) (p0 p1 p3 : Word) (d : Decoder) :
    Except ErrorKind Decoder :=
  match streamLocate cfg.locate p0 p1 with
  | none => .error .seekOutOfRange
  | some pos =>
      if Memory.size inp < pos then .error .seekOutOfRange
      else skipSlots cfg inp p3.toNat (repositioned pos d)

/-- `SEEK(p0, p1, p2, p3)` (rules R240 to R243); `p2` is accepted and not interpreted (R243). -/
def execSeek (p0 p1 _p2 p3 : Word) (s : State) : Host.Outcome State Fault Refusal :=
  whenDecoderReady s (.next (settleSkip s (seekTo s.cfg s.input p0 p1 p3 s.dec)))

end Sys2Proof.Machine
end

