-- ==== Sys2Proof/Machine/Dispatch.lean ====
section
/-! DEFINITION. What each instruction does: one arm per row of the opcode table. -/

namespace Sys2Proof.Machine

def exec (i : Instr) (s : State) : Host.Outcome State Fault Refusal :=
  match i with
  | .sr bw rc => Sys2Proof.Machine.execSr bw rc s
  | .direct w l => Sys2Proof.Machine.execDirect w l s
  | .pb w l bw pw pgw pll => Sys2Proof.Machine.execPb w l bw pw pgw pll s
  | .delta w l => Sys2Proof.Machine.execDelta w l s
  | .reset signed => Sys2Proof.Machine.execReset signed s
  | .next n masked => Sys2Proof.Machine.execNext n masked s
  | .skip k => Sys2Proof.Machine.execSkip k s
  | .seek p0 p1 p2 p3 => Sys2Proof.Machine.execSeek p0 p1 p2 p3 s
  | .add count masked => Sys2Proof.Machine.execAdd count masked s
  | .flush => Sys2Proof.Machine.execFlush s

end Sys2Proof.Machine
end

