-- ==== Sys2Proof/Machine/Step.lean ====
section
/-! DEFINITION. One step of the machine: the owner's oldest pending command, from issue to response
(decision D1; `30_encoding.md` rule R101). Run instructions execute inside a command, when it needs
a position and no run is in progress (`41_run_dispatcher.md` rules R162, R165). -/

namespace Sys2Proof.Machine

/-- The command leaves the queue and its buffers stand where the engine reaches them. -/
def State.issue (s : State) (r : Request) (rest : List Request) : State :=
  { s with
    pending := rest, out := r.out, mask := r.mask, values := r.values
    presented := Memory.ofBytes r.input }

/-- One step. With nothing pending "the engine is idle between commands and holds all its state"
(rule R287). A code that is no command has no step (rule R101). -/
def step (s : State) : Host.Outcome State Fault Refusal :=
  match s.pending with
  | [] => .next s
  | r :: rest =>
      match decodeCommand r.command with
      | .ok i => exec i (s.issue r rest)
      | .error _ => .refused (.unknownCommand r.command.code)

/-- A request that carries a command and empty buffers. -/
def Request.bare (command : CommandWord) : Request :=
  { command := command, out := [], mask := [], values := [], input := [] }

/-- The bytes of the longest run: 4 header bytes, an 8-byte base, 512 deltas of 64 bits, 31 patch
entries of 64 bits (rule R93). -/
def longestRun : Nat := 4 + 8 + 512 * 8 + 31 * 8

/-- The state whose next step runs the given words (log 16). A command goes to the head of the
owner's queue. A run goes into `IN` at `D.SPOS`, with zeros after it, the decoder awaits a header
there, and `SKIP k=1` is the pending command: the least one that makes the engine fetch a run. -/
def State.withFetchWord (s : State) (nbits w : Nat) : State :=
  match wordsOfTableWord nbits w with
  | .port command => { s with pending := Request.bare command :: s.pending }
  | .stream bytes =>
      { s with
        pending := Request.bare { CommandWord.bare 0x02 with count := 1 } :: s.pending
        dec := { s.dec with dstate := .awaitingHeader, fault := false, err := 0 }
        input := Memory.ofBytes
          ((Memory.bytes s.input).take s.dec.cur.spos ++ bytes ++ List.replicate longestRun 0) }

end Sys2Proof.Machine
end

