-- ==== Sys2Proof/Machine/Assembler.lean ====
section
/-! DEFINITION. The run notation of `30_encoding.md` rule R107: a line fixes the bytes of one run by
rules R88 to R97, with zero padding bits. It is the only writer of Patched Base and Delta runs (the
engine has none, rule R8), and the user of the varint writers (rule R138). -/

namespace Sys2Proof.Machine

/-- One line of the notation (R107). `raw` values are stored ones; the base and `fd` of a Delta line
are values; a patch is its gap and its patch field. -/
inductive RunLine where
  | sr (byteWidth n : Nat) (raw : Word)
  | direct (w : Nat) (raws : List Word)
  | pb (w baseWidth pw pgw : Nat) (negative : Bool) (magnitude : Word) (deltas : List Word)
      (patches : List (Word × Word))
  | delta (w n : Nat) (base fd : Word) (mags : List Word)
  deriving DecidableEq, Repr

/-- The header a line stands for. -/
def RunLine.run : RunLine → Run
  | .sr byteWidth n _ => .sr byteWidth n
  | .direct w raws => .direct w raws.length
  | .pb w baseWidth pw pgw _ _ deltas patches =>
      .pb w deltas.length baseWidth pw pgw patches.length
  | .delta w n _ _ _ => .delta w n

/-- The sign-and-magnitude spelling of a base (R95). -/
def rawOfBase (baseWidth : Nat) (negative : Bool) (magnitude : Word) : Word :=
  if negative then magnitude ||| (1#64 <<< (8 * baseWidth - 1)) else magnitude

/-- A patch entry: the gap above the patch (R94). -/
def entryOf (pw : Nat) (patch : Word × Word) : Word := (patch.1 <<< pw) ||| patch.2

/-- The base of a Delta line as a varint (R97, R222). -/
def writeDeltaBase (cfg : Settings) (base : Word) (p : WritePort) : WritePort :=
  if cfg.deltaBase = .byStream && !cfg.signed then writeVulong base p else writeVslong base p

/-- The body of a line (R89, R91, R93, R97). -/
def writeBody (cfg : Settings) (line : RunLine) (p : WritePort) : WritePort :=
  match line with
  | .sr byteWidth _ raw => writeLongBE raw byteWidth p
  | .direct w raws => flushBits (writeLongs raws w p)
  | .pb w baseWidth pw pgw negative magnitude deltas patches =>
      let p := writeLongBE (rawOfBase baseWidth negative magnitude) baseWidth p
      let p := writeLongs deltas w p
      let p := if cfg.sectionAlign then flushBits p else p
      flushBits (writeLongs (patches.map (entryOf pw)) (entryWidth cfg.patchEntryWidth pgw pw) p)
  | .delta w _ base fd mags =>
      flushBits (writeLongs mags w (writeVslong fd (writeDeltaBase cfg base p)))

/-- The bytes of a line (R107). -/
def assemble (cfg : Settings) (line : RunLine) : List Byte :=
  encodeHeader line.run ++ Memory.bytes (writeBody cfg line WritePort.reset).out

end Sys2Proof.Machine
end

