-- ==== Sys2Proof/Safety.lean ====
section
/-! DEFINITION. The terms claims are written in: the invariant of a reachable state, what a byte
sequence holds, and the closed forms that the rules give beside their pseudocode (`20_memory.md`
rule R59, `40_bit_primitives.md` rules R124, R131, `44_patched_base.md` rule R209). None of these
definitions is used by the machine. -/

namespace Sys2Proof.Machine

/-! ### Legal states -/

/-- The ranges of the decoder half (R23 to R32), over an input of `inputSize` bytes. -/
structure Decoder.Legal (inputSize : Nat) (d : Decoder) : Prop where
  spos_le : d.cur.spos ≤ inputSize
  bitsLeft_le : d.cur.bitsLeft ≤ 8
  runBuffer_length : d.runBuffer.length = 512
  patchEntries_length : d.patchEntries.length = 31
  deltaScratch_length : d.deltaScratch.length = 510
  runLength_pos : 1 ≤ d.runLength
  runLength_le : d.runLength ≤ 512
  runConsumed_le : d.runConsumed ≤ 512
  /-- R27: between commands `CONSUMED < LENGTH` while a run is in progress (and no fault). -/
  inRun : d.fault = false → d.dstate = .inRun → d.runConsumed < d.runLength
  /-- R28: `D.ERR` is 0 while `D.FAULT = 0`. -/
  err_of_ready : d.fault = false → d.err = 0
  /-- R271 to R274: a decoder fault carries code 1, 2 or 4. -/
  err_of_fault : d.fault = true → d.err = 1 ∨ d.err = 2 ∨ d.err = 4
  w_le : d.w ≤ 64
  bw_range : 1 ≤ d.bw ∧ d.bw ≤ 8
  pw_range : 1 ≤ d.pw ∧ d.pw ≤ 64
  pgw_range : 1 ≤ d.pgw ∧ d.pgw ≤ 8
  pll_le : d.pll ≤ 31

/-- The sink: `OUT` in canonical form and counted by `E.BYTESWRITTEN` modulo 2^64 (R35, R55). -/
structure WritePort.Counted (p : WritePort) : Prop where
  out_wf : Memory.wf p.out = true
  bytesWritten_eq : p.bytesWritten = BitVec.ofNat 64 (Memory.size p.out)

/-- The ranges of the encoder half between commands (R33 to R36): no bits are pending, since every
run ends in whole bytes (R301), and the fault bit is the one `RESET` set (R275). -/
structure Encoder.Legal (sinkCapacity : Nat) (e : Encoder) : Prop where
  litBuf_length : e.litBuf.length = 512
  litCount_lt : e.litCount < 512
  counted : e.port.Counted
  wbitsLeft_eq : e.port.wbitsLeft = 8
  wcurByte_eq : e.port.wcurByte = 0
  fault_eq : e.fault = decide (sinkCapacity = 0)
  err_eq : e.err = if e.fault then 5 else 0

/-- What every reachable state satisfies. -/
structure Inv (s : State) : Prop where
  dec : s.dec.Legal (Memory.size s.input)
  enc : s.enc.Legal s.cfg.sinkCapacity
  input_wf : Memory.wf s.input = true
  presented_wf : Memory.wf s.presented = true

/-! ### What a byte sequence holds -/

/-- `inp` holds the bytes `bs` from index `a` on. -/
def Holds (inp : Memory) (a : Nat) (bs : List Byte) : Prop :=
  ∀ i, i < bs.length → Memory.read? inp (a + i) = bs[i]?

/-- The cursor `n` whole bytes further on. -/
def Cursor.advance (c : Cursor) (n : Nat) : Cursor := { c with spos := c.spos + n }

/-! ### Closed forms -/

/-- A big-endian unsigned integer (R59 (a), R122). -/
def bytesToNat (bs : List Byte) : Nat := bs.foldl (fun v b => 256 * v + b.toNat) 0

/-- The payload of a varint: seven bits a byte, the first byte lowest (R59 (c), R124). -/
def varintNat : List Byte → Nat
  | [] => 0
  | b :: rest => b.toNat % 128 + 128 * varintNat rest

/-- One varint: continuation bytes, then one byte with bit 7 clear (R124). -/
def IsVarint : List Byte → Prop
  | [] => False
  | [b] => b.msb = false
  | b :: rest => b.msb = true ∧ IsVarint rest

/-- The bits of a byte, bit 7 first (R14). -/
def bitsOfByte (b : Byte) : List Bool := (List.range 8).map fun i => b.getLsbD (7 - i)

/-- The bit string of a byte string (R59 (b)). -/
def bitsOf (bs : List Byte) : List Bool := bs.flatMap bitsOfByte

/-- The unsigned number a bit string spells, most significant bit first. -/
def numberOfBits (bits : List Bool) : Nat := bits.foldl (fun v b => 2 * v + b.toNat) 0

/-- The low `w` bits of a word, the most significant first (R59 (b)). -/
def bitsOfWord (v : Word) (w : Nat) : List Bool :=
  (List.range w).map fun i => v.getLsbD (w - 1 - i)

/-- The bits the cursor has not handed out yet, in order (R25). -/
def pendingBits (c : Cursor) : List Bool := (bitsOfByte c.curByte).drop (8 - c.bitsLeft)

/-- Field `i` of a bit string cut into fields of `w` bits (R131). -/
def fieldAt (bits : List Bool) (w i : Nat) : Word :=
  BitVec.ofNat 64 (numberOfBits ((bits.drop (i * w)).take w))

/-- The first `n` fields of `w` bits of a bit string (R131). -/
def fieldsOf (bits : List Bool) (n w : Nat) : List Word := (List.range n).map (fieldAt bits w)

/-- How many bytes unpacking `n` fields of `w` bits fetches with `k` bits pending (R131). -/
def fetchCount (k n w : Nat) : Nat := (n * w - k + 7) / 8

/-- The cursor after unpacking `n` fields of `w` bits, the bytes `bs` being fetched (R131). -/
def cursorAfter (c : Cursor) (bs : List Byte) (n w : Nat) : Cursor :=
  { spos := c.spos + bs.length
    bitsLeft :=
      if n * w ≤ c.bitsLeft then c.bitsLeft - n * w else (8 - (n * w - c.bitsLeft) % 8) % 8
    curByte := bs.getLastD c.curByte }

/-- The run position of patch entry `k`: the gaps of all entries up to and including it, chaining
entries included (R209). -/
def patchPosition (pw : Nat) (entries : List Word) (k : Nat) : Nat :=
  ((entries.take (k + 1)).map (gapOf pw)).sum

/-- Entry `k` is a chaining entry (R208). -/
def chains (kind : GapSentinel) (pw pgw : Nat) (entries : List Word) (k : Nat) : Bool :=
  match entries[k]? with
  | some entry => isChain kind pgw (gapOf pw entry) (patchOf pw entry)
  | none => false

/-- What entry `k` contributes to run position `i`: its patch above the `w` low bits when it is no
chaining entry and stands there (R209), else nothing. -/
def patchContribution (kind : GapSentinel) (w pw pgw : Nat) (entries : List Word) (i k : Nat) :
    Word :=
  if chains kind pw pgw entries k = false ∧ patchPosition pw entries k = i then
    patchOf pw (entries.getD k 0) <<< w
  else 0

/-- The delta at run position `i` with every patch that stands there ORed into it (R209). -/
def patchedDelta (kind : GapSentinel) (w pw pgw : Nat) (entries deltas : List Word) (i : Nat) :
    Word :=
  (List.range entries.length).foldl
    (fun v k => v ||| patchContribution kind w pw pgw entries i k) (deltas.getD i 0)

/-- The patch list of a legal run of `length` positions: every patch stands inside the run (R209),
and the last entry does not chain (R210). -/
structure PatchesLegal (kind : GapSentinel) (pw pgw : Nat) (entries : List Word) (length : Nat) :
    Prop where
  inside : ∀ k, k < entries.length → chains kind pw pgw entries k = false →
    patchPosition pw entries k < length
  closed : chains kind pw pgw entries (entries.length - 1) = false

/-- How many bytes the body of a Patched Base run takes with `k` bits pending (R93): the base, then
the deltas and the entries bit after bit, or each in whole bytes under `P_PB_SECTION_ALIGN` (R205). -/
def patchedBaseBytes (cfg : Settings)
    (k deltaWidth length baseWidth patchWidth gapWidth listLength : Nat) : Nat :=
  let entryBits := listLength * entryWidth cfg.patchEntryWidth gapWidth patchWidth
  if cfg.sectionAlign then
    baseWidth + (length * deltaWidth - k + 7) / 8 + (entryBits + 7) / 8
  else baseWidth + (length * deltaWidth + entryBits - k + 7) / 8

/-- No varint ends in `inp` from index `a` on: every byte there is a continuation byte (R124). -/
def NoVarintFrom (inp : Memory) (a : Nat) : Prop :=
  ∀ i b, a ≤ i → Memory.read? inp i = some b → b.msb = true

/-- The body of a Patched Base run stands in `inp` at cursor `c` (R93): the base bytes, the packed
deltas, the padding of `P_PB_SECTION_ALIGN` (R205), the packed patch entries. It spells `base`,
`deltas` and `entries`, and reading it ends at cursor `c'`. -/
def PatchedBaseBody (cfg : Settings) (inp : Memory) (c : Cursor)
    (deltaWidth length baseWidth patchWidth gapWidth listLength : Nat)
    (base : Word) (deltas entries : List Word) (c' : Cursor) : Prop :=
  ∃ baseBytes deltaBytes entryBytes c₁ c₂ c₃,
    baseBytes.length = baseWidth ∧ Holds inp c.spos baseBytes ∧
    base = baseOfRaw baseWidth (BitVec.ofNat 64 (bytesToNat baseBytes)) ∧
    c₁ = c.advance baseWidth ∧
    deltaBytes.length = fetchCount c₁.bitsLeft length deltaWidth ∧
    Holds inp c₁.spos deltaBytes ∧
    deltas = fieldsOf (pendingBits c₁ ++ bitsOf deltaBytes) length deltaWidth ∧
    c₂ = cursorAfter c₁ deltaBytes length deltaWidth ∧
    c₃ = (if cfg.sectionAlign then resetRun c₂ else c₂) ∧
    entryBytes.length =
      fetchCount c₃.bitsLeft listLength (entryWidth cfg.patchEntryWidth gapWidth patchWidth) ∧
    Holds inp c₃.spos entryBytes ∧
    entries = fieldsOf (pendingBits c₃ ++ bitsOf entryBytes) listLength
      (entryWidth cfg.patchEntryWidth gapWidth patchWidth) ∧
    c' = cursorAfter c₃ entryBytes listLength
      (entryWidth cfg.patchEntryWidth gapWidth patchWidth)

/-- Everything outside the decoder half and the response is as it was, every byte of `IN` and `OUT`
included (R277: a decoder command, even a faulting one, leaves `CFG.*` and the encoder half). -/
structure OnlyDecoderMoves (s t : State) : Prop where
  cfg_eq : t.cfg = s.cfg
  enc_eq : t.enc = s.enc
  input_eq : t.input = s.input
  mask_eq : t.mask = s.mask
  values_eq : t.values = s.values
  presented_eq : t.presented = s.presented
  sinkFlushes_eq : t.sinkFlushes = s.sinkFlushes
  pending_eq : t.pending = s.pending
  input_bytes : ∀ a, Memory.read? t.input a = Memory.read? s.input a
  out_bytes : ∀ a, Memory.read? t.enc.port.out a = Memory.read? s.enc.port.out a

/-- Two decoder halves agree in everything the spec gives a value: the fault pair; without a fault
the position and the state; in a run, its fields and its values. The rest is unspecified (R29, R30,
R40, R277), and a statement that compares two executions says nothing about it. -/
structure Decoder.Agrees (d d' : Decoder) : Prop where
  fault_eq : d.fault = d'.fault
  err_eq : d.err = d'.err
  cur_eq : d.fault = false → d.cur = d'.cur
  dstate_eq : d.fault = false → d.dstate = d'.dstate
  run_eq : d.fault = false → d.dstate = .inRun →
    d.runSubenc = d'.runSubenc ∧ d.runLength = d'.runLength ∧ d.runConsumed = d'.runConsumed ∧
      d.runBuffer.take d.runLength = d'.runBuffer.take d'.runLength

/-- Two encoder halves agree in everything the spec gives a value: the window's entries at and above
`E.LITCOUNT` are unspecified (R33, R40). -/
structure Encoder.Agrees (e e' : Encoder) : Prop where
  litCount_eq : e.litCount = e'.litCount
  literals_eq : e.litBuf.take e.litCount = e'.litBuf.take e'.litCount
  port_eq : e.port = e'.port
  fault_eq : e.fault = e'.fault
  err_eq : e.err = e'.err

/-- The decoder half has entered its fault state with an error (R276): the fault bit, the code, and
the same code in the response. -/
structure DecoderRaised (code : BitVec 3) (t : State) : Prop where
  fault_eq : t.dec.fault = true
  err_eq : t.dec.err = code
  response_eq : t.response = { status := code, total := none }

/-- Instruction `i` ends in the decoder's fault state with `code`, and nothing but the decoder half
and the response moves (R276, R277). -/
def RaisesOnly (code : BitVec 3) (i : Instr) (s : State) : Prop :=
  ∃ t, exec i s = .next t ∧ DecoderRaised code t ∧ OnlyDecoderMoves s t ∧ t.out = s.out

end Sys2Proof.Machine
end

