-- ==== Sys2Proof/Certificates/Slice0/Obligations.lean ====
section
/-! DEFINITION. The statements about this model. Each docstring names the rules of `spec/` it rests
on. Where a value is unspecified (the run buffer above the run's length, rule R29) a statement says
that some words stand there and nothing about which. -/

open Sys2Proof Sys2Proof.Machine

/-! ### Encoding (`30_encoding.md`) -/

/-- Decoding the words the encoder writes gives the instruction back (rules R88, R90, R92, R96,
R101), for every well-formed instruction. -/
def Obligations.DecodeOfEncode : Prop :=
  ∀ i : Instr, i.wellFormed = true → decode (encode i) = .ok i

/-- A run header has one spelling: the bytes a header was decoded from are the ones the encoder
writes for it (rules R88, R90, R92, R96). -/
def Obligations.HeaderHasOneSpelling : Prop :=
  ∀ (bytes rest : List Byte) (r : Run), decodeHeader bytes = .ok (r, rest) →
    bytes = encodeHeader r ++ rest

/-- Words written out from the header layouts decode to the runs and commands they stand for. -/
def Obligations.KnownWords : Prop :=
  decode (.stream [0x0a]) = .ok (.sr 2 5) ∧
  decode (.stream [0x5e, 0x03]) = .ok (.direct 16 4) ∧
  decode (.stream [0x84, 0x05, 0x10, 0x41]) = .ok (.pb 3 6 1 17 3 1) ∧
  decode (.stream [0xc6, 0x09]) = .ok (.delta 4 10) ∧
  decode (.stream [0xc1, 0xff]) = .ok (.delta 0 512) ∧
  decode (.port (CommandWord.bare 0x00)) = .ok (.reset false) ∧
  decode (.port { CommandWord.bare 0x01 with count := 5, masked := true }) = .ok (.next 5 true) ∧
  decode (.port { CommandWord.bare 0x02 with count := 6 }) = .ok (.skip 6) ∧
  decode (.port { CommandWord.bare 0x03 with p1 := 3, p3 := 2 }) = .ok (.seek 0 3 0 2) ∧
  decode (.port { CommandWord.bare 0x04 with count := 5 }) = .ok (.add 5 false) ∧
  decode (.port (CommandWord.bare 0x05)) = .ok .flush

/-- Every first byte starts a run, of the form its tag names (rules R81, R82): with as many header
bytes as the tag calls for, the header decoder answers. -/
def Obligations.EveryFirstByteStartsARun : Prop :=
  ∀ (h0 : Byte) (rest : List Byte), headerLength (tagOf h0) ≤ rest.length + 1 →
    ∃ r, decodeHeader (h0 :: rest) = .ok (r, (h0 :: rest).drop (headerLength (tagOf h0))) ∧
      (tagOf h0 = 0 → ∃ a b, r = .sr a b) ∧
      (tagOf h0 = 1 → ∃ a b, r = .direct a b) ∧
      (tagOf h0 = 2 → ∃ a b c d e f, r = .pb a b c d e f) ∧
      (tagOf h0 = 3 → ∃ a b, r = .delta a b)

/-- Codes `0x06..0xFF` are no commands, and a step that meets one is refused (rule R101). -/
def Obligations.UnknownCommandsAreRefused : Prop :=
  ∀ (s : State) (r : Request) (rest : List Request),
    s.pending = r :: rest → 5 < r.command.code.toNat →
      decodeCommand r.command = .error (.unknownCommand r.command.code) ∧
      step s = .refused (.unknownCommand r.command.code)

/-- `codeOf` inverts `WIDTH`, so the table is a bijection between the 32 codes and its image (rule
R85). -/
def Obligations.CodeOfInvertsWidth : Prop :=
  (∀ c : BitVec 5, codeOfWidth (widthOfCode c) = c) ∧
  (∀ w, isTableWidth w = true → widthOfCode (codeOfWidth w) = w) ∧
  (∀ w, 1 ≤ w → w ≤ 24 → (codeOfWidth w).toNat = w - 1) ∧
  [26, 28, 30, 32, 40, 48, 56, 64].map codeOfWidth = [24, 25, 26, 27, 28, 29, 30, 31]

/-- `closestWidth(n)` is the smallest table width that is at least `max(n, 1)` (rule R84). -/
def Obligations.ClosestWidthIsLeast : Prop :=
  ∀ n, n ≤ 64 →
    (∃ c, widthOfCode c = closestWidth n) ∧ max n 1 ≤ closestWidth n ∧
      ∀ c, max n 1 ≤ widthOfCode c → closestWidth n ≤ widthOfCode c

/-! ### Bit primitives (`40_bit_primitives.md`) -/

/-- Zig-zag is a bijection on words (rule R129). -/
def Obligations.ZigzagIsABijection : Prop :=
  ∀ x : Word, zigzagDecode (zigzagEncode x) = x ∧ zigzagEncode (zigzagDecode x) = x

/-- What zig-zag decoding gives: the formula of rule R127, and by parity: even `2k` gives `k`, odd
`2k + 1` gives `-k - 1`. -/
def Obligations.ZigzagDecodesByParity : Prop :=
  (∀ z : Word, zigzagDecode z = (z >>> 1) ^^^ (0 - (z &&& 1))) ∧
  ∀ k, k < 2 ^ 63 →
    zigzagDecode (BitVec.ofNat 64 (2 * k)) = BitVec.ofNat 64 k ∧
    zigzagDecode (BitVec.ofNat 64 (2 * k + 1)) = -(BitVec.ofNat 64 k) - 1

/-- A varint is read little-end first, seven bits a byte, payload bits from bit 64 on dropped; a
stream that ends before a byte with bit 7 clear is truncated (rules R124, R125). -/
def Obligations.VarintRead : Prop :=
  (∀ (inp : Memory) (c : Cursor) (bytes : List Byte),
    Memory.wf inp = true → Holds inp c.spos bytes → IsVarint bytes →
      readVulong inp c = .ok (BitVec.ofNat 64 (varintNat bytes), c.advance bytes.length) ∧
      readVslong inp c =
        .ok (zigzagDecode (BitVec.ofNat 64 (varintNat bytes)), c.advance bytes.length)) ∧
  ∀ (inp : Memory) (c : Cursor),
    (∀ a b, c.spos ≤ a → Memory.read? inp a = some b → b.msb = true) →
      readVulong inp c = .error .truncatedStream ∧ readVslong inp c = .error .truncatedStream

/-- Each whole-byte reader inverts its writer (rules R137, R138): over the bytes just appended it
gives the value written and stops at the end of them. -/
def Obligations.ByteReadersInvertWriters : Prop :=
  ∀ (p : WritePort) (v : Word) (c : Cursor), p.Counted → c.spos = Memory.size p.out →
    (∀ n, 1 ≤ n → n ≤ 8 → v.toNat < 2 ^ (8 * n) →
      Memory.size (writeLongBE v n p).out = Memory.size p.out + n ∧
      readLongBE (writeLongBE v n p).out n c = .ok (v, c.advance n)) ∧
    (∃ n, 1 ≤ n ∧ n ≤ 10 ∧ Memory.size (writeVulong v p).out = Memory.size p.out + n ∧
      readVulong (writeVulong v p).out c = .ok (v, c.advance n)) ∧
    (∃ n, 1 ≤ n ∧ n ≤ 10 ∧ Memory.size (writeVslong v p).out = Memory.size p.out + n ∧
      readVslong (writeVslong v p).out c = .ok (v, c.advance n))

/-- The closed form of the bit-unpacker and its contract for the next call (rule R131). -/
def Obligations.UnpackerClosedForm : Prop :=
  ∀ (inp : Memory) (c : Cursor) (bytes : List Byte) (n w : Nat),
    c.bitsLeft ≤ 8 → bytes.length = fetchCount c.bitsLeft n w → Holds inp c.spos bytes →
      readLongs inp n w c =
        .ok (fieldsOf (pendingBits c ++ bitsOf bytes) n w, cursorAfter c bytes n w) ∧
      pendingBits (cursorAfter c bytes n w) = (pendingBits c ++ bitsOf bytes).drop (n * w)

/-- The inverse law of the packer (rule R142), from a cursor without pending bits. -/
def Obligations.UnpackerInvertsPacker : Prop :=
  ∀ (p : WritePort) (src : List Word) (w : Nat) (c : Cursor),
    p.Counted → p.wbitsLeft = 8 → p.wcurByte = 0 → 1 ≤ w → w ≤ 64 →
    (∀ v ∈ src, v.toNat < 2 ^ w) → c.spos = Memory.size p.out → c.bitsLeft = 0 →
      Memory.size (flushBits (writeLongs src w p)).out =
        Memory.size p.out + (src.length * w + 7) / 8 ∧
      ∃ c', readLongs (flushBits (writeLongs src w p)).out src.length w c = .ok (src, c') ∧
        c'.spos = Memory.size (flushBits (writeLongs src w p)).out

/-! ### The run forms (`42_short_repeat.md` to `45_delta.md`) -/

/-- A Short Repeat run whose body is in the stream (rule R182): `repeatCount` copies of the
big-endian value, zig-zag decoded when the stream is signed. Nothing else changes. -/
def Obligations.ShortRepeatCompletes : Prop :=
  ∀ (s : State) (byteWidth repeatCount : Nat) (bytes : List Byte),
    s.dec.fault = false → 1 ≤ byteWidth → byteWidth ≤ 8 → 3 ≤ repeatCount → repeatCount ≤ 10 →
    bytes.length = byteWidth → Holds s.input s.dec.cur.spos bytes →
      ∃ tail : List Word, tail.length = 512 - repeatCount ∧
        exec (.sr byteWidth repeatCount) s = .next { s with
          dec := { s.dec with
            cur := { s.dec.cur with spos := s.dec.cur.spos + byteWidth }
            bw := byteWidth
            runBuffer := List.replicate repeatCount
              (if s.cfg.signed then zigzagDecode (BitVec.ofNat 64 (bytesToNat bytes))
                else BitVec.ofNat 64 (bytesToNat bytes)) ++ tail
            runSubenc := 0, runLength := repeatCount, runConsumed := 0, dstate := .inRun
            freeCount := s.dec.freeCount + 1 } }

/-- A Direct run whose payload is in the stream (rule R192): lane `i` is the field of `bitWidth`
bits at bit offset `i * bitWidth`, zig-zag decoded when the stream is signed. Nothing else
changes. -/
def Obligations.DirectCompletes : Prop :=
  ∀ (s : State) (bitWidth length : Nat) (bytes : List Byte),
    s.dec.fault = false → s.dec.cur.bitsLeft ≤ 8 → isTableWidth bitWidth = true →
    1 ≤ length → length ≤ 512 →
    bytes.length = fetchCount s.dec.cur.bitsLeft length bitWidth →
    Holds s.input s.dec.cur.spos bytes →
      ∃ tail : List Word, tail.length = 512 - length ∧
        exec (.direct bitWidth length) s = .next { s with
          dec := { s.dec with
            cur := cursorAfter s.dec.cur bytes length bitWidth
            w := bitWidth
            runBuffer :=
              (fieldsOf (pendingBits s.dec.cur ++ bitsOf bytes) length bitWidth).map
                (fun raw => if s.cfg.signed then zigzagDecode raw else raw) ++ tail
            runSubenc := 1, runLength := length, runConsumed := 0, dstate := .inRun
            freeCount := s.dec.freeCount + 1 } }

/-- The base of a Patched Base run (rules R95, R204): the top bit of the first stored byte is the
sign, the other bits are the magnitude. -/
def Obligations.BaseIsSignAndMagnitude : Prop :=
  ∀ (byteWidth : Nat) (raw : Word), 1 ≤ byteWidth → byteWidth ≤ 8 →
    raw.toNat < 2 ^ (8 * byteWidth) →
      baseOfRaw byteWidth raw =
        if raw.toNat < 2 ^ (8 * byteWidth - 1) then raw
        else -(BitVec.ofNat 64 (raw.toNat - 2 ^ (8 * byteWidth - 1)))

/-- A Patched Base run whose body is in the stream and whose patch list is legal (rules R201 to
R212): value `i` is the base plus the delta with every patch that stands there ORed above its low
bits. Nothing else changes. -/
def Obligations.PatchedBaseCompletes : Prop :=
  ∀ (s : State) (deltaWidth length baseWidth patchWidth gapWidth listLength : Nat)
    (base : Word) (deltas entries : List Word) (cur : Cursor),
    s.dec.fault = false → s.dec.cur.bitsLeft ≤ 8 → isTableWidth deltaWidth = true →
    1 ≤ length → length ≤ 512 → 1 ≤ baseWidth → baseWidth ≤ 8 →
    isTableWidth patchWidth = true → 1 ≤ gapWidth → gapWidth ≤ 8 → listLength ≤ 31 →
    gapWidth + patchWidth ≤ 64 →
    PatchedBaseBody s.cfg s.input s.dec.cur deltaWidth length baseWidth patchWidth gapWidth
      listLength base deltas entries cur →
    PatchesLegal s.cfg.gapSentinel patchWidth gapWidth entries length →
      ∃ tail : List Word, tail.length = 512 - length ∧
        exec (.pb deltaWidth length baseWidth patchWidth gapWidth listLength) s = .next { s with
          dec := { s.dec with
            cur := cur
            w := deltaWidth, bw := baseWidth, pw := patchWidth, pgw := gapWidth
            pll := listLength, base := base
            patchEntries := entries ++ List.replicate (31 - listLength) 0
            runBuffer := (List.range length).map (fun i =>
              base + patchedDelta s.cfg.gapSentinel deltaWidth patchWidth gapWidth entries deltas i)
                ++ tail
            runSubenc := 2, runLength := length, runConsumed := 0, dstate := .inRun
            freeCount := s.dec.freeCount + 1 } }

/-- The header check of a Patched Base run (rule R202): gap and patch widths above 64 together raise
`MalformedHeader`, whatever the body holds; only a patch width of 64 can do it. -/
def Obligations.PatchedBaseWidthCheck : Prop :=
  ∀ (s : State) (deltaWidth length baseWidth patchWidth gapWidth listLength : Nat),
    s.dec.fault = false → 64 < gapWidth + patchWidth →
      RaisesOnly 1 (.pb deltaWidth length baseWidth patchWidth gapWidth listLength) s ∧
      (isTableWidth patchWidth = true → gapWidth ≤ 8 → patchWidth = 64)

/-- A patch outside the run, or a patch list that ends in a chaining entry, raises
`MalformedHeader` (rules R209, R210). -/
def Obligations.PatchedBaseListCheck : Prop :=
  ∀ (s : State) (deltaWidth length baseWidth patchWidth gapWidth listLength : Nat)
    (base : Word) (deltas entries : List Word) (cur : Cursor),
    s.dec.fault = false → s.dec.cur.bitsLeft ≤ 8 →
    PatchedBaseBody s.cfg s.input s.dec.cur deltaWidth length baseWidth patchWidth gapWidth
      listLength base deltas entries cur →
    ¬ PatchesLegal s.cfg.gapSentinel patchWidth gapWidth entries length →
      RaisesOnly 1 (.pb deltaWidth length baseWidth patchWidth gapWidth listLength) s

/-- A Delta run whose body is in the stream (rules R221 to R225): the first value is the base, the
second adds `firstDelta`, each later one adds `firstDelta` again (width 0) or the next magnitude
with the sign of `firstDelta`. Nothing else changes. -/
def Obligations.DeltaCompletes : Prop :=
  ∀ (s : State) (deltaWidth length : Nat) (baseBytes firstBytes magBytes : List Byte)
    (base fd : Word) (mags : List Word) (cur : Cursor),
    Memory.wf s.input = true → s.dec.fault = false → s.dec.cur.bitsLeft ≤ 8 →
    (deltaWidth = 0 ∨ (isTableWidth deltaWidth = true ∧ deltaWidth ≠ 1)) →
    1 ≤ length → length ≤ 512 →
    IsVarint baseBytes → IsVarint firstBytes →
    Holds s.input s.dec.cur.spos (baseBytes ++ firstBytes ++ magBytes) →
    cur = s.dec.cur.advance (baseBytes.length + firstBytes.length) →
    magBytes.length =
      fetchCount cur.bitsLeft (if deltaWidth = 0 then 0 else length - 2) deltaWidth →
    base = (if s.cfg.deltaBase = .byStream ∧ s.cfg.signed = false
      then BitVec.ofNat 64 (varintNat baseBytes)
      else zigzagDecode (BitVec.ofNat 64 (varintNat baseBytes))) →
    fd = zigzagDecode (BitVec.ofNat 64 (varintNat firstBytes)) →
    mags = fieldsOf (pendingBits cur ++ bitsOf magBytes)
      (if deltaWidth = 0 then 0 else length - 2) deltaWidth →
      ∃ vals tail : List Word,
        vals.length = length ∧ tail.length = 512 - length ∧ vals.getD 0 0 = base ∧
        (∀ k, k + 1 < length →
          vals.getD (k + 1) 0 = vals.getD k 0 +
            (if k = 0 ∨ deltaWidth = 0 then fd
             else if fd.toInt < 0 then -(mags.getD (k - 1) 0) else mags.getD (k - 1) 0)) ∧
        exec (.delta deltaWidth length) s = .next { s with
          dec := { s.dec with
            cur := cursorAfter cur magBytes (if deltaWidth = 0 then 0 else length - 2) deltaWidth
            w := deltaWidth, base := base, fd := fd
            deltaScratch := mags ++ s.dec.deltaScratch.drop mags.length
            runBuffer := vals ++ tail
            runSubenc := 3, runLength := length, runConsumed := 0, dstate := .inRun
            freeCount := s.dec.freeCount + 1 } }

/-- Constant stride (rule R224): with width 0 value `k` is `base + k * firstDelta` modulo 2^64. -/
def Obligations.ConstantStride : Prop :=
  ∀ (s : State) (length : Nat) (baseBytes firstBytes : List Byte) (base fd : Word),
    Memory.wf s.input = true → s.dec.fault = false → 1 ≤ length → length ≤ 512 →
    IsVarint baseBytes → IsVarint firstBytes →
    Holds s.input s.dec.cur.spos (baseBytes ++ firstBytes) →
    base = (if s.cfg.deltaBase = .byStream ∧ s.cfg.signed = false
      then BitVec.ofNat 64 (varintNat baseBytes)
      else zigzagDecode (BitVec.ofNat 64 (varintNat baseBytes))) →
    fd = zigzagDecode (BitVec.ofNat 64 (varintNat firstBytes)) →
      ∃ t, exec (.delta 0 length) s = .next t ∧ t.dec.fault = false ∧
        t.dec.runLength = length ∧
        ∀ k, k < length → t.dec.runBuffer[k]? = some (base + BitVec.ofNat 64 k * fd)

/-- A run that is cut short raises `TruncatedStream` (rules R182, R192, R201, R221, R272), wherever
the data ends: in the big-endian value of Short Repeat; in the payload of Direct; in the base, the
deltas or the patch list of Patched Base, whatever the patches already read say (the order of rule
R211: all body bytes before the walk; the header check of `PatchedBaseWidthCheck` before them); in
the base, in `firstDelta` or in the magnitudes of Delta; and in a header, when a command needs a
value from it. -/
def Obligations.CutShortRunsAreTruncated : Prop :=
  ∀ s : State, Memory.wf s.input = true → s.dec.fault = false → s.dec.cur.bitsLeft ≤ 8 →
    s.dec.cur.spos ≤ Memory.size s.input →
    (∀ byteWidth repeatCount, Memory.size s.input < s.dec.cur.spos + byteWidth →
      RaisesOnly 2 (.sr byteWidth repeatCount) s) ∧
    (∀ bitWidth length,
      Memory.size s.input < s.dec.cur.spos + fetchCount s.dec.cur.bitsLeft length bitWidth →
      RaisesOnly 2 (.direct bitWidth length) s) ∧
    (∀ deltaWidth length baseWidth patchWidth gapWidth listLength, gapWidth + patchWidth ≤ 64 →
      Memory.size s.input < s.dec.cur.spos + patchedBaseBytes s.cfg s.dec.cur.bitsLeft deltaWidth
        length baseWidth patchWidth gapWidth listLength →
      RaisesOnly 2 (.pb deltaWidth length baseWidth patchWidth gapWidth listLength) s) ∧
    (∀ deltaWidth length,
      NoVarintFrom s.input s.dec.cur.spos → RaisesOnly 2 (.delta deltaWidth length) s) ∧
    (∀ deltaWidth length baseBytes, IsVarint baseBytes → Holds s.input s.dec.cur.spos baseBytes →
      NoVarintFrom s.input (s.dec.cur.spos + baseBytes.length) →
      RaisesOnly 2 (.delta deltaWidth length) s) ∧
    (∀ deltaWidth length baseBytes firstBytes, IsVarint baseBytes → IsVarint firstBytes →
      Holds s.input s.dec.cur.spos (baseBytes ++ firstBytes) →
      Memory.size s.input < s.dec.cur.spos + baseBytes.length + firstBytes.length +
        fetchCount s.dec.cur.bitsLeft (if deltaWidth = 0 then 0 else length - 2) deltaWidth →
      RaisesOnly 2 (.delta deltaWidth length) s) ∧
    (∀ (h0 : Byte) (n : BitVec 32), s.dec.dstate = .awaitingHeader →
      Memory.read? s.input s.dec.cur.spos = some h0 →
      Memory.size s.input < s.dec.cur.spos + headerLength (tagOf h0) → 0 < n.toNat →
      RaisesOnly 2 (.skip n) s ∧
        (n.toNat ≤ s.out.length →
          ∃ t, exec (.next n false) s = .next t ∧ DecoderRaised 2 t ∧ OnlyDecoderMoves s t))

/-- The frame of the four run forms: whatever a run ends in, only the decoder half moves and no
output slot is written; the response changes only when the run raises an error (rules R29, R50,
R55, R277). -/
def Obligations.RunFrame : Prop :=
  ∀ (r : Run) (s t : State), exec r.toInstr s = .next t →
    OnlyDecoderMoves s t ∧ t.out = s.out ∧ (t.dec.fault = false → t.response = s.response)

/-- `MalformedHeader` comes from a Patched Base run only (rule R271): no other form raises it. -/
def Obligations.MalformedOnlyFromPatchedBase : Prop :=
  ∀ (r : Run) (s t : State), exec r.toInstr s = .next t → s.dec.fault = false →
    t.dec.fault = true → t.dec.err = 1 → ∃ a b c d e f, r = .pb a b c d e f

/-- The values of a Patched Base run do not depend on `CFG.SIGNED`, nor do those of a Delta run
under the default base spelling (rules R201, R221, R295): the same run gives the same values,
position and response. -/
def Obligations.SignednessDoesNotReachPatchedBaseOrDelta : Prop :=
  ∀ (s : State) (signed : Bool),
    (∀ a b c d e f, ∃ t u, exec (.pb a b c d e f) s = .next t ∧
      exec (.pb a b c d e f) { s with cfg := { s.cfg with signed := signed } } = .next u ∧
      t.dec.Agrees u.dec ∧ t.response = u.response) ∧
    (s.cfg.deltaBase = .signed → ∀ a b, ∃ t u, exec (.delta a b) s = .next t ∧
      exec (.delta a b) { s with cfg := { s.cfg with signed := signed } } = .next u ∧
      t.dec.Agrees u.dec ∧ t.response = u.response)

/-! ### Decoder commands (`41_run_dispatcher.md`, `46_seek_skip.md`) -/

/-- `NEXT` without a mask inside the run in progress (rules R164, R165): the next values of the run
fill the slots, the position moves on, the last value of the run ends it. Nothing else changes. -/
def Obligations.NextInsideARun : Prop :=
  ∀ (s : State) (n : BitVec 32),
    s.dec.fault = false → s.dec.dstate = .inRun → s.dec.runConsumed < s.dec.runLength →
    s.dec.runConsumed + n.toNat ≤ s.dec.runLength → s.dec.runLength ≤ s.dec.runBuffer.length →
    n.toNat ≤ s.out.length →
      exec (.next n false) s = .next { s with
        dec := { s.dec with
          runConsumed := s.dec.runConsumed + n.toNat
          dstate :=
            if s.dec.runConsumed + n.toNat = s.dec.runLength then .awaitingHeader else .inRun }
        out := (s.dec.runBuffer.drop s.dec.runConsumed).take n.toNat ++ s.out.drop n.toNat
        response := { status := 0, total := none } }

/-- `NEXT` when no run is in progress (rules R162, R164, R165): with a run at the stream position it
does what it does once that run is in the run buffer, so a `NEXT` may span any number of runs. Where
a later run raises an error, the same error is latched and answered (the slots are then unspecified,
rule R278). -/
def Obligations.NextFetchesARun : Prop :=
  ∀ (s t : State) (n : BitVec 32) (d : Decoder),
    s.dec.fault = false → s.dec.dstate = .awaitingHeader → 0 < n.toNat →
    n.toNat ≤ s.out.length → fetchRun s.cfg s.input s.dec = .ok d →
    exec (.next n false) { s with dec := d } = .next t →
      ∃ v, exec (.next n false) s = .next v ∧ v.dec.Agrees t.dec ∧ v.response = t.response ∧
        (t.dec.fault = false → v.out = t.out) ∧ OnlyDecoderMoves s v

/-- The presence mask (rule R166). Under `P_MASK_CONSUMES` a masked `NEXT` leaves the decoder and
the status of the unmasked one, and writes only the present slots. Otherwise it leaves those of an
unmasked `NEXT` over as many slots as are present, whose values go to the present slots in order. -/
def Obligations.PresenceMask : Prop :=
  ∀ (s : State) (n : BitVec 32),
    s.dec.fault = false → n.toNat ≤ s.out.length → n.toNat ≤ s.mask.length →
    (s.cfg.maskConsumes = true →
      ∃ t u, exec (.next n true) s = .next t ∧ exec (.next n false) s = .next u ∧
        t.dec.Agrees u.dec ∧ t.response = u.response ∧
        (t.response.status = 0 → ∀ i, i < n.toNat →
          t.out[i]? = if s.mask.getD i true then u.out[i]? else s.out[i]?)) ∧
    (s.cfg.maskConsumes = false →
      ∃ t u, exec (.next n true) s = .next t ∧
        exec (.next (BitVec.ofNat 32 ((s.mask.take n.toNat).count true)) false) s = .next u ∧
        t.dec.Agrees u.dec ∧ t.response = u.response ∧
        (t.response.status = 0 → ∀ i, i < n.toNat →
          t.out[i]? =
            if s.mask.getD i true then u.out[(s.mask.take i).count true]? else s.out[i]?))

/-- The frame of the decoder commands (rules R57, R167, R236, R277): only the decoder half and the
response move; `NEXT` writes none but its own slots, `SKIP` and `SEEK` write no slot. -/
def Obligations.DecoderCommandFrame : Prop :=
  ∀ s t : State,
    (∀ (n : BitVec 32) (masked : Bool), exec (.next n masked) s = .next t →
      OnlyDecoderMoves s t ∧ t.out.length = s.out.length ∧
      (∀ i : Nat, n.toNat ≤ i → t.out[i]? = s.out[i]?) ∧
      (masked = true → t.dec.fault = false → ∀ i : Nat, s.mask[i]? = some false →
        t.out[i]? = s.out[i]?)) ∧
    (∀ k, exec (.skip k) s = .next t → OnlyDecoderMoves s t ∧ t.out = s.out) ∧
    (∀ p0 p1 p2 p3, exec (.seek p0 p1 p2 p3) s = .next t → OnlyDecoderMoves s t ∧ t.out = s.out)

/-- A value requested at the end of the data, when no run is in progress, raises
`TruncatedStream`, from `NEXT` and from `SKIP` (rules R169, R302). -/
def Obligations.NoValueAfterTheEnd : Prop :=
  ∀ (s : State) (n : BitVec 32),
    Memory.wf s.input = true → s.dec.fault = false → s.dec.dstate = .awaitingHeader →
    s.dec.cur.spos = Memory.size s.input → 0 < n.toNat →
      (n.toNat ≤ s.out.length →
        ∃ t, exec (.next n false) s = .next t ∧ DecoderRaised 2 t ∧ OnlyDecoderMoves s t) ∧
      RaisesOnly 2 (.skip n) s

/-- `SKIP` is `NEXT` without a mask and without writes, and skipping `k` then reading `m` values
delivers what reading `k + m` values delivers after its first `k` (rule R237). -/
def Obligations.SkipIsNextWithoutWrites : Prop :=
  (∀ (s : State) (k : BitVec 32), k.toNat ≤ s.out.length →
    ∃ t u, exec (.skip k) s = .next t ∧ exec (.next k false) s = .next u ∧
      t.dec.Agrees u.dec ∧ t.response = u.response ∧ t.out = s.out) ∧
  ∀ (s t : State) (k m : BitVec 32),
    k.toNat + m.toNat < 2 ^ 32 → k.toNat + m.toNat ≤ s.out.length →
    exec (.next (k + m) false) s = .next t → t.response.status = 0 →
      ∃ u v, exec (.skip k) s = .next u ∧
        exec (.next m false) { u with out := s.out.drop k.toNat } = .next v ∧
        v.dec.Agrees t.dec ∧ v.response.status = 0 ∧
        ∀ i, i < m.toNat → v.out[i]? = t.out[k.toNat + i]?

/-- `SKIP` inside the run in progress (rule R236): the position moves on, no slot is written, the
last value of the run ends it. Nothing else changes. -/
def Obligations.SkipInsideARun : Prop :=
  ∀ (s : State) (k : BitVec 32),
    s.dec.fault = false → s.dec.dstate = .inRun → s.dec.runConsumed < s.dec.runLength →
    s.dec.runConsumed + k.toNat ≤ s.dec.runLength →
      exec (.skip k) s = .next { s with
        dec := { s.dec with
          runConsumed := s.dec.runConsumed + k.toNat
          dstate :=
            if s.dec.runConsumed + k.toNat = s.dec.runLength then .awaitingHeader else .inRun }
        response := { status := 0, total := none } }

/-- `SEEK` to a located position with nothing to skip (rule R240): the stream position is there, the
bit cursor is clear, the run in progress is dropped, nothing is read. Nothing else changes. -/
def Obligations.SeekCompletes : Prop :=
  ∀ (s : State) (p0 p1 p2 : Word) (pos : Nat),
    s.dec.fault = false → streamLocate s.cfg.locate p0 p1 = some pos →
    pos ≤ Memory.size s.input →
      exec (.seek p0 p1 p2 0) s = .next { s with
        dec := { s.dec with
          cur := { spos := pos, bitsLeft := 0, curByte := 0 }, dstate := .awaitingHeader }
        response := { status := 0, total := none } }

/-- The value count of a token is skipped inside the `SEEK` (rules R240, R242): after repositioning
it does what `SKIP` does, faults included. -/
def Obligations.SeekSkipsTheCount : Prop :=
  ∀ (s t : State) (p0 p1 p2 p3 : Word),
    s.dec.fault = false → p3.toNat < 2 ^ 32 → exec (.seek p0 p1 p2 0) s = .next t →
    t.response.status = 0 →
      ∃ u v, exec (.seek p0 p1 p2 p3) s = .next u ∧ exec (.skip (p3.setWidth 32)) t = .next v ∧
        u.dec.Agrees v.dec ∧ u.response = v.response ∧ u.out = v.out ∧ OnlyDecoderMoves s u

/-- `SeekOutOfRange` is raised when the token is not located or lies beyond the end of the input,
and by nothing else (rule R274). -/
def Obligations.SeekOutOfRange : Prop :=
  (∀ (s : State) (p0 p1 p2 p3 : Word), s.dec.fault = false →
    (∀ pos, streamLocate s.cfg.locate p0 p1 = some pos → Memory.size s.input < pos) →
      RaisesOnly 4 (.seek p0 p1 p2 p3) s) ∧
  ∀ (i : Instr) (s t : State), exec i s = .next t → s.dec.fault = false →
    t.dec.fault = true → t.dec.err = 4 →
      ∃ p0 p1 p2 p3, i = .seek p0 p1 p2 p3 ∧
        ∀ pos, streamLocate s.cfg.locate p0 p1 = some pos → Memory.size s.input < pos

/-- The third integer of a token has no effect (rule R243). -/
def Obligations.SeekIgnoresTheBitCount : Prop :=
  ∀ (s : State) (p0 p1 p2 p2' p3 : Word),
    exec (.seek p0 p1 p2 p3) s = exec (.seek p0 p1 p2' p3) s

/-! ### Errors (`60_exceptions.md`) -/

/-- A decoder command in the decoder's fault state does nothing and returns the latched code (rule
R170). -/
def Obligations.DecoderFaultSticks : Prop :=
  ∀ s : State, s.dec.fault = true →
    (∀ n masked, exec (.next n masked) s =
      .next { s with response := { status := s.dec.err, total := none } }) ∧
    (∀ k, exec (.skip k) s = .next { s with response := { status := s.dec.err, total := none } }) ∧
    (∀ p0 p1 p2 p3, exec (.seek p0 p1 p2 p3) s =
      .next { s with response := { status := s.dec.err, total := none } })

/-- An encoder command in the encoder's fault state does nothing and returns the latched code (rule
R259). -/
def Obligations.EncoderFaultSticks : Prop :=
  ∀ s : State, s.enc.fault = true →
    (∀ count masked, exec (.add count masked) s =
      .next { s with response := { status := s.enc.err, total := none } }) ∧
    exec .flush s = .next { s with response := { status := s.enc.err, total := none } }

/-- Fault entry (rules R270, R276, R277, R278): an instruction after which a ready decoder half is
faulted has latched one of the codes 1, 2, 4, answers with it, and has moved nothing but the decoder
half, the response and, for `NEXT`, its slots `0 … N-1`. No other register saves anything. -/
def Obligations.DecoderFaultEntry : Prop :=
  ∀ (i : Instr) (s t : State), exec i s = .next t → s.dec.fault = false → t.dec.fault = true →
    (t.dec.err = 1 ∨ t.dec.err = 2 ∨ t.dec.err = 4) ∧ DecoderRaised t.dec.err t ∧
      OnlyDecoderMoves s t ∧ ((∀ n masked, i ≠ .next n masked) → t.out = s.out) ∧
      ∀ n masked, i = .next n masked → t.out.length = s.out.length ∧
        ∀ j : Nat, n.toNat ≤ j → t.out[j]? = s.out[j]?

/-- `InvalidWidthCode` is never raised: code 3 appears in no register and no response that did not
hold it before (rule R273). -/
def Obligations.InvalidWidthCodeNeverAppears : Prop :=
  ∀ (i : Instr) (s t : State), exec i s = .next t → s.dec.err ≠ 3 → s.enc.err ≠ 3 →
    s.response.status ≠ 3 → t.dec.err ≠ 3 ∧ t.enc.err ≠ 3 ∧ t.response.status ≠ 3

/-- The only way out of a fault state is `RESET` (rule R280): every other instruction leaves a
faulted half as it was; `RESET` clears the decoder's fault. -/
def Obligations.OnlyResetLeavesAFault : Prop :=
  (∀ (i : Instr) (s t : State), exec i s = .next t → (∀ signed, i ≠ .reset signed) →
    (s.dec.fault = true → t.dec = s.dec) ∧ (s.enc.fault = true → t.enc = s.enc)) ∧
  ∀ (s : State) (signed : Bool), ∃ t, exec (.reset signed) s = .next t ∧ t.dec.fault = false ∧
    t.dec.err = 0 ∧ t.dec.cur.spos = 0 ∧ (s.cfg.sinkCapacity ≠ 0 → t.enc.fault = false)

/-! ### Reset (`70_reset_and_hazards.md`) -/

/-- `RESET` with a sink of some capacity (rules R40, R290): every register the rule lists takes the
value it gives, `OUT` is empty, `IN` is what the environment presents, status 0. The environment's
buffers keep their content. -/
def Obligations.ResetRestarts : Prop :=
  ∀ (s : State) (signed : Bool), s.cfg.sinkCapacity ≠ 0 →
    ∃ t, exec (.reset signed) s = .next t ∧
      t.cfg = { s.cfg with signed := signed } ∧
      t.dec.cur = { spos := 0, bitsLeft := 0, curByte := 0 } ∧ t.dec.dstate = .awaitingHeader ∧
      t.dec.fault = false ∧ t.dec.err = 0 ∧
      t.enc.litCount = 0 ∧ t.enc.port.wbitsLeft = 8 ∧ t.enc.port.wcurByte = 0 ∧
      t.enc.port.bytesWritten = 0 ∧ t.enc.port.out = [] ∧
      t.enc.fault = false ∧ t.enc.err = 0 ∧
      t.response = { status := 0, total := none } ∧ t.input = s.presented ∧
      t.out = s.out ∧ t.mask = s.mask ∧ t.values = s.values ∧ t.presented = s.presented ∧
      t.pending = s.pending

/-- `RESET` with a sink of capacity zero (rule R258): status 5 and the encoder half in its fault
state; the decoder half as after any `RESET`. Any two non-zero capacities behave alike: every
instruction has the same outcome, the capacity itself apart. -/
def Obligations.ResetWithoutASink : Prop :=
  (∀ (s : State) (signed : Bool), s.cfg.sinkCapacity = 0 →
    ∃ t, exec (.reset signed) s = .next t ∧
      t.enc.fault = true ∧ t.enc.err = 5 ∧ t.response = { status := 5, total := none } ∧
      t.dec.cur = { spos := 0, bitsLeft := 0, curByte := 0 } ∧ t.dec.dstate = .awaitingHeader ∧
      t.dec.fault = false ∧ t.dec.err = 0) ∧
  ∀ (s : State) (i : Instr) (capacity capacity' : Nat), capacity ≠ 0 → capacity' ≠ 0 →
    (∀ t, exec i { s with cfg := { s.cfg with sinkCapacity := capacity } } = .next t →
      ∃ u, exec i { s with cfg := { s.cfg with sinkCapacity := capacity' } } = .next u ∧
        t.dec.Agrees u.dec ∧ t.enc.Agrees u.enc ∧ t.response = u.response ∧
        (t.dec.fault = false → t.out = u.out) ∧
        u.cfg = { t.cfg with sinkCapacity := capacity' } ∧ t.input = u.input ∧ t.mask = u.mask ∧
        t.values = u.values ∧ t.presented = u.presented ∧ t.sinkFlushes = u.sinkFlushes ∧
        t.pending = u.pending) ∧
    ∀ r, exec i { s with cfg := { s.cfg with sinkCapacity := capacity } } = .refused r →
      exec i { s with cfg := { s.cfg with sinkCapacity := capacity' } } = .refused r

/-- Nothing changes the parameters, and nothing but `RESET` changes `CFG.SIGNED` (rules R21, R22,
R291). -/
def Obligations.ParametersAreFixed : Prop :=
  ∀ (i : Instr) (s t : State), exec i s = .next t →
    { t.cfg with signed := s.cfg.signed } = s.cfg ∧
    ((∀ signed, i ≠ .reset signed) → t.cfg = s.cfg)

/-! ### Encoder commands (`47_encoder_control.md`) -/

/-- `ADD` without a mask that leaves room in the window (rule R251): the values stand behind the
buffered literals, `OUT` and everything else are unchanged. -/
def Obligations.AddBuffers : Prop :=
  ∀ (s : State) (count : BitVec 32),
    s.enc.fault = false → count.toNat ≤ s.values.length → s.enc.litBuf.length = 512 →
    s.enc.litCount + count.toNat < 512 →
      exec (.add count false) s = .next { s with
        enc := { s.enc with
          litBuf := s.enc.litBuf.take s.enc.litCount ++ s.values.take count.toNat ++
            s.enc.litBuf.drop (s.enc.litCount + count.toNat)
          litCount := s.enc.litCount + count.toNat }
        response := { status := 0, total := none } }

/-- `ADD` without a mask that reaches the end of the window once (rules R251, R254): the 512
literals are emitted, old ones first, and the values past the 512th literal stand at the front of
the emptied window. Every byte already in `OUT` stays; the stored bytes are those that
`emitLiterals` appends at the end of `OUT`. `AddInAnySplit` reduces longer `ADD`s to this one and to
`AddBuffers`. -/
def Obligations.AddEmitsAFullWindow : Prop :=
  ∀ (s : State) (count : BitVec 32) (rest : Nat),
    s.enc.fault = false → count.toNat ≤ s.values.length → s.enc.litBuf.length = 512 →
    s.enc.litCount < 512 → s.enc.litCount + count.toNat = 512 + rest → rest < 512 →
      ∃ buf : List Word, buf.length = 512 - rest ∧
        exec (.add count false) s = .next { s with
          enc := { s.enc with
            litBuf := (s.values.take count.toNat).drop (512 - s.enc.litCount) ++ buf
            litCount := rest
            port := emitLiterals s.cfg.signed 512
              (s.enc.litBuf.take s.enc.litCount ++ s.values.take (512 - s.enc.litCount))
                s.enc.port
            freeCount := s.enc.freeCount + 1 }
          response := { status := 0, total := none } } ∧
        ∀ a b, Memory.read? s.enc.port.out a = some b →
          Memory.read? (emitLiterals s.cfg.signed 512
            (s.enc.litBuf.take s.enc.litCount ++ s.values.take (512 - s.enc.litCount))
              s.enc.port).out a = some b

/-- `ADD` in any split (rules R251, R257): adding some values and then others leaves what adding
them all at once leaves, with and without a mask, wherever the window fills on the way. -/
def Obligations.AddInAnySplit : Prop :=
  ∀ (s : State) (masked : Bool) (xs ys : List Word) (ms ns : List Bool),
    xs.length + ys.length < 2 ^ 32 →
    (masked = true → ms.length = xs.length ∧ ns.length = ys.length) →
      ∃ t u v,
        exec (.add (BitVec.ofNat 32 xs.length) masked) { s with values := xs, mask := ms } =
          .next t ∧
        exec (.add (BitVec.ofNat 32 ys.length) masked) { t with values := ys, mask := ns } =
          .next u ∧
        exec (.add (BitVec.ofNat 32 (xs.length + ys.length)) masked)
          { s with values := xs ++ ys, mask := ms ++ ns } = .next v ∧
        u.enc.Agrees v.enc ∧ u = { v with enc := u.enc, values := ys, mask := ns }

/-- The presence mask of `ADD` (rule R252): under `P_MASK_CONSUMES` a false slot is the filler 0,
and its value is not read; otherwise it is dropped. -/
def Obligations.AddMask : Prop :=
  ∀ (s : State) (count : BitVec 32) (lits : List Word),
    count.toNat ≤ s.values.length → count.toNat ≤ s.mask.length →
    lits = (if s.cfg.maskConsumes
      then (List.range count.toNat).map
        (fun i => if s.mask.getD i true then s.values.getD i 0 else 0)
      else ((List.range count.toNat).filter fun i => s.mask.getD i true).map
        (fun i => s.values.getD i 0)) →
      ∃ t u, exec (.add count true) s = .next t ∧
        exec (.add (BitVec.ofNat 32 lits.length) false) { s with values := lits } = .next u ∧
        t.enc.Agrees u.enc ∧ t.response = u.response ∧ t.values = s.values ∧ t.mask = s.mask ∧
        t.dec = s.dec ∧ t.cfg = s.cfg ∧ t.out = s.out ∧ t.input = s.input

/-- `FLUSH` (rules R55, R254, R256): the buffered literals are emitted in order and their bytes
appended to `OUT`, no byte of it changes, the window is empty, the write cursor is clean, the total
counts every byte since `RESET`, and the sink is flushed once. With nothing buffered the encoder
half is unchanged. -/
def Obligations.FlushCompletes : Prop :=
  ∀ s : State, s.enc.fault = false → s.enc.port.Counted → s.enc.port.wbitsLeft = 8 →
    s.enc.port.wcurByte = 0 →
      ∃ (bytes : List Byte) (buf : List Word) (enc : Encoder),
        exec .flush s = .next { s with
          enc := enc
          sinkFlushes := s.sinkFlushes + 1
          response := { status := 0, total := some enc.port.bytesWritten } } ∧
        buf.length = 512 ∧
        enc = (if s.enc.litCount = 0 then s.enc else
          { s.enc with
            litBuf := buf
            litCount := 0
            port := emitLiterals s.cfg.signed s.enc.litCount
              (s.enc.litBuf.take s.enc.litCount) s.enc.port
            freeCount := s.enc.freeCount + 1 }) ∧
        Memory.bytes enc.port.out = Memory.bytes s.enc.port.out ++ bytes ∧
        (∀ a, a < Memory.size s.enc.port.out →
          Memory.read? enc.port.out a = Memory.read? s.enc.port.out a) ∧
        enc.port.bytesWritten = s.enc.port.bytesWritten + BitVec.ofNat 64 bytes.length ∧
        enc.port.wbitsLeft = 8 ∧ enc.port.wcurByte = 0

/-- A window of three to ten equal literals is flushed as exactly one Short Repeat run in the fewest
bytes that hold the stored value (rules R186, R187, R254). -/
def Obligations.EqualLiteralsMakeOneShortRepeat : Prop :=
  ∀ (s : State) (v z : Word),
    s.enc.fault = false → 3 ≤ s.enc.litCount → s.enc.litCount ≤ 10 →
    s.enc.litBuf.take s.enc.litCount = List.replicate s.enc.litCount v →
    z = (if s.cfg.signed then zigzagEncode v else v) →
      ∃ (w : Nat) (bytes : List Byte) (t : State), exec .flush s = .next t ∧
        1 ≤ w ∧ w ≤ 8 ∧ z.toNat < 2 ^ (8 * w) ∧ (w = 1 ∨ 2 ^ (8 * (w - 1)) ≤ z.toNat) ∧
        bytes.length = w ∧ bytesToNat bytes = z.toNat ∧
        Memory.bytes t.enc.port.out = Memory.bytes s.enc.port.out ++
          BitVec.ofNat 8 (8 * (w - 1) + (s.enc.litCount - 3)) :: bytes

/-- The run fetch inverts the Short Repeat writer (rule R186): over the bytes appended it delivers
the copies and ends right after them. -/
def Obligations.ShortRepeatRoundTrip : Prop :=
  ∀ (cfg : Settings) (v : Word) (n : Nat) (p : WritePort) (d : Decoder),
    3 ≤ n → n ≤ 10 → p.Counted → d.cur.spos = Memory.size p.out →
      ∃ d', fetchRun cfg (emitShortRepeat cfg.signed v n p).out d = .ok d' ∧
        d'.dstate = .inRun ∧ d'.runLength = n ∧ d'.runConsumed = 0 ∧
        d'.runBuffer.take n = List.replicate n v ∧
        d'.cur.spos = Memory.size (emitShortRepeat cfg.signed v n p).out

/-- The run fetch inverts the Direct writer (rule R196): over the bytes appended it delivers the
values and ends right after them. -/
def Obligations.DirectRoundTrip : Prop :=
  ∀ (cfg : Settings) (vals : List Word) (p : WritePort) (d : Decoder),
    1 ≤ vals.length → vals.length ≤ 512 → p.Counted → p.wbitsLeft = 8 → p.wcurByte = 0 →
    d.cur.spos = Memory.size p.out →
      ∃ d', fetchRun cfg (emitDirect cfg.signed vals p).out d = .ok d' ∧
        d'.dstate = .inRun ∧ d'.runLength = vals.length ∧ d'.runConsumed = 0 ∧
        d'.runBuffer.take vals.length = vals ∧
        d'.cur.spos = Memory.size (emitDirect cfg.signed vals p).out

/-- Round trip (rule R257): after a `RESET`, adding any values and flushing leaves bytes that a
decoder with the same signedness decodes to exactly those values, consuming all of them. -/
def Obligations.RoundTrip : Prop :=
  ∀ (s r : State) (signed : Bool) (values : List Word),
    s.cfg.sinkCapacity ≠ 0 → values.length < 2 ^ 32 → exec (.reset signed) s = .next r →
      ∃ t u, exec (.add (BitVec.ofNat 32 values.length) false) { r with values := values } =
          .next t ∧ exec .flush t = .next u ∧
        ∀ s' r' : State, s'.presented = u.enc.port.out → s'.out.length = values.length →
          exec (.reset signed) s' = .next r' →
            ∃ v, exec (.next (BitVec.ofNat 32 values.length) false) r' = .next v ∧
              v.response.status = 0 ∧ v.out = values ∧
              v.dec.cur.spos = Memory.size u.enc.port.out ∧ v.dec.dstate = .awaitingHeader

/-! ### The whole machine -/

/-- A step runs the decoded command: the oldest pending request leaves the queue, its buffers stand
where the engine reaches them, and the step is the meaning of the command (rule R101, decision
D1). -/
def Obligations.StepRunsTheCommand : Prop :=
  ∀ (s : State) (r : Request) (rest : List Request) (i : Instr),
    s.pending = r :: rest → decode (.port r.command) = .ok i →
      step s = exec i { s with
        pending := rest, out := r.out, mask := r.mask, values := r.values
        presented := Memory.ofBytes r.input }

/-- A step runs the decoded run: when no run is in progress and the header at the stream position
decodes to a run, a step that needs one position runs that run's meaning at the byte after its
header with a clear bit cursor, and then consumes its first position (rules R162, R165, R236). -/
def Obligations.StepRunsTheRun : Prop :=
  ∀ (s t : State) (q : Request) (rest : List Request) (r : Run) (header : List Byte),
    s.dec.fault = false → s.dec.dstate = .awaitingHeader → s.pending = q :: rest →
    decode (.port q.command) = .ok (.skip 1) →
    decodeHeader header = .ok (r, []) → Holds s.input s.dec.cur.spos header →
    exec r.toInstr { s.issue q rest with
        dec := { s.dec with
          cur := { spos := s.dec.cur.spos + header.length, bitsLeft := 0, curByte := 0 } } } =
      .next t →
      (t.dec.fault = true → step s = .next t) ∧
      (t.dec.fault = false → step s = .next { t with
        dec := { t.dec with
          runConsumed := t.dec.runConsumed + 1
          dstate := if t.dec.runConsumed + 1 = t.dec.runLength then .awaitingHeader else .inRun }
        response := { status := 0, total := none } })

/-- With nothing pending the engine is idle and holds all its state (rule R287). -/
def Obligations.IdleStepHoldsState : Prop :=
  ∀ s : State, s.pending = [] → step s = .next s

/-- The state after reset satisfies the invariant. -/
def Obligations.ResetSatisfiesTheInvariant : Prop := Inv State.reset

/-- Every step keeps the invariant: every register in its range (rules R23 to R36), `IN` and `OUT`
in canonical form, `OUT` counted by `E.BYTESWRITTEN`, no partial byte pending, a run in progress
never exhausted, and the error codes those of the fault bits. -/
def Obligations.StepKeepsTheInvariant : Prop :=
  ∀ s t : State, Inv s → step s = .next t → Inv t

/-- The halves share no mutable state (rule R20): no run and no decoder command touches the encoder
half, no encoder command the decoder half; and what a decoder instruction does to the decoder half,
the slots and the response does not depend on the encoder half, nor the other way round. -/
def Obligations.HalvesShareNothing : Prop :=
  (∀ (i : Instr) (s t : State) (enc : Encoder), exec i s = .next t →
    (∀ signed, i ≠ .reset signed) → (∀ count masked, i ≠ .add count masked) → i ≠ .flush →
      t.enc = s.enc ∧ ∃ u, exec i { s with enc := enc } = .next u ∧ u.enc = enc ∧
        t.dec.Agrees u.dec ∧ t.response = u.response ∧ (t.dec.fault = false → t.out = u.out)) ∧
  ∀ (i : Instr) (s t : State) (dec : Decoder), exec i s = .next t →
    ((∃ count masked, i = .add count masked) ∨ i = .flush) →
      t.dec = s.dec ∧ ∃ u, exec i { s with dec := dec } = .next u ∧ u.dec = dec ∧
        t.enc.Agrees u.enc ∧ t.response = u.response

/-- Between resets `IN` is never written and `OUT` only grows: a byte once appended stays where it
is (rules R50, R55). -/
def Obligations.StreamsAreStable : Prop :=
  ∀ (i : Instr) (s t : State), exec i s = .next t → (∀ signed, i ≠ .reset signed) →
    (∀ a, Memory.read? t.input a = Memory.read? s.input a) ∧
    (∃ bytes, Memory.bytes t.enc.port.out = Memory.bytes s.enc.port.out ++ bytes) ∧
    ∀ a b, Memory.read? s.enc.port.out a = some b → Memory.read? t.enc.port.out a = some b
end

