-- ==== Sys2Proof/Laws/Memory.lean ====
section
/-! SUPPORT. The laws of byte sequences: reading after appending, the canonical form and who keeps
it, and sequences as byte lists. -/

namespace Sys2Proof.Laws

open Sys2Proof.Machine

@[simp] theorem memory_size_append (m : Memory) (b : Byte) :
    Memory.size (Memory.append m b) = Memory.size m + 1 := by
  simp [Memory.size, Memory.append]

@[simp] theorem memory_bytes_append (m : Memory) (b : Byte) :
    Memory.bytes (Memory.append m b) = Memory.bytes m ++ [b] := by
  simp [Memory.bytes, Memory.append]

@[simp] theorem memory_bytes_nil : Memory.bytes [] = [] := rfl

@[simp] theorem memory_bytes_length (m : Memory) : (Memory.bytes m).length = Memory.size m := by
  simp [Memory.bytes, Memory.size]

theorem memory_wf_iff (m : Memory) :
    Memory.wf m = true ↔ m.map (fun cell => cell.1) = List.range m.length := by
  simp [Memory.wf]

/-- The empty sequence is in canonical form. -/
@[simp] theorem memory_wf_nil : Memory.wf [] = true := rfl

/-- Appending keeps the canonical form. -/
theorem memory_wf_append {m : Memory} (h : Memory.wf m = true) (b : Byte) :
    Memory.wf (Memory.append m b) = true := by
  rw [memory_wf_iff] at h ⊢
  simp [Memory.append, Memory.size, h, List.range_succ]

theorem memory_cellsFrom_addresses (start : Nat) (bs : List Byte) :
    (Memory.cellsFrom start bs).map (fun cell => cell.1) = List.range' start bs.length := by
  induction bs generalizing start with
  | nil => rfl
  | cons b rest ih => simp [Memory.cellsFrom, ih, List.range'_succ]

@[simp] theorem memory_cellsFrom_bytes (start : Nat) (bs : List Byte) :
    Memory.bytes (Memory.cellsFrom start bs) = bs := by
  induction bs generalizing start with
  | nil => rfl
  | cons b rest ih =>
    simp only [Memory.cellsFrom, Memory.bytes, List.map_cons]
    exact congrArg (b :: ·) (ih (start + 1))

@[simp] theorem memory_bytes_ofBytes (bs : List Byte) : Memory.bytes (Memory.ofBytes bs) = bs :=
  memory_cellsFrom_bytes 0 bs

@[simp] theorem memory_size_ofBytes (bs : List Byte) : Memory.size (Memory.ofBytes bs) = bs.length := by
  rw [← memory_bytes_length, memory_bytes_ofBytes]

/-- What the environment presents is in canonical form. -/
theorem memory_wf_ofBytes (bs : List Byte) : Memory.wf (Memory.ofBytes bs) = true := by
  rw [memory_wf_iff, Memory.ofBytes, memory_cellsFrom_addresses, List.range_eq_range']
  congr 1
  exact (memory_size_ofBytes bs).symm

theorem memory_read?_from (m : Memory) (start a : Nat)
    (h : m.map (fun cell => cell.1) = List.range' start m.length) :
    Memory.read? m (start + a) = (Memory.bytes m)[a]? := by
  induction m generalizing start a with
  | nil => simp [Memory.read?, Memory.bytes]
  | cons cell rest ih =>
    obtain ⟨k, b⟩ := cell
    simp only [List.map_cons, List.length_cons, List.range'_succ, List.cons.injEq] at h
    obtain ⟨rfl, h⟩ := h
    simp only [Memory.read?, Memory.bytes, List.map_cons]
    cases a with
    | zero => simp
    | succ a =>
      have := ih (k + 1) a h
      rw [show k + (a + 1) = k + 1 + a by omega, if_neg (by omega), this]
      simp [Memory.bytes]

/-- In canonical form, the byte at an index is the list's. -/
theorem memory_read?_eq {m : Memory} (h : Memory.wf m = true) (a : Nat) :
    Memory.read? m a = (Memory.bytes m)[a]? := by
  rw [memory_wf_iff, List.range_eq_range'] at h
  simpa using memory_read?_from m 0 a h

/-- Read after append: the new byte stands at the end. -/
theorem memory_read?_append_new {m : Memory} (h : Memory.wf m = true) (b : Byte) :
    Memory.read? (Memory.append m b) (Memory.size m) = some b := by
  rw [memory_read?_eq (memory_wf_append h b)]
  simp

/-- Read after append: every other index reads as before. -/
theorem memory_read?_append_old {m : Memory} (h : Memory.wf m = true) (b : Byte) {a : Nat}
    (ha : a ≠ Memory.size m) : Memory.read? (Memory.append m b) a = Memory.read? m a := by
  rw [memory_read?_eq (memory_wf_append h b), memory_read?_eq h, memory_bytes_append,
    List.getElem?_append]
  split
  · rfl
  · next hlt =>
    rw [memory_bytes_length] at hlt
    rw [List.getElem?_eq_none (by simp; omega), List.getElem?_eq_none (by simp; omega)]

/-- A listed index lies below the size. -/
theorem memory_read?_lt {m : Memory} (h : Memory.wf m = true) {a : Nat} {b : Byte}
    (hr : Memory.read? m a = some b) : a < Memory.size m := by
  rw [memory_read?_eq h] at hr
  have := (List.getElem?_eq_some_iff.mp hr).1
  simpa using this

/-- Two sequences in canonical form with the same bytes are equal. -/
theorem memory_ext {m m' : Memory} (h : Memory.wf m = true) (h' : Memory.wf m' = true)
    (hb : Memory.bytes m = Memory.bytes m') : m = m' := by
  rw [memory_wf_iff] at h h'
  have hl : m.length = m'.length := by
    have := congrArg List.length hb
    simpa [Memory.bytes] using this
  have hz : ∀ l : Memory, l = (l.map (fun cell => cell.1)).zip (l.map (fun cell => cell.2)) := by
    intro l; induction l with
    | nil => rfl
    | cons c r ih => simp only [List.map_cons, List.zip_cons_cons]; rw [← ih]
  rw [hz m, hz m', h, h', hl]
  exact congrArg _ hb

theorem holds_nil (inp : Memory) (a : Nat) : Holds inp a [] := by intro i hi; simp at hi

theorem holds_cons {inp : Memory} {a : Nat} {b : Byte} {bs : List Byte} :
    Holds inp a (b :: bs) ↔ Memory.read? inp a = some b ∧ Holds inp (a + 1) bs := by
  constructor
  · intro h
    refine ⟨by simpa using h 0 (by simp), fun i hi => ?_⟩
    have := h (i + 1) (by simpa using hi)
    simpa [Nat.add_assoc, Nat.add_comm 1 i] using this
  · rintro ⟨h0, h⟩ i hi
    cases i with
    | zero => simpa using h0
    | succ i =>
      have := h i (by simpa using hi)
      simpa [Nat.add_assoc, Nat.add_comm 1 i] using this

theorem holds_append {inp : Memory} {a : Nat} {xs ys : List Byte} :
    Holds inp a (xs ++ ys) ↔ Holds inp a xs ∧ Holds inp (a + xs.length) ys := by
  induction xs generalizing a with
  | nil => simp [holds_nil]
  | cons x xs ih =>
    rw [List.cons_append, holds_cons, holds_cons, ih]
    simp [Nat.add_assoc, Nat.add_comm 1, and_assoc]

/-- A presented sequence holds its own bytes. -/
theorem holds_ofBytes (bs : List Byte) : Holds (Memory.ofBytes bs) 0 bs := by
  intro i _
  rw [Nat.zero_add, memory_read?_eq (memory_wf_ofBytes bs), memory_bytes_ofBytes]

theorem holds_of_bytes {m : Memory} (h : Memory.wf m = true) {pre bs post : List Byte}
    (hb : Memory.bytes m = pre ++ bs ++ post) : Holds m pre.length bs := by
  intro i hi
  rw [memory_read?_eq h, hb, List.append_assoc, List.getElem?_append_right (by omega),
    List.getElem?_append_left (by omega)]
  congr 1; omega

end Sys2Proof.Laws
end

