-- ==== Sys2Proof/Laws/State.lean ====
section
/-! SUPPORT. One lemma per field per update, so that no later proof unfolds a record update. -/

namespace Sys2Proof.Laws

open Sys2Proof.Machine

/-! ### `respond`, `respondTotal`, `sinkFlush`, `State.issue` -/

@[simp] theorem respond_cfg (status : BitVec 3) (s : State) :
    (respond status s).cfg = s.cfg := rfl
@[simp] theorem respond_dec (status : BitVec 3) (s : State) :
    (respond status s).dec = s.dec := rfl
@[simp] theorem respond_enc (status : BitVec 3) (s : State) :
    (respond status s).enc = s.enc := rfl
@[simp] theorem respond_input (status : BitVec 3) (s : State) :
    (respond status s).input = s.input := rfl
@[simp] theorem respond_out (status : BitVec 3) (s : State) :
    (respond status s).out = s.out := rfl
@[simp] theorem respond_mask (status : BitVec 3) (s : State) :
    (respond status s).mask = s.mask := rfl
@[simp] theorem respond_values (status : BitVec 3) (s : State) :
    (respond status s).values = s.values := rfl
@[simp] theorem respond_presented (status : BitVec 3) (s : State) :
    (respond status s).presented = s.presented := rfl
@[simp] theorem respond_sinkFlushes (status : BitVec 3) (s : State) :
    (respond status s).sinkFlushes = s.sinkFlushes := rfl
@[simp] theorem respond_response (status : BitVec 3) (s : State) :
    (respond status s).response = { status := status, total := none } := rfl
@[simp] theorem respond_pending (status : BitVec 3) (s : State) :
    (respond status s).pending = s.pending := rfl
@[simp] theorem respondTotal_cfg (total : Word) (s : State) :
    (respondTotal total s).cfg = s.cfg := rfl
@[simp] theorem respondTotal_dec (total : Word) (s : State) :
    (respondTotal total s).dec = s.dec := rfl
@[simp] theorem respondTotal_enc (total : Word) (s : State) :
    (respondTotal total s).enc = s.enc := rfl
@[simp] theorem respondTotal_input (total : Word) (s : State) :
    (respondTotal total s).input = s.input := rfl
@[simp] theorem respondTotal_out (total : Word) (s : State) :
    (respondTotal total s).out = s.out := rfl
@[simp] theorem respondTotal_mask (total : Word) (s : State) :
    (respondTotal total s).mask = s.mask := rfl
@[simp] theorem respondTotal_values (total : Word) (s : State) :
    (respondTotal total s).values = s.values := rfl
@[simp] theorem respondTotal_presented (total : Word) (s : State) :
    (respondTotal total s).presented = s.presented := rfl
@[simp] theorem respondTotal_sinkFlushes (total : Word) (s : State) :
    (respondTotal total s).sinkFlushes = s.sinkFlushes := rfl
@[simp] theorem respondTotal_response (total : Word) (s : State) :
    (respondTotal total s).response = { status := 0, total := some total } := rfl
@[simp] theorem respondTotal_pending (total : Word) (s : State) :
    (respondTotal total s).pending = s.pending := rfl
@[simp] theorem sinkFlush_cfg (s : State) :
    (sinkFlush s).cfg = s.cfg := rfl
@[simp] theorem sinkFlush_dec (s : State) :
    (sinkFlush s).dec = s.dec := rfl
@[simp] theorem sinkFlush_enc (s : State) :
    (sinkFlush s).enc = s.enc := rfl
@[simp] theorem sinkFlush_input (s : State) :
    (sinkFlush s).input = s.input := rfl
@[simp] theorem sinkFlush_out (s : State) :
    (sinkFlush s).out = s.out := rfl
@[simp] theorem sinkFlush_mask (s : State) :
    (sinkFlush s).mask = s.mask := rfl
@[simp] theorem sinkFlush_values (s : State) :
    (sinkFlush s).values = s.values := rfl
@[simp] theorem sinkFlush_presented (s : State) :
    (sinkFlush s).presented = s.presented := rfl
@[simp] theorem sinkFlush_sinkFlushes (s : State) :
    (sinkFlush s).sinkFlushes = s.sinkFlushes + 1 := rfl
@[simp] theorem sinkFlush_response (s : State) :
    (sinkFlush s).response = s.response := rfl
@[simp] theorem sinkFlush_pending (s : State) :
    (sinkFlush s).pending = s.pending := rfl
@[simp] theorem issue_cfg (s : State) (r : Request) (rest : List Request) :
    (s.issue r rest).cfg = s.cfg := rfl
@[simp] theorem issue_dec (s : State) (r : Request) (rest : List Request) :
    (s.issue r rest).dec = s.dec := rfl
@[simp] theorem issue_enc (s : State) (r : Request) (rest : List Request) :
    (s.issue r rest).enc = s.enc := rfl
@[simp] theorem issue_input (s : State) (r : Request) (rest : List Request) :
    (s.issue r rest).input = s.input := rfl
@[simp] theorem issue_out (s : State) (r : Request) (rest : List Request) :
    (s.issue r rest).out = r.out := rfl
@[simp] theorem issue_mask (s : State) (r : Request) (rest : List Request) :
    (s.issue r rest).mask = r.mask := rfl
@[simp] theorem issue_values (s : State) (r : Request) (rest : List Request) :
    (s.issue r rest).values = r.values := rfl
@[simp] theorem issue_presented (s : State) (r : Request) (rest : List Request) :
    (s.issue r rest).presented = Memory.ofBytes r.input := rfl
@[simp] theorem issue_sinkFlushes (s : State) (r : Request) (rest : List Request) :
    (s.issue r rest).sinkFlushes = s.sinkFlushes := rfl
@[simp] theorem issue_response (s : State) (r : Request) (rest : List Request) :
    (s.issue r rest).response = s.response := rfl
@[simp] theorem issue_pending (s : State) (r : Request) (rest : List Request) :
    (s.issue r rest).pending = rest := rfl

/-! ### Taking an error and restarting -/

@[simp] theorem raiseDecoder_cfg (k : ErrorKind) (s : State) :
    (raiseDecoder k s).cfg = s.cfg := rfl
@[simp] theorem raiseDecoder_dec (k : ErrorKind) (s : State) :
    (raiseDecoder k s).dec = s.dec.faulted (Memory.size s.input) k := rfl
@[simp] theorem raiseDecoder_enc (k : ErrorKind) (s : State) :
    (raiseDecoder k s).enc = s.enc := rfl
@[simp] theorem raiseDecoder_input (k : ErrorKind) (s : State) :
    (raiseDecoder k s).input = s.input := rfl
@[simp] theorem raiseDecoder_out (k : ErrorKind) (s : State) :
    (raiseDecoder k s).out = s.out := rfl
@[simp] theorem raiseDecoder_mask (k : ErrorKind) (s : State) :
    (raiseDecoder k s).mask = s.mask := rfl
@[simp] theorem raiseDecoder_values (k : ErrorKind) (s : State) :
    (raiseDecoder k s).values = s.values := rfl
@[simp] theorem raiseDecoder_presented (k : ErrorKind) (s : State) :
    (raiseDecoder k s).presented = s.presented := rfl
@[simp] theorem raiseDecoder_sinkFlushes (k : ErrorKind) (s : State) :
    (raiseDecoder k s).sinkFlushes = s.sinkFlushes := rfl
@[simp] theorem raiseDecoder_response (k : ErrorKind) (s : State) :
    (raiseDecoder k s).response = { status := k.code, total := none } := rfl
@[simp] theorem raiseDecoder_pending (k : ErrorKind) (s : State) :
    (raiseDecoder k s).pending = s.pending := rfl
@[simp] theorem restartEngine_cfg (signed : Bool) (s : State) :
    (restartEngine signed s).cfg = { s.cfg with signed := signed } := rfl
@[simp] theorem restartEngine_dec (signed : Bool) (s : State) :
    (restartEngine signed s).dec = s.dec.restart := rfl
@[simp] theorem restartEngine_enc (signed : Bool) (s : State) :
    (restartEngine signed s).enc = s.enc.restart s.cfg.sinkCapacity := rfl
@[simp] theorem restartEngine_input (signed : Bool) (s : State) :
    (restartEngine signed s).input = s.presented := rfl
@[simp] theorem restartEngine_out (signed : Bool) (s : State) :
    (restartEngine signed s).out = s.out := rfl
@[simp] theorem restartEngine_mask (signed : Bool) (s : State) :
    (restartEngine signed s).mask = s.mask := rfl
@[simp] theorem restartEngine_values (signed : Bool) (s : State) :
    (restartEngine signed s).values = s.values := rfl
@[simp] theorem restartEngine_presented (signed : Bool) (s : State) :
    (restartEngine signed s).presented = s.presented := rfl
@[simp] theorem restartEngine_sinkFlushes (signed : Bool) (s : State) :
    (restartEngine signed s).sinkFlushes = 0 := rfl
@[simp] theorem restartEngine_response (signed : Bool) (s : State) :
    (restartEngine signed s).response = { status := if s.cfg.sinkCapacity = 0 then ErrorKind.encoderArgument.code else 0, total := none } := rfl
@[simp] theorem restartEngine_pending (signed : Bool) (s : State) :
    (restartEngine signed s).pending = s.pending := rfl
@[simp] theorem faulted_cur (n : Nat) (k : ErrorKind) (d : Decoder) :
    (d.faulted n k).cur = freeCursor d.freeCount n := rfl
@[simp] theorem faulted_dstate (n : Nat) (k : ErrorKind) (d : Decoder) :
    (d.faulted n k).dstate = freeDState d.freeCount := rfl
@[simp] theorem faulted_runSubenc (n : Nat) (k : ErrorKind) (d : Decoder) :
    (d.faulted n k).runSubenc = d.havocWorking.runSubenc := rfl
@[simp] theorem faulted_runLength (n : Nat) (k : ErrorKind) (d : Decoder) :
    (d.faulted n k).runLength = d.havocWorking.runLength := rfl
@[simp] theorem faulted_runConsumed (n : Nat) (k : ErrorKind) (d : Decoder) :
    (d.faulted n k).runConsumed = d.havocWorking.runConsumed := rfl
@[simp] theorem faulted_fault (n : Nat) (k : ErrorKind) (d : Decoder) :
    (d.faulted n k).fault = true := rfl
@[simp] theorem faulted_err (n : Nat) (k : ErrorKind) (d : Decoder) :
    (d.faulted n k).err = k.code := rfl
@[simp] theorem faulted_runBuffer (n : Nat) (k : ErrorKind) (d : Decoder) :
    (d.faulted n k).runBuffer = d.havocWorking.runBuffer := rfl
@[simp] theorem faulted_w (n : Nat) (k : ErrorKind) (d : Decoder) :
    (d.faulted n k).w = d.havocWorking.w := rfl
@[simp] theorem faulted_bw (n : Nat) (k : ErrorKind) (d : Decoder) :
    (d.faulted n k).bw = d.havocWorking.bw := rfl
@[simp] theorem faulted_pw (n : Nat) (k : ErrorKind) (d : Decoder) :
    (d.faulted n k).pw = d.havocWorking.pw := rfl
@[simp] theorem faulted_pgw (n : Nat) (k : ErrorKind) (d : Decoder) :
    (d.faulted n k).pgw = d.havocWorking.pgw := rfl
@[simp] theorem faulted_pll (n : Nat) (k : ErrorKind) (d : Decoder) :
    (d.faulted n k).pll = d.havocWorking.pll := rfl
@[simp] theorem faulted_base (n : Nat) (k : ErrorKind) (d : Decoder) :
    (d.faulted n k).base = d.havocWorking.base := rfl
@[simp] theorem faulted_fd (n : Nat) (k : ErrorKind) (d : Decoder) :
    (d.faulted n k).fd = d.havocWorking.fd := rfl
@[simp] theorem faulted_patchEntries (n : Nat) (k : ErrorKind) (d : Decoder) :
    (d.faulted n k).patchEntries = d.havocWorking.patchEntries := rfl
@[simp] theorem faulted_deltaScratch (n : Nat) (k : ErrorKind) (d : Decoder) :
    (d.faulted n k).deltaScratch = d.havocWorking.deltaScratch := rfl
@[simp] theorem faulted_freeCount (n : Nat) (k : ErrorKind) (d : Decoder) :
    (d.faulted n k).freeCount = d.havocWorking.freeCount := rfl
@[simp] theorem restart_cur (d : Decoder) :
    (d.restart).cur = Cursor.reset := rfl
@[simp] theorem restart_dstate (d : Decoder) :
    (d.restart).dstate = .awaitingHeader := rfl
@[simp] theorem restart_runSubenc (d : Decoder) :
    (d.restart).runSubenc = d.havocWorking.runSubenc := rfl
@[simp] theorem restart_runLength (d : Decoder) :
    (d.restart).runLength = d.havocWorking.runLength := rfl
@[simp] theorem restart_runConsumed (d : Decoder) :
    (d.restart).runConsumed = d.havocWorking.runConsumed := rfl
@[simp] theorem restart_fault (d : Decoder) :
    (d.restart).fault = false := rfl
@[simp] theorem restart_err (d : Decoder) :
    (d.restart).err = 0 := rfl
@[simp] theorem restart_runBuffer (d : Decoder) :
    (d.restart).runBuffer = d.havocWorking.runBuffer := rfl
@[simp] theorem restart_w (d : Decoder) :
    (d.restart).w = d.havocWorking.w := rfl
@[simp] theorem restart_bw (d : Decoder) :
    (d.restart).bw = d.havocWorking.bw := rfl
@[simp] theorem restart_pw (d : Decoder) :
    (d.restart).pw = d.havocWorking.pw := rfl
@[simp] theorem restart_pgw (d : Decoder) :
    (d.restart).pgw = d.havocWorking.pgw := rfl
@[simp] theorem restart_pll (d : Decoder) :
    (d.restart).pll = d.havocWorking.pll := rfl
@[simp] theorem restart_base (d : Decoder) :
    (d.restart).base = d.havocWorking.base := rfl
@[simp] theorem restart_fd (d : Decoder) :
    (d.restart).fd = d.havocWorking.fd := rfl
@[simp] theorem restart_patchEntries (d : Decoder) :
    (d.restart).patchEntries = d.havocWorking.patchEntries := rfl
@[simp] theorem restart_deltaScratch (d : Decoder) :
    (d.restart).deltaScratch = d.havocWorking.deltaScratch := rfl
@[simp] theorem restart_freeCount (d : Decoder) :
    (d.restart).freeCount = d.havocWorking.freeCount := rfl
@[simp] theorem havocWorking_cur (d : Decoder) :
    (d.havocWorking).cur = d.cur := rfl
@[simp] theorem havocWorking_dstate (d : Decoder) :
    (d.havocWorking).dstate = d.dstate := rfl
@[simp] theorem havocWorking_fault (d : Decoder) :
    (d.havocWorking).fault = d.fault := rfl
@[simp] theorem havocWorking_err (d : Decoder) :
    (d.havocWorking).err = d.err := rfl

/-! ### Runs and positions -/

@[simp] theorem enterRun_cur (tag : BitVec 2) (vals : List Word) (d : Decoder) :
    (enterRun tag vals d).cur = d.cur := rfl
@[simp] theorem enterRun_dstate (tag : BitVec 2) (vals : List Word) (d : Decoder) :
    (enterRun tag vals d).dstate = .inRun := rfl
@[simp] theorem enterRun_runSubenc (tag : BitVec 2) (vals : List Word) (d : Decoder) :
    (enterRun tag vals d).runSubenc = tag := rfl
@[simp] theorem enterRun_runLength (tag : BitVec 2) (vals : List Word) (d : Decoder) :
    (enterRun tag vals d).runLength = vals.length := rfl
@[simp] theorem enterRun_runConsumed (tag : BitVec 2) (vals : List Word) (d : Decoder) :
    (enterRun tag vals d).runConsumed = 0 := rfl
@[simp] theorem enterRun_fault (tag : BitVec 2) (vals : List Word) (d : Decoder) :
    (enterRun tag vals d).fault = d.fault := rfl
@[simp] theorem enterRun_err (tag : BitVec 2) (vals : List Word) (d : Decoder) :
    (enterRun tag vals d).err = d.err := rfl
@[simp] theorem enterRun_runBuffer (tag : BitVec 2) (vals : List Word) (d : Decoder) :
    (enterRun tag vals d).runBuffer = vals ++ freeWords .runBuffer d.freeCount vals.length (512 - vals.length) := rfl
@[simp] theorem enterRun_w (tag : BitVec 2) (vals : List Word) (d : Decoder) :
    (enterRun tag vals d).w = d.w := rfl
@[simp] theorem enterRun_bw (tag : BitVec 2) (vals : List Word) (d : Decoder) :
    (enterRun tag vals d).bw = d.bw := rfl
@[simp] theorem enterRun_pw (tag : BitVec 2) (vals : List Word) (d : Decoder) :
    (enterRun tag vals d).pw = d.pw := rfl
@[simp] theorem enterRun_pgw (tag : BitVec 2) (vals : List Word) (d : Decoder) :
    (enterRun tag vals d).pgw = d.pgw := rfl
@[simp] theorem enterRun_pll (tag : BitVec 2) (vals : List Word) (d : Decoder) :
    (enterRun tag vals d).pll = d.pll := rfl
@[simp] theorem enterRun_base (tag : BitVec 2) (vals : List Word) (d : Decoder) :
    (enterRun tag vals d).base = d.base := rfl
@[simp] theorem enterRun_fd (tag : BitVec 2) (vals : List Word) (d : Decoder) :
    (enterRun tag vals d).fd = d.fd := rfl
@[simp] theorem enterRun_patchEntries (tag : BitVec 2) (vals : List Word) (d : Decoder) :
    (enterRun tag vals d).patchEntries = d.patchEntries := rfl
@[simp] theorem enterRun_deltaScratch (tag : BitVec 2) (vals : List Word) (d : Decoder) :
    (enterRun tag vals d).deltaScratch = d.deltaScratch := rfl
@[simp] theorem enterRun_freeCount (tag : BitVec 2) (vals : List Word) (d : Decoder) :
    (enterRun tag vals d).freeCount = d.freeCount + 1 := rfl
@[simp] theorem consumePosition_cur (d : Decoder) :
    (consumePosition d).cur = d.cur := rfl
@[simp] theorem consumePosition_dstate (d : Decoder) :
    (consumePosition d).dstate = if d.runConsumed + 1 = d.runLength then .awaitingHeader else d.dstate := rfl
@[simp] theorem consumePosition_runSubenc (d : Decoder) :
    (consumePosition d).runSubenc = d.runSubenc := rfl
@[simp] theorem consumePosition_runLength (d : Decoder) :
    (consumePosition d).runLength = d.runLength := rfl
@[simp] theorem consumePosition_runConsumed (d : Decoder) :
    (consumePosition d).runConsumed = d.runConsumed + 1 := rfl
@[simp] theorem consumePosition_fault (d : Decoder) :
    (consumePosition d).fault = d.fault := rfl
@[simp] theorem consumePosition_err (d : Decoder) :
    (consumePosition d).err = d.err := rfl
@[simp] theorem consumePosition_runBuffer (d : Decoder) :
    (consumePosition d).runBuffer = d.runBuffer := rfl
@[simp] theorem consumePosition_w (d : Decoder) :
    (consumePosition d).w = d.w := rfl
@[simp] theorem consumePosition_bw (d : Decoder) :
    (consumePosition d).bw = d.bw := rfl
@[simp] theorem consumePosition_pw (d : Decoder) :
    (consumePosition d).pw = d.pw := rfl
@[simp] theorem consumePosition_pgw (d : Decoder) :
    (consumePosition d).pgw = d.pgw := rfl
@[simp] theorem consumePosition_pll (d : Decoder) :
    (consumePosition d).pll = d.pll := rfl
@[simp] theorem consumePosition_base (d : Decoder) :
    (consumePosition d).base = d.base := rfl
@[simp] theorem consumePosition_fd (d : Decoder) :
    (consumePosition d).fd = d.fd := rfl
@[simp] theorem consumePosition_patchEntries (d : Decoder) :
    (consumePosition d).patchEntries = d.patchEntries := rfl
@[simp] theorem consumePosition_deltaScratch (d : Decoder) :
    (consumePosition d).deltaScratch = d.deltaScratch := rfl
@[simp] theorem consumePosition_freeCount (d : Decoder) :
    (consumePosition d).freeCount = d.freeCount := rfl
@[simp] theorem repositioned_cur (pos : Nat) (d : Decoder) :
    (repositioned pos d).cur = { spos := pos, bitsLeft := 0, curByte := 0 } := rfl
@[simp] theorem repositioned_dstate (pos : Nat) (d : Decoder) :
    (repositioned pos d).dstate = .awaitingHeader := rfl
@[simp] theorem repositioned_runSubenc (pos : Nat) (d : Decoder) :
    (repositioned pos d).runSubenc = d.runSubenc := rfl
@[simp] theorem repositioned_runLength (pos : Nat) (d : Decoder) :
    (repositioned pos d).runLength = d.runLength := rfl
@[simp] theorem repositioned_runConsumed (pos : Nat) (d : Decoder) :
    (repositioned pos d).runConsumed = d.runConsumed := rfl
@[simp] theorem repositioned_fault (pos : Nat) (d : Decoder) :
    (repositioned pos d).fault = d.fault := rfl
@[simp] theorem repositioned_err (pos : Nat) (d : Decoder) :
    (repositioned pos d).err = d.err := rfl
@[simp] theorem repositioned_runBuffer (pos : Nat) (d : Decoder) :
    (repositioned pos d).runBuffer = d.runBuffer := rfl
@[simp] theorem repositioned_w (pos : Nat) (d : Decoder) :
    (repositioned pos d).w = d.w := rfl
@[simp] theorem repositioned_bw (pos : Nat) (d : Decoder) :
    (repositioned pos d).bw = d.bw := rfl
@[simp] theorem repositioned_pw (pos : Nat) (d : Decoder) :
    (repositioned pos d).pw = d.pw := rfl
@[simp] theorem repositioned_pgw (pos : Nat) (d : Decoder) :
    (repositioned pos d).pgw = d.pgw := rfl
@[simp] theorem repositioned_pll (pos : Nat) (d : Decoder) :
    (repositioned pos d).pll = d.pll := rfl
@[simp] theorem repositioned_base (pos : Nat) (d : Decoder) :
    (repositioned pos d).base = d.base := rfl
@[simp] theorem repositioned_fd (pos : Nat) (d : Decoder) :
    (repositioned pos d).fd = d.fd := rfl
@[simp] theorem repositioned_patchEntries (pos : Nat) (d : Decoder) :
    (repositioned pos d).patchEntries = d.patchEntries := rfl
@[simp] theorem repositioned_deltaScratch (pos : Nat) (d : Decoder) :
    (repositioned pos d).deltaScratch = d.deltaScratch := rfl
@[simp] theorem repositioned_freeCount (pos : Nat) (d : Decoder) :
    (repositioned pos d).freeCount = d.freeCount := rfl
@[simp] theorem resetRun_spos (c : Cursor) :
    (resetRun c).spos = c.spos := rfl
@[simp] theorem resetRun_bitsLeft (c : Cursor) :
    (resetRun c).bitsLeft = 0 := rfl
@[simp] theorem resetRun_curByte (c : Cursor) :
    (resetRun c).curByte = 0 := rfl

/-! ### The write side -/

@[simp] theorem sinkWrite_out (b : Byte) (p : WritePort) :
    (sinkWrite b p).out = Memory.append p.out b := rfl
@[simp] theorem sinkWrite_bytesWritten (b : Byte) (p : WritePort) :
    (sinkWrite b p).bytesWritten = p.bytesWritten + 1 := rfl
@[simp] theorem sinkWrite_wbitsLeft (b : Byte) (p : WritePort) :
    (sinkWrite b p).wbitsLeft = p.wbitsLeft := rfl
@[simp] theorem sinkWrite_wcurByte (b : Byte) (p : WritePort) :
    (sinkWrite b p).wcurByte = p.wcurByte := rfl
@[simp] theorem emitCurByte_out (p : WritePort) :
    (emitCurByte p).out = Memory.append p.out p.wcurByte := rfl
@[simp] theorem emitCurByte_bytesWritten (p : WritePort) :
    (emitCurByte p).bytesWritten = p.bytesWritten + 1 := rfl
@[simp] theorem emitCurByte_wbitsLeft (p : WritePort) :
    (emitCurByte p).wbitsLeft = 8 := rfl
@[simp] theorem emitCurByte_wcurByte (p : WritePort) :
    (emitCurByte p).wcurByte = 0 := rfl
@[simp] theorem emitWindow_litBuf (signed : Bool) (e : Encoder) :
    (emitWindow signed e).litBuf = freeWords .litBuf e.freeCount 0 512 := rfl
@[simp] theorem emitWindow_litCount (signed : Bool) (e : Encoder) :
    (emitWindow signed e).litCount = 0 := rfl
@[simp] theorem emitWindow_port (signed : Bool) (e : Encoder) :
    (emitWindow signed e).port = emitLiterals signed e.litCount (windowLiterals e) e.port := rfl
@[simp] theorem emitWindow_fault (signed : Bool) (e : Encoder) :
    (emitWindow signed e).fault = e.fault := rfl
@[simp] theorem emitWindow_err (signed : Bool) (e : Encoder) :
    (emitWindow signed e).err = e.err := rfl
@[simp] theorem emitWindow_freeCount (signed : Bool) (e : Encoder) :
    (emitWindow signed e).freeCount = e.freeCount + 1 := rfl

end Sys2Proof.Laws
end

