-- ==== Sys2Proof/Laws/Ops.lean ====
section
/-! SUPPORT. Sequencing of computations that can end in an error, and what the shared register
operations leave. -/

namespace Sys2Proof.Laws

open Sys2Proof.Machine

/-! ### Sequencing -/

@[simp] theorem except_bind_ok {ε α β : Type} (a : α) (f : α → Except ε β) :
    (Except.ok a >>= f) = f a := rfl

@[simp] theorem except_bind_error {ε α β : Type} (e : ε) (f : α → Except ε β) :
    ((Except.error e : Except ε α) >>= f) = .error e := rfl

theorem except_bind_eq_ok {ε α β : Type} {x : Except ε α} {f : α → Except ε β} {b : β} :
    (x >>= f) = .ok b ↔ ∃ a, x = .ok a ∧ f a = .ok b := by
  cases x <;> simp

theorem except_bind_eq_error {ε α β : Type} {x : Except ε α} {f : α → Except ε β} {e : ε} :
    (x >>= f) = .error e ↔ x = .error e ∨ ∃ a, x = .ok a ∧ f a = .error e := by
  cases x <;> simp

/-! ### Free values -/

@[simp] theorem freeWords_length (place : FreePlace) (event start count : Nat) :
    (freeWords place event start count).length = count := by
  rw [freeWords]; simp

theorem freeWords_getElem? (place : FreePlace) (event start count i : Nat) (h : i < count) :
    (freeWords place event start count)[i]? = some (Config.freeWord place event (start + i)) := by
  rw [freeWords]; simp [h]

@[simp] theorem freeWords_zero (place : FreePlace) (event start : Nat) :
    freeWords place event start 0 = [] := by
  rw [freeWords]; rfl

theorem overwrite_length (vals old : List Word) :
    (overwrite vals old).length = max vals.length old.length := by
  simp [overwrite]; omega

/-- An unspecified position lies in its range. -/
theorem freeCursor_spos_le (event n : Nat) : (freeCursor event n).spos ≤ n := by
  have := Nat.mod_lt (Config.freeNumber .spos event) (show n + 1 > 0 by omega)
  simp only [freeCursor]; omega

theorem freeCursor_bitsLeft_le (event n : Nat) : (freeCursor event n).bitsLeft ≤ 8 := by
  have := Nat.mod_lt (Config.freeNumber .bitsLeft event) (show 9 > 0 by omega)
  simp only [freeCursor]; omega

/-! ### The gate of a faulted half -/

/-- A decoder command on a faulted half answers the latched code. -/
theorem whenDecoderReady_of_fault {s : State} (h : s.dec.fault = true)
    (body : Host.Outcome State Fault Refusal) :
    whenDecoderReady s body = .next (respond s.dec.err s) := by
  simp [whenDecoderReady, h]

/-- A decoder command on a ready half runs. -/
theorem whenDecoderReady_of_ready {s : State} (h : s.dec.fault = false)
    (body : Host.Outcome State Fault Refusal) : whenDecoderReady s body = body := by
  simp [whenDecoderReady, h]

theorem whenEncoderReady_of_fault {s : State} (h : s.enc.fault = true)
    (body : Host.Outcome State Fault Refusal) :
    whenEncoderReady s body = .next (respond s.enc.err s) := by
  simp [whenEncoderReady, h]

theorem whenEncoderReady_of_ready {s : State} (h : s.enc.fault = false)
    (body : Host.Outcome State Fault Refusal) : whenEncoderReady s body = body := by
  simp [whenEncoderReady, h]

/-- Everything the decoder gate can do. -/
theorem whenDecoderReady_cases {s t : State} {body : Host.Outcome State Fault Refusal}
    (h : whenDecoderReady s body = .next t) :
    (s.dec.fault = true ∧ t = respond s.dec.err s) ∨ (s.dec.fault = false ∧ body = .next t) := by
  unfold whenDecoderReady at h
  cases hf : s.dec.fault <;> simp [hf] at h ⊢
  · exact h
  · exact h.symm

/-- Everything the encoder gate can do. -/
theorem whenEncoderReady_cases {s t : State} {body : Host.Outcome State Fault Refusal}
    (h : whenEncoderReady s body = .next t) :
    (s.enc.fault = true ∧ t = respond s.enc.err s) ∨ (s.enc.fault = false ∧ body = .next t) := by
  unfold whenEncoderReady at h
  cases hf : s.enc.fault <;> simp [hf] at h ⊢
  · exact h
  · exact h.symm

/-! ### Ranges of unspecified registers -/

/-- What `havocWorking` leaves: lengths and ranges of the working registers. -/
structure WorkingInRange (d : Decoder) : Prop where
  runBuffer_length : d.runBuffer.length = 512
  patchEntries_length : d.patchEntries.length = 31
  deltaScratch_length : d.deltaScratch.length = 510
  runLength_pos : 1 ≤ d.runLength
  runLength_le : d.runLength ≤ 512
  runConsumed_le : d.runConsumed ≤ 512
  w_le : d.w ≤ 64
  bw_range : 1 ≤ d.bw ∧ d.bw ≤ 8
  pw_range : 1 ≤ d.pw ∧ d.pw ≤ 64
  pgw_range : 1 ≤ d.pgw ∧ d.pgw ≤ 8
  pll_le : d.pll ≤ 31

theorem havocWorking_inRange (d : Decoder) : WorkingInRange d.havocWorking := by
  constructor <;> simp only [Decoder.havocWorking, freeWords_length] <;> omega

theorem faulted_legal (n : Nat) {k : ErrorKind} (d : Decoder)
    (hk : k = .malformedHeader ∨ k = .truncatedStream ∨ k = .seekOutOfRange) :
    (d.faulted n k).Legal n := by
  obtain ⟨h1, h2, h3, h4, h5, h6, h7, h8, h9, h10, h11⟩ := havocWorking_inRange d
  refine ⟨freeCursor_spos_le _ _, freeCursor_bitsLeft_le _ _, h1, h2, h3, h4, h5, h6, ?_, ?_, ?_,
    h7, h8, h9, h10, h11⟩
  · simp
  · simp
  · rintro -
    rcases hk with rfl | rfl | rfl <;> simp [ErrorKind.code]

theorem restart_legal (n : Nat) (d : Decoder) : d.restart.Legal n := by
  obtain ⟨h1, h2, h3, h4, h5, h6, h7, h8, h9, h10, h11⟩ := havocWorking_inRange d
  refine ⟨Nat.zero_le _, Nat.zero_le _, h1, h2, h3, h4, h5, h6, ?_, ?_, ?_, h7, h8, h9, h10, h11⟩
  · intro _ h; cases h
  · intro _; rfl
  · intro h; cases h

theorem encoder_restart_legal (cap : Nat) (e : Encoder) : (e.restart cap).Legal cap := by
  refine ⟨by simp [Encoder.restart], by simp [Encoder.restart], ⟨rfl, rfl⟩, rfl, rfl, rfl, ?_⟩
  by_cases h : cap = 0 <;> simp [Encoder.restart, h, ErrorKind.code]

end Sys2Proof.Laws
end

