-- ==== Sys2Proof/Laws/Bits.lean ====
section
/-! SUPPORT. Bit strings and the numbers they spell, and the words that shifts and masks make. -/

namespace Sys2Proof.Laws

open Sys2Proof.Machine

/-! ### Numbers of bit strings -/

theorem numberOfBits_foldl (l : List Bool) (v : Nat) :
    l.foldl (fun v b => 2 * v + b.toNat) v = v * 2 ^ l.length + numberOfBits l := by
  unfold numberOfBits
  induction l generalizing v with
  | nil => simp
  | cons b l ih =>
    rw [List.foldl_cons, List.foldl_cons, ih (2 * v + b.toNat), ih (2 * 0 + b.toNat),
      List.length_cons, Nat.pow_succ]
    ring

@[simp] theorem numberOfBits_nil : numberOfBits [] = 0 := rfl

theorem numberOfBits_append (xs ys : List Bool) :
    numberOfBits (xs ++ ys) = numberOfBits xs * 2 ^ ys.length + numberOfBits ys := by
  rw [numberOfBits, List.foldl_append, numberOfBits_foldl]; rfl

theorem numberOfBits_lt (l : List Bool) : numberOfBits l < 2 ^ l.length := by
  induction l using List.reverseRecOn with
  | nil => simp
  | append_singleton l b ih =>
    rw [numberOfBits_append]
    have : numberOfBits [b] < 2 := by cases b <;> decide
    simp only [List.length_append, List.length_singleton, Nat.pow_succ, Nat.pow_zero, Nat.one_mul]
    omega

/-- The leading bits of a bit string spell the number without its low bits. -/
theorem numberOfBits_take (l : List Bool) (n : Nat) :
    numberOfBits (l.take n) = numberOfBits l / 2 ^ (l.length - n) := by
  have hs := numberOfBits_append (l.take n) (l.drop n)
  rw [List.take_append_drop, List.length_drop] at hs
  have hlt := numberOfBits_lt (l.drop n)
  rw [List.length_drop] at hlt
  rw [hs, Nat.mul_comm, Nat.mul_add_div (Nat.two_pow_pos _), Nat.div_eq_of_lt hlt, Nat.add_zero]

/-- The trailing bits of a bit string spell the number's low bits. -/
theorem numberOfBits_drop (l : List Bool) (n : Nat) :
    numberOfBits (l.drop n) = numberOfBits l % 2 ^ (l.length - n) := by
  have hs := numberOfBits_append (l.take n) (l.drop n)
  rw [List.take_append_drop, List.length_drop] at hs
  have hlt := numberOfBits_lt (l.drop n)
  rw [List.length_drop] at hlt
  rw [hs, Nat.mul_comm, Nat.mul_add_mod, Nat.mod_eq_of_lt hlt]

@[simp] theorem bitsOfByte_length (b : Byte) : (bitsOfByte b).length = 8 := rfl

theorem numberOfBits_bitsOfByte (b : Byte) : numberOfBits (bitsOfByte b) = b.toNat := by
  revert b; decide +kernel

@[simp] theorem bitsOf_nil : bitsOf [] = [] := rfl

theorem bitsOf_cons (b : Byte) (bs : List Byte) : bitsOf (b :: bs) = bitsOfByte b ++ bitsOf bs :=
  rfl

theorem bitsOf_append (xs ys : List Byte) : bitsOf (xs ++ ys) = bitsOf xs ++ bitsOf ys := by
  simp [bitsOf]

@[simp] theorem bitsOf_length (bs : List Byte) : (bitsOf bs).length = 8 * bs.length := by
  induction bs with
  | nil => rfl
  | cons b bs ih => rw [bitsOf_cons, List.length_append, ih]; simp; omega

@[simp] theorem pendingBits_length (c : Cursor) (h : c.bitsLeft ≤ 8) :
    (pendingBits c).length = c.bitsLeft := by
  simp [pendingBits]; omega

theorem pendingBits_number (c : Cursor) (h : c.bitsLeft ≤ 8) :
    numberOfBits (pendingBits c) = c.curByte.toNat % 2 ^ c.bitsLeft := by
  rw [pendingBits, numberOfBits_drop, numberOfBits_bitsOfByte, bitsOfByte_length,
    show 8 - (8 - c.bitsLeft) = c.bitsLeft by omega]

@[simp] theorem pendingBits_fresh (spos : Nat) (b : Byte) :
    pendingBits { spos := spos, bitsLeft := 8, curByte := b } = bitsOfByte b := rfl

@[simp] theorem pendingBits_none (spos : Nat) (b : Byte) :
    pendingBits { spos := spos, bitsLeft := 0, curByte := b } = [] := rfl

/-! ### Words from shifts and masks -/

theorem ofNat_or (x y : Nat) :
    BitVec.ofNat 64 (x ||| y) = BitVec.ofNat 64 x ||| BitVec.ofNat 64 y := by
  apply BitVec.eq_of_getLsbD_eq
  intro i hi
  simp [hi]

theorem ofNat_shiftLeft (x k : Nat) :
    BitVec.ofNat 64 (x <<< k) = BitVec.ofNat 64 x <<< k := by
  apply BitVec.eq_of_toNat_eq
  simp [Nat.shiftLeft_eq, Nat.mod_mul_mod]

/-- A shift with low bits ORed below it is a sum. -/
theorem shiftLeft_or_ofNat (x y k : Nat) (h : y < 2 ^ k) :
    (BitVec.ofNat 64 x <<< k) ||| BitVec.ofNat 64 y = BitVec.ofNat 64 (x * 2 ^ k + y) := by
  rw [← ofNat_shiftLeft, ← ofNat_or, ← Nat.shiftLeft_add_eq_or_of_lt h, Nat.shiftLeft_eq]

theorem lowMask8_toNat (k : Nat) (h : k ≤ 8) : (lowMask8 k).toNat = 2 ^ k - 1 := by
  have : 2 ^ k ≤ 2 ^ 8 := Nat.pow_le_pow_right (by omega) h
  have := Nat.two_pow_pos k
  rw [lowMask8, BitVec.toNat_ofNat, Nat.mod_eq_of_lt (by omega)]

theorem lowMask64_toNat (k : Nat) (h : k ≤ 64) : (lowMask64 k).toNat = 2 ^ k - 1 := by
  have : 2 ^ k ≤ 2 ^ 64 := Nat.pow_le_pow_right (by omega) h
  have := Nat.two_pow_pos k
  rw [lowMask64, BitVec.toNat_ofNat, Nat.mod_eq_of_lt (by omega)]

theorem and_lowMask8_toNat (b : Byte) (k : Nat) (h : k ≤ 8) :
    (b &&& lowMask8 k).toNat = b.toNat % 2 ^ k := by
  rw [BitVec.toNat_and, lowMask8_toNat k h, Nat.and_two_pow_sub_one_eq_mod]

theorem and_lowMask64_toNat (v : Word) (k : Nat) (h : k ≤ 64) :
    (v &&& lowMask64 k).toNat = v.toNat % 2 ^ k := by
  rw [BitVec.toNat_and, lowMask64_toNat k h, Nat.and_two_pow_sub_one_eq_mod]

theorem setWidth64_eq_ofNat (b : Byte) : b.setWidth 64 = BitVec.ofNat 64 b.toNat := by
  apply BitVec.eq_of_toNat_eq; simp

theorem ofNat_toNat_word (v : Word) : BitVec.ofNat 64 v.toNat = v := by simp

end Sys2Proof.Laws
end

