-- ==== Sys2Proof/Laws/Decode.lean ====
section
/-! SUPPORT. The width table and the run headers. -/

namespace Sys2Proof.Laws

open Sys2Proof.Machine

theorem isTableWidth_widthOfCode (c : BitVec 5) : isTableWidth (widthOfCode c) = true := by
  revert c; decide

theorem widthOfCode_le (c : BitVec 5) : 1 ≤ widthOfCode c ∧ widthOfCode c ≤ 64 := by
  revert c; decide

/-- A table width is one of the image of `WIDTH` (rule R83). -/
theorem isTableWidth_cases {w : Nat} (h : isTableWidth w = true) :
    (1 ≤ w ∧ w ≤ 24) ∨ w = 26 ∨ w = 28 ∨ w = 30 ∨ w = 32 ∨ w = 40 ∨ w = 48 ∨ w = 56 ∨ w = 64 := by
  simp [isTableWidth] at h; omega

theorem isTableWidth_range {w : Nat} (h : isTableWidth w = true) : 1 ≤ w ∧ w ≤ 64 := by
  have := isTableWidth_cases h; omega

theorem closestWidth_range (n : Nat) : 1 ≤ closestWidth n ∧ closestWidth n ≤ 64 := by
  unfold closestWidth; split_ifs <;> omega

theorem closestWidth_ge {n : Nat} (h : n ≤ 64) : n ≤ closestWidth n := by
  unfold closestWidth; split_ifs <;> omega

theorem isTableWidth_closestWidth (n : Nat) : isTableWidth (closestWidth n) = true := by
  unfold closestWidth
  split_ifs
  · decide
  · simp [isTableWidth]; omega
  all_goals decide

theorem lengthField_range (h0 h1 : Byte) : 1 ≤ lengthField h0 h1 ∧ lengthField h0 h1 ≤ 512 := by
  have := (h0.extractLsb' 0 1 ++ h1).isLt
  unfold lengthField; omega

theorem lengthOk_iff (l : Nat) : lengthOk l = true ↔ 1 ≤ l ∧ l ≤ 512 := by simp [lengthOk]

theorem deltaWidth_ok (c : BitVec 5) :
    (decide (deltaWidthOfCode c = 0) ||
      (isTableWidth (deltaWidthOfCode c) && decide (deltaWidthOfCode c ≠ 1))) = true := by
  revert c; decide

/-- Everything the header decoder can do: one of the four forms, by tag (rules R81, R82), or a
header cut short. -/
theorem decodeHeader_cases (bs : List Byte) :
    decodeHeader bs = .error .truncatedHeader ∨
    (∃ h0 rest, bs = h0 :: rest ∧ tagOf h0 = 0 ∧ decodeHeader bs = .ok (srOfHeader h0, rest)) ∨
    (∃ h0 h1 rest, bs = h0 :: h1 :: rest ∧ tagOf h0 = 1 ∧
      decodeHeader bs = .ok (directOfHeader h0 h1, rest)) ∨
    (∃ h0 h1 h2 h3 rest, bs = h0 :: h1 :: h2 :: h3 :: rest ∧ tagOf h0 = 2 ∧
      decodeHeader bs = .ok (pbOfHeader h0 h1 h2 h3, rest)) ∨
    (∃ h0 h1 rest, bs = h0 :: h1 :: rest ∧ tagOf h0 = 3 ∧
      decodeHeader bs = .ok (deltaOfHeader h0 h1, rest)) := by
  cases bs with
  | nil => exact .inl rfl
  | cons h0 rest =>
    unfold decodeHeader
    by_cases h : tagOf h0 = 0
    · exact .inr (.inl ⟨h0, rest, rfl, h, by simp [h]⟩)
    by_cases h' : tagOf h0 = 1
    · rcases rest with - | ⟨h1, rest⟩
      · exact .inl (by simp [h'])
      · exact .inr (.inr (.inl ⟨h0, h1, rest, rfl, h', by simp [h']⟩))
    by_cases h'' : tagOf h0 = 2
    · rcases rest with - | ⟨h1, - | ⟨h2, - | ⟨h3, rest⟩⟩⟩
      · exact .inl (by simp [h''])
      · exact .inl (by simp [h''])
      · exact .inl (by simp [h''])
      · exact .inr (.inr (.inr (.inl ⟨h0, h1, h2, h3, rest, rfl, h'', by simp [h'']⟩)))
    · have h3 : tagOf h0 = 3 := by
        have : ∀ t : BitVec 2, t ≠ 0 → t ≠ 1 → t ≠ 2 → t = 3 := by decide
        exact this _ h h' h''
      rcases rest with - | ⟨h1, rest⟩
      · exact .inl (by simp [h3])
      · exact .inr (.inr (.inr (.inr ⟨h0, h1, rest, rfl, h3, by simp [h3]⟩)))

/-- A decoded run header is well formed: no header field is out of range (rule R100). -/
theorem decodeHeader_wellFormed {bs rest : List Byte} {r : Run}
    (h : decodeHeader bs = .ok (r, rest)) : r.toInstr.wellFormed = true := by
  have hb3 : ∀ x : BitVec 3, x.toNat < 8 := fun x => x.isLt
  have hb5 : ∀ x : BitVec 5, x.toNat < 32 := fun x => x.isLt
  rcases decodeHeader_cases bs with h' | ⟨h0, rest', -, -, h'⟩ | ⟨h0, h1, rest', -, -, h'⟩ |
    ⟨h0, h1, h2, h3, rest', -, -, h'⟩ | ⟨h0, h1, rest', -, -, h'⟩ <;> rw [h'] at h <;>
    simp only [Except.ok.injEq, Prod.mk.injEq, reduceCtorEq] at h
  · obtain ⟨rfl, -⟩ := h
    have ha := hb3 (h0.extractLsb' 3 3)
    have hb := hb3 (h0.extractLsb' 0 3)
    simp only [srOfHeader, Run.toInstr, Instr.wellFormed, Bool.and_eq_true, decide_eq_true_eq]
    omega
  · obtain ⟨rfl, -⟩ := h
    simp [directOfHeader, Run.toInstr, Instr.wellFormed, isTableWidth_widthOfCode, lengthOk_iff,
      lengthField_range]
  · obtain ⟨rfl, -⟩ := h
    have ha := hb3 (h2.extractLsb' 5 3)
    have hb := hb3 (h3.extractLsb' 5 3)
    have hc := hb5 (h3.extractLsb' 0 5)
    have hl := (lengthOk_iff _).mpr (lengthField_range h0 h1)
    simp only [pbOfHeader, Run.toInstr, Instr.wellFormed, isTableWidth_widthOfCode, hl,
      Bool.and_eq_true, decide_eq_true_eq, true_and, and_true]
    omega
  · obtain ⟨rfl, -⟩ := h
    simp only [deltaOfHeader, Run.toInstr, Instr.wellFormed, Bool.and_eq_true, lengthOk_iff,
      lengthField_range, and_true]
    exact deltaWidth_ok _

/-- With a whole header at hand the decoder answers (rule R82). -/
theorem decodeHeader_of_length {h0 : Byte} {rest : List Byte}
    (h : headerLength (tagOf h0) ≤ rest.length + 1) :
    ∃ r rest', decodeHeader (h0 :: rest) = .ok (r, rest') := by
  unfold headerLength at h
  unfold decodeHeader
  split_ifs at h ⊢ <;> rcases rest with - | ⟨h1, - | ⟨h2, - | ⟨h3, rest⟩⟩⟩ <;>
    simp_all

end Sys2Proof.Laws
end

