-- ==== Sys2Proof/Laws/Reader.lean ====
section
/-! SUPPORT. What each read primitive can do, said once: its value in closed form where the stream
holds the bytes it needs, and its reach (which bytes it fetched) in every case. -/

namespace Sys2Proof.Laws

open Sys2Proof.Machine

/-! ### The one memory read -/

/-- Everything `StreamRead` can do. -/
theorem streamRead_ok {inp : Memory} {c c' : Cursor} {b : Byte} :
    streamRead inp c = .ok (b, c') ↔ Memory.read? inp c.spos = some b ∧ c' = c.advance 1 := by
  unfold streamRead Cursor.advance
  cases Memory.read? inp c.spos <;> simp [eq_comm]

/-- `StreamRead` fails only at the end of data, with `TruncatedStream`. -/
theorem streamRead_error {inp : Memory} {c : Cursor} {k : ErrorKind} :
    streamRead inp c = .error k ↔ Memory.read? inp c.spos = none ∧ k = .truncatedStream := by
  unfold streamRead
  cases Memory.read? inp c.spos <;> simp [eq_comm]

theorem readByte_of_read? {inp : Memory} {c : Cursor} {b : Byte}
    (h : Memory.read? inp c.spos = some b) : readByte inp c = .ok (b, c.advance 1) :=
  streamRead_ok.mpr ⟨h, rfl⟩

@[simp] theorem advance_spos (c : Cursor) (n : Nat) : (c.advance n).spos = c.spos + n := rfl
@[simp] theorem advance_bitsLeft (c : Cursor) (n : Nat) : (c.advance n).bitsLeft = c.bitsLeft := rfl
@[simp] theorem advance_curByte (c : Cursor) (n : Nat) : (c.advance n).curByte = c.curByte := rfl
@[simp] theorem advance_zero (c : Cursor) : c.advance 0 = c := rfl
@[simp] theorem advance_advance (c : Cursor) (m n : Nat) :
    (c.advance m).advance n = c.advance (m + n) := by simp [Cursor.advance, Nat.add_assoc]

/-! ### Reach: the bytes a read fetched -/

/-- From `c` to `c'` some bytes the stream holds were fetched, and the cursor stays in range. -/
structure Fetched (inp : Memory) (c c' : Cursor) : Prop where
  bytes : ∃ bs, Holds inp c.spos bs ∧ c'.spos = c.spos + bs.length
  bitsLeft_le : c.bitsLeft ≤ 8 → c'.bitsLeft ≤ 8

theorem Fetched.refl (inp : Memory) (c : Cursor) : Fetched inp c c :=
  ⟨⟨[], holds_nil _ _, by simp⟩, id⟩

theorem Fetched.trans {inp : Memory} {c₁ c₂ c₃ : Cursor} (h : Fetched inp c₁ c₂)
    (h' : Fetched inp c₂ c₃) : Fetched inp c₁ c₃ := by
  obtain ⟨⟨bs, hb, hs⟩, hl⟩ := h
  obtain ⟨⟨bs', hb', hs'⟩, hl'⟩ := h'
  refine ⟨⟨bs ++ bs', holds_append.mpr ⟨hb, hs ▸ hb'⟩, ?_⟩, fun h => hl' (hl h)⟩
  rw [hs', hs, List.length_append, Nat.add_assoc]

/-- A fetch ends within the stream. -/
theorem Fetched.spos_le {inp : Memory} {c c' : Cursor} (h : Fetched inp c c')
    (hw : Memory.wf inp = true) (hc : c.spos ≤ Memory.size inp) : c'.spos ≤ Memory.size inp := by
  obtain ⟨⟨bs, hb, hs⟩, -⟩ := h
  rw [hs]
  by_contra hlt
  have hpos : 0 < bs.length := by omega
  have := hb (bs.length - 1) (by omega)
  rw [List.getElem?_eq_getElem (by omega)] at this
  have := memory_read?_lt hw this
  omega

theorem fetched_readByte {inp : Memory} {c c' : Cursor} {b : Byte}
    (h : readByte inp c = .ok (b, c')) : Fetched inp c c' := by
  obtain ⟨hr, rfl⟩ := streamRead_ok.mp h
  exact ⟨⟨[b], holds_cons.mpr ⟨hr, holds_nil _ _⟩, rfl⟩, id⟩

theorem readByte_error {inp : Memory} {c : Cursor} {k : ErrorKind}
    (h : readByte inp c = .error k) : k = .truncatedStream := (streamRead_error.mp h).2

theorem fetched_readLongBEFrom {inp : Memory} {n : Nat} {v v' : Word} {c c' : Cursor}
    (h : readLongBEFrom inp n v c = .ok (v', c')) : Fetched inp c c' := by
  induction n generalizing v c with
  | zero => simp only [readLongBEFrom, Except.ok.injEq, Prod.mk.injEq] at h; exact h.2 ▸ .refl _ _
  | succ n ih =>
    obtain ⟨⟨b, c₁⟩, h₁, h₂⟩ := except_bind_eq_ok.mp h
    exact (fetched_readByte h₁).trans (ih h₂)

theorem readLongBEFrom_error {inp : Memory} {n : Nat} {v : Word} {c : Cursor} {k : ErrorKind}
    (h : readLongBEFrom inp n v c = .error k) : k = .truncatedStream := by
  induction n generalizing v c with
  | zero => simp [readLongBEFrom] at h
  | succ n ih =>
    rcases except_bind_eq_error.mp h with h | ⟨⟨b, c₁⟩, -, h⟩
    · exact readByte_error h
    · exact ih h

theorem fetched_readLongBE {inp : Memory} {n : Nat} {v : Word} {c c' : Cursor}
    (h : readLongBE inp n c = .ok (v, c')) : Fetched inp c c' := fetched_readLongBEFrom h

theorem readLongBE_error {inp : Memory} {n : Nat} {c : Cursor} {k : ErrorKind}
    (h : readLongBE inp n c = .error k) : k = .truncatedStream := readLongBEFrom_error h

theorem fetched_readVulongFrom {inp : Memory} {fuel off : Nat} {v v' : Word} {c c' : Cursor}
    (h : readVulongFrom inp fuel v off c = .ok (v', c')) : Fetched inp c c' := by
  induction fuel generalizing v off c with
  | zero => simp [readVulongFrom] at h
  | succ fuel ih =>
    obtain ⟨⟨b, c₁⟩, h₁, h₂⟩ := except_bind_eq_ok.mp h
    dsimp only at h₂
    split at h₂
    · exact (fetched_readByte h₁).trans (ih h₂)
    · simp only [Except.ok.injEq, Prod.mk.injEq] at h₂
      exact h₂.2 ▸ fetched_readByte h₁

theorem readVulongFrom_error {inp : Memory} {fuel off : Nat} {v : Word} {c : Cursor}
    {k : ErrorKind} (h : readVulongFrom inp fuel v off c = .error k) : k = .truncatedStream := by
  induction fuel generalizing v off c with
  | zero => simpa [readVulongFrom, eq_comm] using h
  | succ fuel ih =>
    rcases except_bind_eq_error.mp h with h | ⟨⟨b, c₁⟩, -, h⟩
    · exact readByte_error h
    · dsimp only at h
      split at h
      · exact ih h
      · simp at h

theorem fetched_readVulong {inp : Memory} {v : Word} {c c' : Cursor}
    (h : readVulong inp c = .ok (v, c')) : Fetched inp c c' := fetched_readVulongFrom h

theorem readVulong_error {inp : Memory} {c : Cursor} {k : ErrorKind}
    (h : readVulong inp c = .error k) : k = .truncatedStream := readVulongFrom_error h

/-- A signed varint is the zig-zag decoding of an unsigned one. -/
theorem readVslong_ok {inp : Memory} {v : Word} {c c' : Cursor} :
    readVslong inp c = .ok (v, c') ↔
      ∃ z, readVulong inp c = .ok (z, c') ∧ v = zigzagDecode z := by
  unfold readVslong
  constructor
  · intro h
    obtain ⟨⟨z, c₁⟩, h₁, h₂⟩ := except_bind_eq_ok.mp h
    simp only [Except.ok.injEq, Prod.mk.injEq] at h₂
    exact ⟨z, h₂.2 ▸ h₁, h₂.1.symm⟩
  · rintro ⟨z, h, rfl⟩
    rw [h]; rfl

theorem fetched_readVslong {inp : Memory} {v : Word} {c c' : Cursor}
    (h : readVslong inp c = .ok (v, c')) : Fetched inp c c' := by
  obtain ⟨z, h, -⟩ := readVslong_ok.mp h
  exact fetched_readVulong h

theorem readVslong_error {inp : Memory} {c : Cursor} {k : ErrorKind}
    (h : readVslong inp c = .error k) : k = .truncatedStream := by
  rcases except_bind_eq_error.mp h with h | ⟨⟨b, c₁⟩, -, h⟩
  · exact readVulong_error h
  · simp at h

theorem takeBits_spos (r : Word) (need : Nat) (c : Cursor) :
    (takeBits r need c).2.spos = c.spos := by
  unfold takeBits; split <;> rfl

theorem takeBits_bitsLeft_le (r : Word) (need : Nat) (c : Cursor) :
    (takeBits r need c).2.bitsLeft ≤ c.bitsLeft := by
  unfold takeBits; split <;> simp

theorem fetched_takeBits (inp : Memory) (r : Word) (need : Nat) (c : Cursor) :
    Fetched inp c (takeBits r need c).2 :=
  ⟨⟨[], holds_nil _ _, by simp [takeBits_spos]⟩,
    fun h => le_trans (takeBits_bitsLeft_le r need c) h⟩

theorem fetched_readValueFrom {inp : Memory} {fuel need : Nat} {r v : Word} {c c' : Cursor}
    (h : readValueFrom inp fuel r need c = .ok (v, c')) : Fetched inp c c' := by
  induction fuel generalizing r need c with
  | zero =>
    simp only [readValueFrom, Except.ok.injEq] at h
    have := fetched_takeBits inp r need c
    rwa [h] at this
  | succ fuel ih =>
    unfold readValueFrom at h
    split at h
    · obtain ⟨⟨b, c₁⟩, h₁, h₂⟩ := except_bind_eq_ok.mp h
      obtain ⟨⟨bs, hb, hs⟩, -⟩ := fetched_readByte h₁
      have hf : Fetched inp c { c₁ with curByte := b, bitsLeft := 8 } :=
        ⟨⟨bs, hb, hs⟩, fun _ => le_refl 8⟩
      exact hf.trans (ih h₂)
    · simp only [Except.ok.injEq] at h
      have := fetched_takeBits inp r need c
      rwa [h] at this

theorem readValueFrom_error {inp : Memory} {fuel need : Nat} {r : Word} {c : Cursor}
    {k : ErrorKind} (h : readValueFrom inp fuel r need c = .error k) : k = .truncatedStream := by
  induction fuel generalizing r need c with
  | zero => simp [readValueFrom] at h
  | succ fuel ih =>
    unfold readValueFrom at h
    split at h
    · rcases except_bind_eq_error.mp h with h | ⟨⟨b, c₁⟩, -, h⟩
      · exact readByte_error h
      · exact ih h
    · simp at h

/-- Everything `readLongs` can do: as many values as asked for, or `TruncatedStream`. -/
theorem readLongs_ok {inp : Memory} {n w : Nat} {vs : List Word} {c c' : Cursor}
    (h : readLongs inp n w c = .ok (vs, c')) : vs.length = n ∧ Fetched inp c c' := by
  induction n generalizing c vs with
  | zero =>
    simp only [readLongs, Except.ok.injEq, Prod.mk.injEq] at h
    exact ⟨by rw [← h.1]; rfl, h.2 ▸ .refl _ _⟩
  | succ n ih =>
    obtain ⟨⟨v, c₁⟩, h₁, h₂⟩ := except_bind_eq_ok.mp h
    obtain ⟨⟨vs', c₂⟩, h₃, h₄⟩ := except_bind_eq_ok.mp h₂
    simp only [Except.ok.injEq, Prod.mk.injEq] at h₄
    obtain ⟨rfl, rfl⟩ := h₄
    obtain ⟨hl, hf⟩ := ih h₃
    exact ⟨by rw [List.length_cons, hl], (fetched_readValueFrom h₁).trans hf⟩

theorem readLongs_error {inp : Memory} {n w : Nat} {c : Cursor} {k : ErrorKind}
    (h : readLongs inp n w c = .error k) : k = .truncatedStream := by
  induction n generalizing c with
  | zero => simp [readLongs] at h
  | succ n ih =>
    rcases except_bind_eq_error.mp h with h | ⟨⟨v, c₁⟩, -, h⟩
    · exact readValueFrom_error h
    · rcases except_bind_eq_error.mp h with h | ⟨⟨v, c₁⟩, -, h⟩
      · exact ih h
      · simp at h

theorem readBytes_ok {inp : Memory} {n : Nat} {bs : List Byte} {c c' : Cursor} :
    readBytes inp n c = .ok (bs, c') ↔
      bs.length = n ∧ Holds inp c.spos bs ∧ c' = c.advance n := by
  induction n generalizing c bs c' with
  | zero =>
    simp only [readBytes, Except.ok.injEq, Prod.mk.injEq, List.length_eq_zero_iff, advance_zero]
    constructor
    · rintro ⟨rfl, rfl⟩; exact ⟨rfl, holds_nil _ _, rfl⟩
    · rintro ⟨rfl, -, rfl⟩; exact ⟨rfl, rfl⟩
  | succ n ih =>
    constructor
    · intro h
      obtain ⟨⟨b, c₁⟩, h₁, h₂⟩ := except_bind_eq_ok.mp h
      obtain ⟨⟨bs', c₂⟩, h₃, h₄⟩ := except_bind_eq_ok.mp h₂
      simp only [Except.ok.injEq, Prod.mk.injEq] at h₄
      obtain ⟨rfl, rfl⟩ := h₄
      obtain ⟨hr, rfl⟩ := streamRead_ok.mp h₁
      obtain ⟨hl, hh, rfl⟩ := ih.mp h₃
      refine ⟨by rw [List.length_cons, hl], holds_cons.mpr ⟨hr, hh⟩, ?_⟩
      rw [advance_advance, Nat.add_comm 1]
    · rintro ⟨hl, hh, rfl⟩
      cases bs with
      | nil => simp at hl
      | cons b bs =>
        obtain ⟨hr, hh⟩ := holds_cons.mp hh
        simp only [readBytes, readByte_of_read? hr, except_bind_ok]
        rw [(ih (c := c.advance 1) (bs := bs) (c' := (c.advance 1).advance n)).mpr
          ⟨by simpa using hl, hh, rfl⟩]
        simp [Nat.add_comm 1]

theorem readBytes_error {inp : Memory} {n : Nat} {c : Cursor} {k : ErrorKind}
    (h : readBytes inp n c = .error k) : k = .truncatedStream := by
  induction n generalizing c with
  | zero => simp [readBytes] at h
  | succ n ih =>
    rcases except_bind_eq_error.mp h with h | ⟨⟨v, c₁⟩, -, h⟩
    · exact readByte_error h
    · rcases except_bind_eq_error.mp h with h | ⟨⟨v, c₁⟩, -, h⟩
      · exact ih h
      · simp at h

/-! ### Where a read is cut short (rule R272) -/

theorem readLongBEFrom_ok_spos {inp : Memory} {n : Nat} {v v' : Word} {c c' : Cursor}
    (h : readLongBEFrom inp n v c = .ok (v', c')) : c' = c.advance n := by
  induction n generalizing v c with
  | zero => simp only [readLongBEFrom, Except.ok.injEq, Prod.mk.injEq] at h; exact h.2.symm
  | succ n ih =>
    obtain ⟨⟨b, c₁⟩, h₁, h₂⟩ := except_bind_eq_ok.mp h
    obtain ⟨-, rfl⟩ := streamRead_ok.mp h₁
    rw [ih h₂, advance_advance, Nat.add_comm 1]

theorem readLongBE_cut_short {inp : Memory} {n : Nat} {c : Cursor} (hw : Memory.wf inp = true)
    (hs : c.spos ≤ Memory.size inp) (h : Memory.size inp < c.spos + n) :
    readLongBE inp n c = .error .truncatedStream := by
  cases hr : readLongBE inp n c with
  | error k => rw [readLongBE_error hr]
  | ok p =>
    have hle := (fetched_readLongBE hr).spos_le hw hs
    rw [readLongBEFrom_ok_spos hr, advance_spos] at hle
    omega

theorem readBytes_cut_short {inp : Memory} {n : Nat} {c : Cursor} (hw : Memory.wf inp = true)
    (hs : c.spos ≤ Memory.size inp) (h : Memory.size inp < c.spos + n) :
    readBytes inp n c = .error .truncatedStream := by
  cases hr : readBytes inp n c with
  | error k => rw [readBytes_error hr]
  | ok p =>
    obtain ⟨hl, hh, -⟩ := readBytes_ok.mp hr
    have : Fetched inp c (c.advance n) := ⟨⟨p.1, hh, by rw [hl]; rfl⟩, id⟩
    have := this.spos_le hw hs
    simp only [advance_spos] at this
    omega

theorem readVulongFrom_unended {inp : Memory} {fuel off : Nat} {v : Word} {c : Cursor}
    (h : NoVarintFrom inp c.spos) : readVulongFrom inp fuel v off c = .error .truncatedStream := by
  induction fuel generalizing v off c with
  | zero => rfl
  | succ fuel ih =>
    unfold readVulongFrom
    cases hr : Memory.read? inp c.spos with
    | none =>
      have : readByte inp c = .error .truncatedStream := streamRead_error.mpr ⟨hr, rfl⟩
      rw [this]; rfl
    | some b =>
      have hb : b.msb = true := h _ _ (le_refl _) hr
      rw [readByte_of_read? hr, except_bind_ok]
      simp only [hb, if_true]
      exact ih fun i b' hi => h i b' (by simp only [advance_spos] at hi; omega)

/-- A varint that never ends raises `TruncatedStream` (rules R124, R272). -/
theorem readVulong_unended {inp : Memory} {c : Cursor} (h : NoVarintFrom inp c.spos) :
    readVulong inp c = .error .truncatedStream := readVulongFrom_unended h

theorem readVslong_unended {inp : Memory} {c : Cursor} (h : NoVarintFrom inp c.spos) :
    readVslong inp c = .error .truncatedStream := by
  unfold readVslong; rw [readVulong_unended h]; rfl

/-! ### Values in closed form -/

theorem readLongBEFrom_holds {inp : Memory} {c : Cursor} {bs : List Byte} (x : Nat)
    (h : Holds inp c.spos bs) :
    readLongBEFrom inp bs.length (BitVec.ofNat 64 x) c =
      .ok (BitVec.ofNat 64 (bs.foldl (fun v b => 256 * v + b.toNat) x), c.advance bs.length) := by
  induction bs generalizing c x with
  | nil => rfl
  | cons b bs ih =>
    obtain ⟨hr, hh⟩ := holds_cons.mp h
    simp only [List.length_cons, readLongBEFrom, readByte_of_read? hr, except_bind_ok]
    rw [setWidth64_eq_ofNat, shiftLeft_or_ofNat _ _ 8 b.isLt, ih (c := c.advance 1) _ hh]
    simp [Nat.mul_comm, Nat.add_comm]

theorem varint_nonempty {bs : List Byte} (h : IsVarint bs) : bs ≠ [] := by
  rintro rfl; exact h

theorem and_0x7f_toNat (b : Byte) : (b &&& 0x7f).toNat = b.toNat % 128 := by
  rw [BitVec.toNat_and]
  exact Nat.and_two_pow_sub_one_eq_mod b.toNat 7

/-- One turn of the varint loop: the payload bits go above the ones read so far, and those beyond
bit 63 are dropped. -/
theorem varint_turn (x off : Nat) (b : Byte) (hx : x < 2 ^ off) :
    (if off < 64 then BitVec.ofNat 64 x ||| ((b &&& 0x7f).setWidth 64 <<< off)
      else BitVec.ofNat 64 x) = BitVec.ofNat 64 (x + b.toNat % 128 * 2 ^ off) := by
  split
  · rw [setWidth64_eq_ofNat, and_0x7f_toNat, ← ofNat_shiftLeft, ← ofNat_or, Nat.or_comm,
      ← Nat.shiftLeft_add_eq_or_of_lt hx, Nat.shiftLeft_eq, Nat.add_comm]
  · next hoff =>
    apply BitVec.eq_of_toNat_eq
    obtain ⟨j, rfl⟩ := Nat.exists_eq_add_of_le (Nat.le_of_not_lt hoff)
    rw [BitVec.toNat_ofNat, BitVec.toNat_ofNat, Nat.pow_add,
      show b.toNat % 128 * (2 ^ 64 * 2 ^ j) = 2 ^ 64 * (b.toNat % 128 * 2 ^ j) by ring,
      Nat.add_mul_mod_self_left]

theorem readVulongFrom_holds {inp : Memory} {bs : List Byte} {c : Cursor} {fuel off x : Nat}
    (h : Holds inp c.spos bs) (hv : IsVarint bs) (hf : bs.length ≤ fuel) (hx : x < 2 ^ off) :
    readVulongFrom inp fuel (BitVec.ofNat 64 x) off c =
      .ok (BitVec.ofNat 64 (x + varintNat bs * 2 ^ off), c.advance bs.length) := by
  induction bs generalizing c fuel off x with
  | nil => exact hv.elim
  | cons b bs ih =>
    obtain ⟨hr, hh⟩ := holds_cons.mp h
    obtain ⟨fuel, rfl⟩ : ∃ f, fuel = f + 1 := ⟨fuel - 1, by simp at hf; omega⟩
    simp only [readVulongFrom, readByte_of_read? hr, except_bind_ok, varint_turn x off b hx]
    cases bs with
    | nil =>
      have hb : b.msb = false := hv
      simp [hb, varintNat]
    | cons b' bs =>
      obtain ⟨hb, hv'⟩ : b.msb = true ∧ IsVarint (b' :: bs) := hv
      have hlt : b.toNat % 128 < 128 := Nat.mod_lt _ (by omega)
      have hx' : x + b.toNat % 128 * 2 ^ off < 2 ^ (off + 7) := by
        rw [Nat.pow_add]; nlinarith
      rw [hb, if_pos rfl, ih (c := c.advance 1) hh hv' (by simpa using hf) hx',
        varintNat.eq_2 b (b' :: bs)]
      rw [advance_advance, List.length_cons (a := b), Nat.add_comm 1]
      congr 3
      rw [Nat.pow_add]; ring

/-- A stream in canonical form has at least as many bytes as it holds anywhere. -/
theorem holds_length_le {inp : Memory} {a : Nat} {bs : List Byte} (hw : Memory.wf inp = true)
    (h : Holds inp a bs) : bs.length ≤ Memory.size inp := by
  by_contra hlt
  have := h (bs.length - 1) (by omega)
  rw [List.getElem?_eq_getElem (by omega)] at this
  have := memory_read?_lt hw this
  omega

end Sys2Proof.Laws
end

