-- ==== Sys2Proof/Laws/Unpacker.lean ====
section
/-! SUPPORT. The bit-unpacker in closed form: the values of `readLongs` are the fields of the bit
string that the pending bits and the fetched bytes make (`40_bit_primitives.md` rule R131). -/

namespace Sys2Proof.Laws

open Sys2Proof.Machine

/-- The cursor with `need` bits handed out. -/
theorem takeBits_holds (x need : Nat) (c : Cursor) (hc : c.bitsLeft ≤ 8) (hn : need ≤ c.bitsLeft) :
    takeBits (BitVec.ofNat 64 x) need c =
      (BitVec.ofNat 64 (x * 2 ^ need + numberOfBits ((pendingBits c).take need)),
        { c with bitsLeft := c.bitsLeft - need }) := by
  have hlt : numberOfBits ((pendingBits c).take need) < 2 ^ need := by
    have := numberOfBits_lt ((pendingBits c).take need)
    rwa [List.length_take, pendingBits_length c hc, Nat.min_eq_left hn] at this
  have hval : ((c.curByte >>> (c.bitsLeft - need)) &&& lowMask8 need).toNat =
      numberOfBits ((pendingBits c).take need) := by
    rw [and_lowMask8_toNat _ _ (by omega), numberOfBits_take, pendingBits_number c hc,
      pendingBits_length c hc, BitVec.toNat_ushiftRight, Nat.shiftRight_eq_div_pow,
      show 2 ^ c.bitsLeft = 2 ^ (c.bitsLeft - need) * 2 ^ need by
        rw [← Nat.pow_add]; congr 1; omega, Nat.mod_mul_right_div_self]
  unfold takeBits
  split
  · dsimp only
    rw [setWidth64_eq_ofNat, hval, shiftLeft_or_ofNat _ _ _ hlt]
  · next h =>
    have : need = 0 := by omega
    subst this
    simp

theorem pendingBits_drop (c : Cursor) (need : Nat) (hc : c.bitsLeft ≤ 8) (hn : need ≤ c.bitsLeft) :
    pendingBits { c with bitsLeft := c.bitsLeft - need } = (pendingBits c).drop need := by
  simp only [pendingBits, List.drop_drop]
  congr 1; omega

/-- What unpacking leaves of the cursor: the bits not handed out are still pending. -/
structure Unpacked (c c' : Cursor) (bs : List Byte) (used : Nat) : Prop where
  spos_eq : c'.spos = c.spos + bs.length
  bitsLeft_eq : c'.bitsLeft = c.bitsLeft + 8 * bs.length - used
  curByte_eq : c'.curByte = bs.getLastD c.curByte
  pending_eq : pendingBits c' = (pendingBits c ++ bitsOf bs).drop used

theorem readValueFrom_holds {inp : Memory} {bs : List Byte} {c : Cursor} {fuel need x : Nat}
    (h : Holds inp c.spos bs) (hc : c.bitsLeft ≤ 8) (hl : bs.length = (need - c.bitsLeft + 7) / 8)
    (hf : bs.length ≤ fuel) :
    ∃ c', readValueFrom inp fuel (BitVec.ofNat 64 x) need c =
        .ok (BitVec.ofNat 64
          (x * 2 ^ need + numberOfBits ((pendingBits c ++ bitsOf bs).take need)), c') ∧
      Unpacked c c' bs need := by
  induction bs generalizing c fuel need x with
  | nil =>
    have hn : need ≤ c.bitsLeft := by simp at hl; omega
    refine ⟨{ c with bitsLeft := c.bitsLeft - need }, ?_, rfl, rfl, rfl, ?_⟩
    · have : readValueFrom inp fuel (BitVec.ofNat 64 x) need c =
          .ok (takeBits (BitVec.ofNat 64 x) need c) := by
        cases fuel with
        | zero => rfl
        | succ fuel => rw [readValueFrom, if_neg (by omega)]
      rw [this, takeBits_holds x need c hc hn]
      simp
    · simpa using pendingBits_drop c need hc hn
  | cons b bs ih =>
    obtain ⟨hr, hh⟩ := holds_cons.mp h
    simp only [List.length_cons] at hl hf
    have hlt : c.bitsLeft < need := by omega
    obtain ⟨fuel, rfl⟩ : ∃ f, fuel = f + 1 := ⟨fuel - 1, by omega⟩
    have hpart : (c.curByte &&& lowMask8 c.bitsLeft).toNat = numberOfBits (pendingBits c) := by
      rw [and_lowMask8_toNat _ _ hc, pendingBits_number c hc]
    have hplt : numberOfBits (pendingBits c) < 2 ^ c.bitsLeft := by
      have := numberOfBits_lt (pendingBits c)
      rwa [pendingBits_length c hc] at this
    obtain ⟨c', hv, hs, hb, hcur, hp⟩ := ih (c := ⟨c.spos + 1, 8, b⟩)
      (fuel := fuel) (need := need - c.bitsLeft)
      (x := x * 2 ^ c.bitsLeft + numberOfBits (pendingBits c)) hh (le_refl 8)
      (by dsimp only; omega) (by omega)
    rw [pendingBits_fresh] at hv hp
    dsimp only at hs hb hcur
    refine ⟨c', ?_, ?_, ?_, ?_, ?_⟩
    · rw [readValueFrom, if_pos hlt]
      simp only [readByte_of_read? hr, except_bind_ok]
      rw [setWidth64_eq_ofNat, hpart, shiftLeft_or_ofNat _ _ _ hplt]
      simp only [advance_spos]
      rw [hv, bitsOf_cons, List.take_append (l₁ := pendingBits c), pendingBits_length c hc,
        List.take_of_length_le (l := pendingBits c) (by rw [pendingBits_length c hc]; omega),
        numberOfBits_append (pendingBits c)]
      congr 3
      have hlen : ((bitsOfByte b ++ bitsOf bs).take (need - c.bitsLeft)).length =
          need - c.bitsLeft := by
        rw [List.length_take, List.length_append, bitsOf_length, bitsOfByte_length]; omega
      rw [hlen, show 2 ^ need = 2 ^ c.bitsLeft * 2 ^ (need - c.bitsLeft) by
        rw [← Nat.pow_add]; congr 1; omega]
      ring
    · rw [hs, List.length_cons]; omega
    · rw [hb, List.length_cons]; omega
    · rw [hcur, List.getLastD_cons]
    · rw [hp, bitsOf_cons, List.drop_append (l₁ := pendingBits c), pendingBits_length c hc,
        List.drop_of_length_le (l := pendingBits c) (by rw [pendingBits_length c hc]; omega),
        List.nil_append]

@[simp] theorem fieldsOf_zero (bits : List Bool) (w : Nat) : fieldsOf bits 0 w = [] := rfl

@[simp] theorem fieldsOf_length (bits : List Bool) (n w : Nat) : (fieldsOf bits n w).length = n := by
  simp [fieldsOf]

theorem fieldsOf_succ (bits : List Bool) (n w : Nat) :
    fieldsOf bits (n + 1) w =
      BitVec.ofNat 64 (numberOfBits (bits.take w)) :: fieldsOf (bits.drop w) n w := by
  unfold fieldsOf
  rw [List.range_succ_eq_map, List.map_cons, List.map_map]
  congr 1
  · simp [fieldAt]
  · apply List.map_congr_left
    intro i _
    simp only [Function.comp_apply, fieldAt, List.drop_drop, Nat.succ_eq_add_one]
    rw [show (i + 1) * w = w + i * w by ring]

theorem readLongs_holds' {inp : Memory} {n w : Nat} {bs : List Byte} {c : Cursor}
    (h : Holds inp c.spos bs) (hc : c.bitsLeft ≤ 8) (hl : bs.length = fetchCount c.bitsLeft n w) :
    ∃ c', readLongs inp n w c = .ok (fieldsOf (pendingBits c ++ bitsOf bs) n w, c') ∧
      Unpacked c c' bs (n * w) := by
  induction n generalizing c bs with
  | zero =>
    simp only [fetchCount, Nat.zero_mul, Nat.zero_sub, Nat.zero_add] at hl
    have : bs = [] := List.length_eq_zero_iff.mp (by omega)
    subst this
    refine ⟨c, rfl, ?_, ?_, rfl, ?_⟩ <;> simp
  | succ n ih =>
    have hmul : (n + 1) * w = n * w + w := by ring
    simp only [fetchCount, hmul] at hl
    generalize hm : n * w = m at hl
    have hsplit : bs.length = (w - c.bitsLeft + 7) / 8 +
        (m - (c.bitsLeft + 8 * ((w - c.bitsLeft + 7) / 8) - w) + 7) / 8 := by omega
    set len₁ := (w - c.bitsLeft + 7) / 8 with hlen₁
    have hbs : bs = bs.take len₁ ++ bs.drop len₁ := (List.take_append_drop _ _).symm
    have ht : (bs.take len₁).length = len₁ := by rw [List.length_take]; omega
    rw [hbs] at h
    obtain ⟨h₁, h₂⟩ := holds_append.mp h
    obtain ⟨c₁, hv, hs, hb, hcur, hp⟩ :=
      readValueFrom_holds (fuel := w + 1) (need := w) (x := 0) h₁ hc (by rw [ht]) (by omega)
    rw [ht] at hb
    rw [← hs] at h₂
    obtain ⟨c₂, hv₂, hs₂, hb₂, hcur₂, hp₂⟩ := ih (c := c₁) (bs := bs.drop len₁) h₂ (by omega)
      (by simp only [fetchCount, List.length_drop, hm]; omega)
    have hpend : pendingBits c₁ ++ bitsOf (bs.drop len₁) = (pendingBits c ++ bitsOf bs).drop w := by
      conv_rhs => rw [hbs, bitsOf_append, ← List.append_assoc]
      rw [hp, List.drop_append_of_le_length (l₂ := bitsOf (bs.drop len₁))]
      rw [List.length_append, pendingBits_length c hc, bitsOf_length, ht]; omega
    have htake : (pendingBits c ++ bitsOf (bs.take len₁)).take w =
        (pendingBits c ++ bitsOf bs).take w := by
      conv_rhs => rw [hbs, bitsOf_append, ← List.append_assoc]
      rw [List.take_append_of_le_length (l₂ := bitsOf (bs.drop len₁))]
      rw [List.length_append, pendingBits_length c hc, bitsOf_length, ht]; omega
    refine ⟨c₂, ?_, ?_, ?_, ?_, ?_⟩
    · simp only [readLongs, readValue]
      rw [show (0 : Word) = BitVec.ofNat 64 0 from rfl, hv, except_bind_ok]
      simp only [hv₂, except_bind_ok]
      rw [fieldsOf_succ, htake, hpend]
      simp
    · rw [hs₂, hs, ht, List.length_drop]; omega
    · rw [hb₂, hb, hmul, hm, List.length_drop]; omega
    · rw [hcur₂, hcur]
      conv_rhs => rw [hbs]
      cases hd : bs.drop len₁ with
      | nil => simp
      | cons y ys => simp [List.getLastD_eq_getLast?, List.getLast?_append]
    · rw [hp₂, hpend, List.drop_drop, hmul, hm, Nat.add_comm m w]

/-- The bit-unpacker in closed form (rule R131). -/
theorem readLongs_holds {inp : Memory} {n w : Nat} {bs : List Byte} {c : Cursor}
    (h : Holds inp c.spos bs) (hc : c.bitsLeft ≤ 8) (hl : bs.length = fetchCount c.bitsLeft n w) :
    readLongs inp n w c =
      .ok (fieldsOf (pendingBits c ++ bitsOf bs) n w, cursorAfter c bs n w) := by
  obtain ⟨c', hr, hs, hb, hcur, -⟩ := readLongs_holds' h hc hl
  rw [hr]
  congr 2
  obtain ⟨spos, bitsLeft, curByte⟩ := c'
  simp only [cursorAfter, Cursor.mk.injEq]
  refine ⟨hs, ?_, hcur⟩
  dsimp only at hb
  rw [hb]
  unfold fetchCount at hl
  split <;> omega

/-! ### How far the bit-unpacker reaches, and where it is cut short (rules R131, R272) -/

/-- From `c` to `c'` `used` bits were handed out and the fewest bytes that hold them fetched. -/
structure Reached (c c' : Cursor) (used : Nat) : Prop where
  spos_eq : c'.spos = c.spos + (used - c.bitsLeft + 7) / 8
  bitsLeft_eq : c'.bitsLeft = c.bitsLeft + 8 * ((used - c.bitsLeft + 7) / 8) - used

theorem Reached.trans {c₁ c₂ c₃ : Cursor} {m n : Nat} (h : Reached c₁ c₂ m)
    (h' : Reached c₂ c₃ n) : Reached c₁ c₃ (m + n) := by
  obtain ⟨hs, hb⟩ := h
  obtain ⟨hs', hb'⟩ := h'
  constructor <;> omega

theorem reached_takeBits (r : Word) {need : Nat} {c : Cursor} (h : need ≤ c.bitsLeft) :
    Reached c (takeBits r need c).2 need := by
  unfold takeBits
  split <;> constructor <;> dsimp only <;> omega

theorem reached_readValueFrom {inp : Memory} {fuel need : Nat} {r v : Word} {c c' : Cursor}
    (hf : (need - c.bitsLeft + 7) / 8 ≤ fuel)
    (h : readValueFrom inp fuel r need c = .ok (v, c')) : Reached c c' need := by
  induction fuel generalizing r need c with
  | zero =>
    simp only [readValueFrom, Except.ok.injEq] at h
    have := reached_takeBits r (need := need) (c := c) (by omega)
    rwa [h] at this
  | succ fuel ih =>
    unfold readValueFrom at h
    split at h
    · obtain ⟨⟨b, c₁⟩, h₁, h₂⟩ := except_bind_eq_ok.mp h
      obtain ⟨-, rfl⟩ := streamRead_ok.mp h₁
      obtain ⟨hs, hb⟩ := ih (by dsimp only; omega) h₂
      simp only [advance_spos] at hs hb
      constructor <;> omega
    · simp only [Except.ok.injEq] at h
      have := reached_takeBits r (need := need) (c := c) (by omega)
      rwa [h] at this

theorem reached_readLongs {inp : Memory} {n w : Nat} {vs : List Word} {c c' : Cursor}
    (hc : c.bitsLeft ≤ 8) (h : readLongs inp n w c = .ok (vs, c')) : Reached c c' (n * w) := by
  induction n generalizing c vs with
  | zero =>
    simp only [readLongs, Except.ok.injEq, Prod.mk.injEq] at h
    obtain ⟨-, rfl⟩ := h
    rw [Nat.zero_mul]
    constructor <;> omega
  | succ n ih =>
    obtain ⟨⟨v, c₁⟩, h₁, h₂⟩ := except_bind_eq_ok.mp h
    obtain ⟨⟨vs', c₂⟩, h₃, h₄⟩ := except_bind_eq_ok.mp h₂
    simp only [Except.ok.injEq, Prod.mk.injEq] at h₄
    obtain ⟨-, rfl⟩ := h₄
    have hr := reached_readValueFrom (by omega) h₁
    have := hr.trans (ih ((fetched_readValueFrom h₁).bitsLeft_le hc) h₃)
    rwa [Nat.add_comm w, ← Nat.succ_mul] at this

/-- A packed payload that is cut short raises `TruncatedStream` (rule R272). -/
theorem readLongs_cut_short {inp : Memory} {n w : Nat} {c : Cursor} (hw : Memory.wf inp = true)
    (hs : c.spos ≤ Memory.size inp) (hc : c.bitsLeft ≤ 8)
    (h : Memory.size inp < c.spos + fetchCount c.bitsLeft n w) :
    readLongs inp n w c = .error .truncatedStream := by
  cases hr : readLongs inp n w c with
  | error k => rw [readLongs_error hr]
  | ok p =>
    have := (reached_readLongs hc hr).spos_eq
    have := (readLongs_ok hr).2.spos_le hw hs
    unfold fetchCount at h
    omega

end Sys2Proof.Laws
end

