-- ==== Sys2Proof/Laws/Writer.lean ====
section
/-! SUPPORT. What each write primitive appends, in closed form, and that it keeps the sink counted
and in canonical form. -/

namespace Sys2Proof.Laws

open Sys2Proof.Machine

/-! ### Whole bytes -/

theorem counted_reset : WritePort.reset.Counted := ⟨rfl, rfl⟩

theorem counted_sinkWrite {p : WritePort} (h : p.Counted) (b : Byte) : (sinkWrite b p).Counted := by
  refine ⟨memory_wf_append h.out_wf b, ?_⟩
  rw [sinkWrite_bytesWritten, sinkWrite_out, memory_size_append, h.bytesWritten_eq]
  apply BitVec.eq_of_toNat_eq
  simp [BitVec.toNat_add]

/-- The port with some whole bytes appended; the bit cursor is untouched. -/
structure Appended (p p' : WritePort) (bs : List Byte) : Prop where
  bytes_eq : Memory.bytes p'.out = Memory.bytes p.out ++ bs
  counted : p.Counted → p'.Counted
  wbitsLeft_eq : p'.wbitsLeft = p.wbitsLeft
  wcurByte_eq : p'.wcurByte = p.wcurByte

theorem Appended.refl (p : WritePort) : Appended p p [] := ⟨by simp, id, rfl, rfl⟩

theorem Appended.trans {p₁ p₂ p₃ : WritePort} {xs ys : List Byte} (h : Appended p₁ p₂ xs)
    (h' : Appended p₂ p₃ ys) : Appended p₁ p₃ (xs ++ ys) :=
  ⟨by rw [h'.bytes_eq, h.bytes_eq, List.append_assoc], fun hc => h'.counted (h.counted hc),
    h'.wbitsLeft_eq.trans h.wbitsLeft_eq, h'.wcurByte_eq.trans h.wcurByte_eq⟩

theorem appended_writeByte (b : Byte) (p : WritePort) : Appended p (writeByte b p) [b] :=
  ⟨by simp [writeByte], fun h => counted_sinkWrite h b, rfl, rfl⟩

/-- The bytes of `writeLongBE` (rule R137): the low `8n` bits, most significant byte first. -/
def beBytes (v : Word) : Nat → List Byte
  | 0 => []
  | n + 1 => (v >>> (8 * n)).setWidth 8 :: beBytes v n

@[simp] theorem beBytes_length (v : Word) (n : Nat) : (beBytes v n).length = n := by
  induction n with
  | zero => rfl
  | succ n ih => simp [beBytes, ih]

theorem appended_writeLongBE (v : Word) (n : Nat) (p : WritePort) :
    Appended p (writeLongBE v n p) (beBytes v n) := by
  induction n generalizing p with
  | zero => exact .refl p
  | succ n ih => exact (appended_writeByte _ p).trans (ih _)

theorem beBytes_foldl (v : Word) (n x : Nat) :
    (beBytes v n).foldl (fun v b => 256 * v + b.toNat) x = x * 2 ^ (8 * n) + v.toNat % 2 ^ (8 * n) := by
  induction n generalizing x with
  | zero => simp [beBytes, Nat.mod_one]
  | succ n ih =>
    rw [beBytes, List.foldl_cons, ih]
    simp only [BitVec.toNat_setWidth, BitVec.toNat_ushiftRight, Nat.shiftRight_eq_div_pow]
    have h : v.toNat % 2 ^ (8 * (n + 1)) =
        v.toNat % 2 ^ (8 * n) + 2 ^ (8 * n) * (v.toNat / 2 ^ (8 * n) % 2 ^ 8) := by
      rw [show 8 * (n + 1) = 8 * n + 8 by ring, Nat.pow_add, Nat.mod_mul]
    rw [h, show 8 * (n + 1) = 8 * n + 8 by ring, Nat.pow_add]
    ring

/-- The bytes spell the value when it fits (rule R137). -/
theorem bytesToNat_beBytes (v : Word) (n : Nat) (h : v.toNat < 2 ^ (8 * n)) :
    bytesToNat (beBytes v n) = v.toNat := by
  rw [bytesToNat, beBytes_foldl, Nat.mod_eq_of_lt h]; simp

/-! ### Varints -/

/-- The bytes of `writeVulong` (rule R138). -/
def varintBytes : (fuel : Nat) → Nat → List Byte
  | 0, _ => []
  | fuel + 1, v =>
      if v < 128 then [BitVec.ofNat 8 v]
      else BitVec.ofNat 8 (128 + v % 128) :: varintBytes fuel (v / 128)

theorem or_0x80 (v : Word) :
    0x80 ||| (v.setWidth 8 &&& 0x7f) = BitVec.ofNat 8 (128 + v.toNat % 128) := by
  have h : v.setWidth 8 &&& 0x7f = BitVec.ofNat 8 (v.toNat % 128) := by
    apply BitVec.eq_of_toNat_eq
    rw [and_0x7f_toNat]
    simp only [BitVec.toNat_setWidth, BitVec.toNat_ofNat]
    omega
  rw [h]
  have : ∀ x : Fin 128, (0x80 : Byte) ||| BitVec.ofNat 8 x.val = BitVec.ofNat 8 (128 + x.val) := by
    decide +kernel
  exact this ⟨v.toNat % 128, Nat.mod_lt _ (by omega)⟩

theorem appended_writeVulongFrom (fuel : Nat) (v : Word) (p : WritePort) :
    Appended p (writeVulongFrom fuel v p) (varintBytes fuel v.toNat) := by
  induction fuel generalizing v p with
  | zero => exact .refl p
  | succ fuel ih =>
    unfold writeVulongFrom varintBytes
    split
    · have : v.setWidth 8 = BitVec.ofNat 8 v.toNat := by
        apply BitVec.eq_of_toNat_eq; simp
      rw [this]; exact appended_writeByte _ p
    · have h := ih (v >>> 7) (writeByte (0x80 ||| (v.setWidth 8 &&& 0x7f)) p)
      rw [BitVec.toNat_ushiftRight, Nat.shiftRight_eq_div_pow] at h
      rw [or_0x80] at h ⊢
      exact (appended_writeByte _ p).trans h

theorem appended_writeVulong (v : Word) (p : WritePort) :
    Appended p (writeVulong v p) (varintBytes 10 v.toNat) := appended_writeVulongFrom 10 v p

/-- With enough turns for its size, a number's varint is one and spells it (rule R138). -/
theorem varintBytes_spec (fuel v : Nat) (hf : v < 2 ^ (7 * (fuel + 1))) :
    IsVarint (varintBytes (fuel + 1) v) ∧ varintNat (varintBytes (fuel + 1) v) = v := by
  induction fuel generalizing v with
  | zero =>
    have hv : v < 128 := by simpa using hf
    rw [varintBytes, if_pos hv]
    refine ⟨?_, ?_⟩
    · show (BitVec.ofNat 8 v).msb = false
      rw [BitVec.msb_eq_decide]; simp; omega
    · simp [varintNat]; omega
  | succ fuel ih =>
    rw [varintBytes]
    split
    · next hv =>
      refine ⟨?_, ?_⟩
      · show (BitVec.ofNat 8 v).msb = false
        rw [BitVec.msb_eq_decide]; simp; omega
      · simp [varintNat]; omega
    · next hv =>
      have hlt : v / 128 < 2 ^ (7 * (fuel + 1)) := by
        rw [Nat.div_lt_iff_lt_mul (by omega)]
        calc v < 2 ^ (7 * (fuel + 1 + 1)) := hf
          _ = 2 ^ (7 * (fuel + 1)) * 128 := by
            rw [show 7 * (fuel + 1 + 1) = 7 * (fuel + 1) + 7 by ring, Nat.pow_add]
      obtain ⟨h1, h2⟩ := ih _ hlt
      obtain ⟨b, rest, hr⟩ := List.exists_cons_of_ne_nil (varint_nonempty h1)
      rw [hr] at h1 h2 ⊢
      refine ⟨⟨?_, h1⟩, ?_⟩
      · rw [BitVec.msb_eq_decide]; simp; omega
      · rw [varintNat.eq_2, h2]; simp; omega

/-! ### The packer -/

@[simp] theorem bitsOfWord_length (v : Word) (w : Nat) : (bitsOfWord v w).length = w := by
  simp [bitsOfWord]

theorem bitsOfWord_getElem (v : Word) (w i : Nat) (h : i < (bitsOfWord v w).length) :
    (bitsOfWord v w)[i] = v.getLsbD (w - 1 - i) := by
  simp [bitsOfWord]

theorem bitsOfByte_getElem (b : Byte) (i : Nat) (h : i < (bitsOfByte b).length) :
    (bitsOfByte b)[i] = b.getLsbD (7 - i) := by
  simp [bitsOfByte]

theorem bitsOfByte_take_all (b : Byte) : (bitsOfByte b).take 8 = bitsOfByte b := rfl

/-- A field's bits spell its low bits. -/
theorem numberOfBits_bitsOfWord (v : Word) (w : Nat) :
    numberOfBits (bitsOfWord v w) = v.toNat % 2 ^ w := by
  induction w with
  | zero => simp [bitsOfWord, Nat.mod_one]
  | succ w ih =>
    have hsplit : bitsOfWord v (w + 1) = [v.getLsbD w] ++ bitsOfWord v w := by
      apply List.ext_getElem
      · simp
      · intro i h₁ h₂
        rw [bitsOfWord_getElem, List.getElem_append]
        split
        · next hi =>
          have : i = 0 := by simpa using hi
          subst this; simp
        · next hi =>
          rw [bitsOfWord_getElem]
          simp only [List.length_singleton]
          congr 1
          simp only [List.length_singleton] at hi
          omega
    rw [hsplit, numberOfBits_append, ih, bitsOfWord_length, Nat.mod_pow_succ]
    have : numberOfBits [v.getLsbD w] = v.toNat / 2 ^ w % 2 := by
      rw [← Nat.toNat_testBit, BitVec.getLsbD]; cases v.toNat.testBit w <;> rfl
    rw [this]; ring

/-- The bits written so far: those of the bytes in the sink, then the pending ones (R34). -/
def writtenBits (p : WritePort) : List Bool :=
  bitsOf (Memory.bytes p.out) ++ (bitsOfByte p.wcurByte).take (8 - p.wbitsLeft)

/-- The write cursor in range, its free low-order bits clear (R34, R141). -/
structure PortReady (p : WritePort) : Prop where
  wbitsLeft_pos : 1 ≤ p.wbitsLeft
  wbitsLeft_le : p.wbitsLeft ≤ 8
  clear : ∀ i, i < p.wbitsLeft → p.wcurByte.getLsbD i = false

/-- A step of the packer: some bits are appended, and the port stays ready and counted. -/
structure Packed (p p' : WritePort) (bits : List Bool) : Prop where
  bits_eq : writtenBits p' = writtenBits p ++ bits
  counted : p.Counted → p'.Counted
  ready : PortReady p'
  grows : ∃ bs, Memory.bytes p'.out = Memory.bytes p.out ++ bs

/-- Filling the free bits of a byte from the top. -/
theorem fill_bits {cur x : Byte} {v : Word} {l need : Nat} (hl : l ≤ 8) (hn : need ≤ l)
    (hcur : ∀ i, i < l → cur.getLsbD i = false)
    (hx : ∀ i, i < 8 → x.getLsbD i =
      (decide (l - need ≤ i) && decide (i < l) && v.getLsbD (i - (l - need)))) :
    (bitsOfByte (cur ||| x)).take (8 - (l - need)) =
        (bitsOfByte cur).take (8 - l) ++ bitsOfWord v need ∧
      ∀ i, i < l - need → (cur ||| x).getLsbD i = false := by
  refine ⟨?_, ?_⟩
  · apply List.ext_getElem
    · simp; omega
    · intro i h₁ h₂
      have hi : i < 8 - (l - need) := by simp at h₁; omega
      rw [List.getElem_take, bitsOfByte_getElem, BitVec.getLsbD_or, hx _ (by omega),
        List.getElem_append]
      split
      · next h =>
        rw [List.getElem_take, bitsOfByte_getElem]
        simp only [List.length_take, bitsOfByte_length] at h
        have : ¬ (7 - i < l) := by omega
        simp [this]
      · next h =>
        rw [bitsOfWord_getElem, hcur _ (by simp at h; omega)]
        simp only [List.length_take, bitsOfByte_length] at h ⊢
        have h1 : l - need ≤ 7 - i := by omega
        have h2 : 7 - i < l := by omega
        simp only [h1, h2, decide_true, Bool.true_and, Bool.false_or]
        congr 1; omega
  · intro i hi
    have : ¬ (l - need ≤ i) := by omega
    rw [BitVec.getLsbD_or, hcur i (by omega), hx i (by omega)]
    simp [this]

theorem lowMask64_getLsbD (k i : Nat) : (lowMask64 k).getLsbD i = (decide (i < 64) && decide (i < k)) := by
  rw [lowMask64, BitVec.getLsbD_ofNat, Nat.testBit_two_pow_sub_one]

theorem packed_emitCurByte {p q : WritePort} {bits : List Bool} (hq : q.out = p.out)
    (hb : bitsOfByte q.wcurByte = (bitsOfByte p.wcurByte).take (8 - p.wbitsLeft) ++ bits)
    (hc : p.Counted → q.Counted) : Packed p (emitCurByte q) bits := by
  refine ⟨?_, fun h => ?_, ⟨by simp, by simp, fun i _ => by simp⟩, ⟨[q.wcurByte], ?_⟩⟩
  · simp only [writtenBits, emitCurByte_out, memory_bytes_append, hq, bitsOf_append, bitsOf_cons,
      bitsOf_nil, hb, emitCurByte_wbitsLeft]
    simp
  · have := counted_sinkWrite (hc h) q.wcurByte
    exact ⟨this.out_wf, this.bytesWritten_eq⟩
  · simp [hq]

theorem packed_putBits {p : WritePort} {v : Word} {need : Nat} (hp : PortReady p)
    (hn : need ≤ p.wbitsLeft) : Packed p (putBits v need p) (bitsOfWord v need) := by
  obtain ⟨h1, h8, hclear⟩ := hp
  obtain ⟨hb, hz⟩ := fill_bits (cur := p.wcurByte)
    (x := ((v &&& lowMask64 need) <<< (p.wbitsLeft - need)).setWidth 8) (v := v) h8 hn hclear (by
      intro i hi
      simp only [BitVec.getLsbD_setWidth, BitVec.getLsbD_shiftLeft, BitVec.getLsbD_and,
        lowMask64_getLsbD, hi, decide_true, Bool.true_and]
      by_cases h : i < p.wbitsLeft - need
      · have : ¬ (p.wbitsLeft - need ≤ i) := by omega
        simp [h, this]
      · have h' : p.wbitsLeft - need ≤ i := by omega
        by_cases h'' : i < p.wbitsLeft
        · have : i - (p.wbitsLeft - need) < need := by omega
          simp [h', h'', this, show ¬ (i < p.wbitsLeft - need) by omega, show i < 64 by omega,
            show i - (p.wbitsLeft - need) < 64 by omega]
        · have : ¬ (i - (p.wbitsLeft - need) < need) := by omega
          simp [h'', this])
  unfold putBits
  dsimp only
  split
  · next h0 =>
    rw [h0, Nat.sub_zero] at hb
    refine packed_emitCurByte rfl ?_ (fun h => ⟨h.out_wf, h.bytesWritten_eq⟩)
    rw [h0]
    rwa [bitsOfByte_take_all] at hb
  · next h0 =>
    refine ⟨?_, fun h => ⟨h.out_wf, h.bytesWritten_eq⟩, ⟨by dsimp only; omega, by dsimp only; omega, hz⟩,
      ⟨[], by simp⟩⟩
    simp only [writtenBits]
    rw [hb, List.append_assoc]

theorem Packed.trans {p₁ p₂ p₃ : WritePort} {xs ys : List Bool} (h : Packed p₁ p₂ xs)
    (h' : Packed p₂ p₃ ys) : Packed p₁ p₃ (xs ++ ys) := by
  obtain ⟨bs, hb⟩ := h.grows
  obtain ⟨bs', hb'⟩ := h'.grows
  exact ⟨by rw [h'.bits_eq, h.bits_eq, List.append_assoc], fun hc => h'.counted (h.counted hc),
    h'.ready, ⟨bs ++ bs', by rw [hb', hb, List.append_assoc]⟩⟩

theorem bitsOfWord_split (v : Word) (l need : Nat) (h : l ≤ need) :
    bitsOfWord v need = bitsOfWord (v >>> (need - l)) l ++ bitsOfWord v (need - l) := by
  apply List.ext_getElem
  · simp; omega
  · intro i h₁ h₂
    rw [bitsOfWord_getElem, List.getElem_append]
    simp only [bitsOfWord_length] at h₁ ⊢
    split
    · rw [bitsOfWord_getElem, BitVec.getLsbD_ushiftRight]; congr 1; omega
    · rw [bitsOfWord_getElem]; congr 1; omega

theorem packed_writeValueFrom {p : WritePort} {v : Word} {fuel need : Nat} (hp : PortReady p)
    (hn : 1 ≤ need) (hf : need ≤ p.wbitsLeft + 8 * fuel) :
    Packed p (writeValueFrom fuel v need p) (bitsOfWord v need) := by
  induction fuel generalizing p need with
  | zero => exact packed_putBits hp (by omega)
  | succ fuel ih =>
    unfold writeValueFrom
    split
    · next hlt =>
      dsimp only
      obtain ⟨h1, h8, hclear⟩ := hp
      obtain ⟨hb, -⟩ := fill_bits (cur := p.wcurByte)
        (x := ((v >>> (need - p.wbitsLeft)) &&& lowMask64 p.wbitsLeft).setWidth 8)
        (v := v >>> (need - p.wbitsLeft)) h8 (le_refl _) hclear (by
          intro i hi
          simp only [BitVec.getLsbD_setWidth, BitVec.getLsbD_and, lowMask64_getLsbD, hi,
            decide_true, Bool.true_and, Nat.sub_self, Nat.zero_le, Nat.sub_zero,
            show i < 64 by omega]
          rw [Bool.and_comm])
      rw [Nat.sub_self, Nat.sub_zero] at hb
      have hstep : Packed p (emitCurByte { p with
          wcurByte := p.wcurByte |||
            ((v >>> (need - p.wbitsLeft)) &&& lowMask64 p.wbitsLeft).setWidth 8 })
          (bitsOfWord (v >>> (need - p.wbitsLeft)) p.wbitsLeft) :=
        packed_emitCurByte rfl (by rwa [bitsOfByte_take_all] at hb) (fun h => ⟨h.out_wf, h.bytesWritten_eq⟩)
      rw [bitsOfWord_split v p.wbitsLeft need (by omega)]
      exact hstep.trans (ih hstep.ready (by omega) (by simp; omega))
    · exact packed_putBits hp (by omega)

theorem bitsOfWord_masked (v : Word) (w : Nat) :
    bitsOfWord (if w < 64 then v &&& lowMask64 w else v) w = bitsOfWord v w := by
  split
  · apply List.ext_getElem
    · simp
    · intro i h₁ h₂
      rw [bitsOfWord_getElem, bitsOfWord_getElem, BitVec.getLsbD_and, lowMask64_getLsbD]
      simp only [bitsOfWord_length] at h₁
      simp [show w - 1 - i < w by omega, show w - 1 - i < 64 by omega]
  · rfl

/-- One value of the packer (rule R140). -/
theorem packed_writeValue {p : WritePort} (v : Word) {w : Nat} (hp : PortReady p) (hw : 1 ≤ w) :
    Packed p (writeValue v w p) (bitsOfWord v w) := by
  have := packed_writeValueFrom (v := if w < 64 then v &&& lowMask64 w else v) (fuel := w + 1) hp hw
    (by have := hp.wbitsLeft_pos; omega)
  rwa [bitsOfWord_masked] at this

/-- The packer in closed form: it appends the fields' bits (rule R140). -/
theorem packed_writeLongs {p : WritePort} (vs : List Word) {w : Nat} (hp : PortReady p)
    (hw : 1 ≤ w) : Packed p (writeLongs vs w p) (vs.flatMap fun v => bitsOfWord v w) := by
  induction vs generalizing p with
  | nil => exact ⟨by simp [writeLongs], id, hp, ⟨[], by simp [writeLongs]⟩⟩
  | cons v vs ih =>
    have h := packed_writeValue v hp hw
    rw [List.flatMap_cons]
    exact h.trans (ih h.ready)

/-- Flushing pads the pending bits with zeros to a whole byte (rule R141). -/
theorem packed_flushBits {p : WritePort} (hp : PortReady p) :
    Packed p (flushBits p) (List.replicate (p.wbitsLeft % 8) false) ∧
      (flushBits p).wbitsLeft = 8 ∧ (flushBits p).wcurByte = 0 := by
  obtain ⟨h1, h8, hclear⟩ := hp
  unfold flushBits
  split
  · next h =>
    refine ⟨packed_emitCurByte rfl ?_ id, rfl, rfl⟩
    apply List.ext_getElem
    · simp; omega
    · intro i h₁ h₂
      rw [List.getElem_append]
      split
      · rw [List.getElem_take]
      · next hi =>
        rw [bitsOfByte_getElem, List.getElem_replicate]
        simp only [List.length_take, bitsOfByte_length] at hi h₁
        exact hclear _ (by omega)
  · next h =>
    have h8' : p.wbitsLeft = 8 := by simpa using h
    refine ⟨⟨by simp [h8'], id, ⟨h1, h8, hclear⟩, ⟨[], by simp⟩⟩, h8', ?_⟩
    apply BitVec.eq_of_getLsbD_eq
    intro i hi
    rw [hclear i (by omega)]; simp

end Sys2Proof.Laws
end

