-- ==== Sys2Proof/Laws/Encoder.lean ====
section
/-! SUPPORT. What the encoder's run selection and emission can do: the sink only grows, stays
counted, and every run ends on a byte boundary. -/

namespace Sys2Proof.Laws

open Sys2Proof.Machine

/-! ### The sink only grows (rule R55) -/

theorem prefix_sinkWrite (b : Byte) (p : WritePort) : p.out <+: (sinkWrite b p).out :=
  ⟨[(Memory.size p.out, b)], rfl⟩

theorem prefix_writeLongBE (v : Word) (n : Nat) (p : WritePort) :
    p.out <+: (writeLongBE v n p).out := by
  induction n generalizing p with
  | zero => exact List.prefix_refl _
  | succ n ih => exact (prefix_sinkWrite _ p).trans (ih _)

theorem prefix_emitCurByte (p : WritePort) : p.out <+: (emitCurByte p).out :=
  prefix_sinkWrite p.wcurByte p

theorem prefix_putBits (v : Word) (need : Nat) (p : WritePort) :
    p.out <+: (putBits v need p).out := by
  unfold putBits
  dsimp only
  split
  · exact ⟨[_], rfl⟩
  · exact List.prefix_refl _

theorem prefix_writeValueFrom (fuel : Nat) (v : Word) (need : Nat) (p : WritePort) :
    p.out <+: (writeValueFrom fuel v need p).out := by
  induction fuel generalizing need p with
  | zero => exact prefix_putBits v need p
  | succ fuel ih =>
    unfold writeValueFrom
    split
    · refine List.IsPrefix.trans ?_ (ih _ _)
      exact ⟨[_], rfl⟩
    · exact prefix_putBits v need p

theorem prefix_writeLongs (vs : List Word) (w : Nat) (p : WritePort) :
    p.out <+: (writeLongs vs w p).out := by
  induction vs generalizing p with
  | nil => exact List.prefix_refl _
  | cons v vs ih => exact (prefix_writeValueFrom _ _ _ p).trans (ih _)

theorem prefix_flushBits (p : WritePort) : p.out <+: (flushBits p).out := by
  unfold flushBits
  split
  · exact prefix_emitCurByte p
  · exact List.prefix_refl _

theorem prefix_emitShortRepeat (signed : Bool) (v : Word) (n : Nat) (p : WritePort) :
    p.out <+: (emitShortRepeat signed v n p).out :=
  (prefix_sinkWrite _ p).trans (prefix_writeLongBE _ _ _)

theorem prefix_emitDirect (signed : Bool) (vals : List Word) (p : WritePort) :
    p.out <+: (emitDirect signed vals p).out :=
  ((prefix_sinkWrite _ p).trans (prefix_sinkWrite _ _)).trans
    ((prefix_writeLongs _ _ _).trans (prefix_flushBits _))

theorem prefix_emitLiterals (signed : Bool) (fuel : Nat) (lits : List Word) (p : WritePort) :
    p.out <+: (emitLiterals signed fuel lits p).out := by
  induction fuel generalizing lits p with
  | zero => exact List.prefix_refl _
  | succ fuel ih =>
    cases lits with
    | nil => exact List.prefix_refl _
    | cons v rest =>
      unfold emitLiterals
      dsimp only
      split
      · exact (prefix_emitShortRepeat _ _ _ p).trans (ih _ _)
      · exact (prefix_emitDirect _ _ p).trans (ih _ _)

/-- A byte of the sink stays where it is while the sink grows. -/
theorem read?_of_prefix {m m' : Memory} (h : m <+: m') {a : Nat} {b : Byte}
    (hr : Memory.read? m a = some b) : Memory.read? m' a = some b := by
  obtain ⟨cells, rfl⟩ := h
  induction m with
  | nil => simp [Memory.read?] at hr
  | cons c m ih =>
    obtain ⟨k, x⟩ := c
    simp only [List.cons_append, Memory.read?] at hr ⊢
    split at hr
    · next h => rw [if_pos h]; exact hr
    · next h => rw [if_neg h]; exact ih hr

/-! ### The clean cursor between runs (rules R254, R301) -/

/-- No bits are pending (R34). -/
structure PortClean (p : WritePort) : Prop where
  wbitsLeft_eq : p.wbitsLeft = 8
  wcurByte_eq : p.wcurByte = 0

theorem PortClean.ready {p : WritePort} (h : PortClean p) : PortReady p := by
  obtain ⟨h1, h2⟩ := h
  exact ⟨by omega, by omega, fun i _ => by rw [h2]; simp⟩

/-- Some whole runs are emitted: the cursor is clean again and the sink stays counted. -/
structure Emitted (p p' : WritePort) : Prop where
  counted : p.Counted → p'.Counted
  clean : PortClean p'

theorem Emitted.trans {p₁ p₂ p₃ : WritePort} (h : Emitted p₁ p₂) (h' : Emitted p₂ p₃) :
    Emitted p₁ p₃ := ⟨fun hc => h'.counted (h.counted hc), h'.clean⟩

theorem PortClean.appended {p p' : WritePort} {bs : List Byte} (h : PortClean p)
    (ha : Appended p p' bs) : Emitted p p' :=
  ⟨ha.counted, ha.wbitsLeft_eq.trans h.wbitsLeft_eq, ha.wcurByte_eq.trans h.wcurByte_eq⟩

/-- The bytes of an emitted Short Repeat run (rule R186). -/
def srBytes (signed : Bool) (v : Word) (n : Nat) : List Byte :=
  let z := storedOfValue signed v
  encodeHeader (.sr (storedBytes z) n) ++ beBytes z (storedBytes z)

theorem appended_emitShortRepeat (signed : Bool) (v : Word) (n : Nat) (p : WritePort) :
    Appended p (emitShortRepeat signed v n p) (srBytes signed v n) :=
  (appended_writeByte _ p).trans (appended_writeLongBE _ _ _)

theorem emitted_emitShortRepeat (signed : Bool) (v : Word) (n : Nat) {p : WritePort}
    (h : PortClean p) : Emitted p (emitShortRepeat signed v n p) :=
  h.appended (appended_emitShortRepeat signed v n p)

theorem neededWidth_pos (zs : List Word) : 1 ≤ neededWidth zs := by
  cases zs with
  | nil => exact le_refl _
  | cons z zs =>
    have : 1 ≤ neededWidth zs := neededWidth_pos zs
    simp only [neededWidth]; omega

theorem bitLength_le (z : Word) : bitLength z ≤ 64 := by
  unfold bitLength
  split
  · omega
  · next h => have := (Nat.log2_lt h).mpr z.isLt; omega

/-- A word fits its bit length (rule R14). -/
theorem toNat_lt_bitLength (z : Word) : z.toNat < 2 ^ bitLength z := by
  unfold bitLength
  split
  · next h => simp [h]
  · next h => exact Nat.lt_log2_self

theorem neededWidth_le (zs : List Word) : neededWidth zs ≤ 64 := by
  induction zs with
  | nil => simp [neededWidth]
  | cons z zs ih => have := bitLength_le z; simp only [neededWidth]; omega

theorem toNat_lt_neededWidth {z : Word} {zs : List Word} (h : z ∈ zs) :
    z.toNat < 2 ^ neededWidth zs := by
  induction zs with
  | nil => cases h
  | cons y zs ih =>
    simp only [neededWidth]
    rcases List.mem_cons.mp h with rfl | h
    · exact (toNat_lt_bitLength _).trans_le (Nat.pow_le_pow_right (by omega) (by omega))
    · exact (ih h).trans_le (Nat.pow_le_pow_right (by omega) (by omega))

/-- The packer followed by the flush, from a clean cursor: some whole bytes whose bits are the
fields and then fewer than eight zeros (rules R140, R141). -/
theorem packedBytes {p : WritePort} (vs : List Word) {w : Nat} (h : PortClean p) (hw : 1 ≤ w) :
    Emitted p (flushBits (writeLongs vs w p)) ∧
      ∃ bs pad, Memory.bytes (flushBits (writeLongs vs w p)).out = Memory.bytes p.out ++ bs ∧
        bitsOf bs = (vs.flatMap fun v => bitsOfWord v w) ++ List.replicate pad false ∧ pad < 8 := by
  have h₁ := packed_writeLongs vs h.ready hw
  obtain ⟨h₂, h8, h0⟩ := packed_flushBits h₁.ready
  have h₃ := h₁.trans h₂
  refine ⟨⟨h₃.counted, h8, h0⟩, ?_⟩
  obtain ⟨bs, hbs⟩ := h₃.grows
  refine ⟨bs, (writeLongs vs w p).wbitsLeft % 8, hbs, ?_, Nat.mod_lt _ (by omega)⟩
  have := h₃.bits_eq
  simp only [writtenBits, h8, h.wbitsLeft_eq, Nat.sub_self, List.take_zero, List.append_nil, hbs,
    bitsOf_append] at this
  exact List.append_cancel_left this

theorem emitted_emitDirect (signed : Bool) (vals : List Word) {p : WritePort} (h : PortClean p) :
    Emitted p (emitDirect signed vals p) := by
  have h₁ := h.appended ((appended_writeByte (headByte 1
    (codeOfWidth (closestWidth (neededWidth (vals.map (storedOfValue signed))))) vals.length)
      p).trans (appended_writeByte (lengthByte vals.length) _))
  exact h₁.trans (packedBytes _ h₁.clean (closestWidth_range _).1).1

/-- The bytes of an emitted Direct run (rule R196). -/
theorem bytes_emitDirect (signed : Bool) (vals : List Word) {p : WritePort} (h : PortClean p) :
    ∃ bs pad, Memory.bytes (emitDirect signed vals p).out = Memory.bytes p.out ++
        (encodeHeader (.direct (closestWidth (neededWidth (vals.map (storedOfValue signed))))
          vals.length) ++ bs) ∧
      bitsOf bs = ((vals.map (storedOfValue signed)).flatMap fun v => bitsOfWord v
        (closestWidth (neededWidth (vals.map (storedOfValue signed))))) ++
          List.replicate pad false ∧ pad < 8 := by
  set w := closestWidth (neededWidth (vals.map (storedOfValue signed))) with hw
  have ha := (appended_writeByte (headByte 1 (codeOfWidth w) vals.length) p).trans
    (appended_writeByte (lengthByte vals.length) _)
  obtain ⟨bs, pad, h₁, h₂, h₃⟩ := (packedBytes (vals.map (storedOfValue signed)) (w := w)
    (h.appended ha).clean (closestWidth_range _).1).2
  refine ⟨bs, pad, ?_, h₂, h₃⟩
  show Memory.bytes (flushBits (writeLongs _ w (writeByte _ (writeByte _ p)))).out = _
  rw [h₁, ha.bytes_eq, List.append_assoc]
  rfl

theorem emitted_emitLiterals (signed : Bool) (fuel : Nat) (lits : List Word) {p : WritePort}
    (h : PortClean p) : Emitted p (emitLiterals signed fuel lits p) := by
  induction fuel generalizing lits p with
  | zero => exact ⟨id, h⟩
  | succ fuel ih =>
    cases lits with
    | nil => exact ⟨id, h⟩
    | cons v rest =>
      unfold emitLiterals
      dsimp only
      split
      · have h₁ := emitted_emitShortRepeat signed v (identRun (v :: rest)) h
        exact h₁.trans (ih _ h₁.clean)
      · have h₁ := emitted_emitDirect signed ((v :: rest).take (directSpan (v :: rest))) h
        exact h₁.trans (ih _ h₁.clean)

/-! ### Run selection -/

theorem equalRun_le (v : Word) (l : List Word) : equalRun v l ≤ l.length := by
  induction l with
  | nil => exact le_refl _
  | cons x xs ih => unfold equalRun; split <;> simp; omega

theorem take_equalRun (v : Word) (l : List Word) :
    l.take (equalRun v l) = List.replicate (equalRun v l) v := by
  induction l with
  | nil => rfl
  | cons x xs ih =>
    unfold equalRun
    split
    · next h => rw [List.take_succ_cons, ih, h, List.replicate_succ]
    · rfl

/-- `identRun` counts 1 to 10 equal literals (rule R253). -/
theorem identRun_cons (v : Word) (rest : List Word) :
    1 ≤ identRun (v :: rest) ∧ identRun (v :: rest) ≤ 10 ∧
      identRun (v :: rest) ≤ rest.length + 1 := by
  have := equalRun_le v rest
  simp only [identRun]; omega

theorem take_identRun (v : Word) (rest : List Word) :
    (v :: rest).take (identRun (v :: rest)) = List.replicate (identRun (v :: rest)) v := by
  have h : (v :: rest).take (equalRun v rest + 1) = List.replicate (equalRun v rest + 1) v := by
    rw [List.take_succ_cons, take_equalRun, List.replicate_succ]
  have hle : identRun (v :: rest) ≤ equalRun v rest + 1 := by
    simp only [identRun]; omega
  have := congrArg (List.take (identRun (v :: rest))) h
  rw [List.take_take, List.take_replicate, Nat.min_eq_left hle] at this
  exact this

theorem directSpan_le (l : List Word) : directSpan l ≤ l.length := by
  induction l with
  | nil => exact le_refl _
  | cons v rest ih => unfold directSpan; split <;> simp; omega

theorem directSpan_pos {v : Word} {rest : List Word} (h : ¬ 3 ≤ identRun (v :: rest)) :
    1 ≤ directSpan (v :: rest) := by
  rw [directSpan, if_pos (by omega)]; omega

/-! ### The window keeps the encoder half legal -/

theorem emitWindow_legal {cap : Nat} {e : Encoder} (signed : Bool)
    (hc : e.port.Counted) (hp : PortClean e.port) (hf : e.fault = decide (cap = 0))
    (he : e.err = if e.fault then 5 else 0) : (emitWindow signed e).Legal cap := by
  have h := emitted_emitLiterals signed e.litCount (windowLiterals e) hp
  exact ⟨by simp [emitWindow], by simp [emitWindow], h.counted hc, h.clean.wbitsLeft_eq,
    h.clean.wcurByte_eq, hf, he⟩

theorem legal_clean {cap : Nat} {e : Encoder} (h : e.Legal cap) : PortClean e.port :=
  ⟨h.wbitsLeft_eq, h.wcurByte_eq⟩

theorem flushWindow_legal {cap : Nat} {e : Encoder} (signed : Bool) (h : e.Legal cap) :
    (flushWindow signed e).Legal cap := by
  unfold flushWindow
  split
  · exact emitWindow_legal signed h.counted (legal_clean h) h.fault_eq h.err_eq
  · exact h

theorem pushLiteral_legal {cap : Nat} {e : Encoder} (signed : Bool) (v : Word) (h : e.Legal cap) :
    (pushLiteral signed e v).Legal cap := by
  have hclean := legal_clean h
  unfold pushLiteral
  dsimp only
  split
  · exact emitWindow_legal signed h.counted hclean h.fault_eq h.err_eq
  · next hne =>
    have := h.litCount_lt
    exact ⟨by simp [h.litBuf_length], by simp at hne ⊢; omega, h.counted, h.wbitsLeft_eq,
      h.wcurByte_eq, h.fault_eq, h.err_eq⟩

theorem pushLiterals_legal {cap : Nat} {e : Encoder} (signed : Bool) (vs : List Word)
    (h : e.Legal cap) : (pushLiterals signed vs e).Legal cap := by
  induction vs generalizing e with
  | nil => exact h
  | cons v vs ih => exact ih (pushLiteral_legal signed v h)

theorem prefix_pushLiterals (signed : Bool) (vs : List Word) (e : Encoder) :
    e.port.out <+: (pushLiterals signed vs e).port.out := by
  induction vs generalizing e with
  | nil => exact List.prefix_refl _
  | cons v vs ih =>
    refine List.IsPrefix.trans ?_ (ih _)
    unfold pushLiteral
    dsimp only
    split
    · exact prefix_emitLiterals _ _ _ _
    · exact List.prefix_refl _

theorem prefix_flushWindow (signed : Bool) (e : Encoder) :
    e.port.out <+: (flushWindow signed e).port.out := by
  unfold flushWindow
  split
  · exact prefix_emitLiterals _ _ _ _
  · exact List.prefix_refl _

/-- Literals given in two parts are the literals given at once (rule R251). -/
theorem pushLiterals_append (signed : Bool) (xs ys : List Word) (e : Encoder) :
    pushLiterals signed (xs ++ ys) e = pushLiterals signed ys (pushLiterals signed xs e) := by
  simp [pushLiterals]

/-- Literals that leave room in the window stand behind the buffered ones (rule R251). -/
theorem pushLiterals_of_room (signed : Bool) {vs : List Word} {e : Encoder}
    (hb : e.litBuf.length = 512) (h : e.litCount + vs.length < 512) :
    pushLiterals signed vs e = { e with
      litBuf := e.litBuf.take e.litCount ++ vs ++ e.litBuf.drop (e.litCount + vs.length)
      litCount := e.litCount + vs.length } := by
  induction vs generalizing e with
  | nil => simp [pushLiterals]
  | cons v vs ih =>
    simp only [List.length_cons] at h
    have hpush : pushLiteral signed e v =
        { e with litBuf := e.litBuf.set e.litCount v, litCount := e.litCount + 1 } := by
      unfold pushLiteral; dsimp only; rw [if_neg (by omega)]
    have htake : (e.litBuf.set e.litCount v).take (e.litCount + 1) =
        e.litBuf.take e.litCount ++ [v] := by
      rw [List.take_add_one, List.take_set_of_le (Nat.le_refl _), List.getElem?_set_self (by omega)]
      rfl
    have hdrop : (e.litBuf.set e.litCount v).drop (e.litCount + 1 + vs.length) =
        e.litBuf.drop (e.litCount + (v :: vs).length) := by
      rw [List.drop_set_of_lt (by omega), List.length_cons]
      congr 1; omega
    show pushLiterals signed vs (pushLiteral signed e v) = _
    rw [hpush, ih (by simp [hb]) (by dsimp only; omega)]
    dsimp only
    rw [htake, hdrop]
    simp [Nat.add_assoc, Nat.add_comm 1]

/-- The literals of slots given in two parts (rules R251, R252). -/
theorem literalsOf_append (maskConsumes : Bool) {ps qs : List Bool} {xs ys : List Word}
    (h : ps.length = xs.length) :
    literalsOf maskConsumes (ps ++ qs) (xs ++ ys) =
      literalsOf maskConsumes ps xs ++ literalsOf maskConsumes qs ys := by
  induction ps generalizing xs with
  | nil =>
    have : xs = [] := List.length_eq_zero_iff.mp h.symm
    subst this; rfl
  | cons p ps ih =>
    cases xs with
    | nil => simp at h
    | cons x xs =>
      simp only [List.cons_append, literalsOf, ih (by simpa using h)]
      split_ifs <;> rfl

theorem pushLiterals_fault (signed : Bool) (vs : List Word) (e : Encoder) :
    (pushLiterals signed vs e).fault = e.fault ∧ (pushLiterals signed vs e).err = e.err := by
  induction vs generalizing e with
  | nil => exact ⟨rfl, rfl⟩
  | cons v vs ih =>
    obtain ⟨h1, h2⟩ := ih (pushLiteral signed e v)
    refine ⟨h1.trans ?_, h2.trans ?_⟩ <;>
    · unfold pushLiteral
      dsimp only
      split <;> rfl

end Sys2Proof.Laws
end

