-- ==== Sys2Proof/Laws/Runs.lean ====
section
/-! SUPPORT. What the run decoders, the run fetch and the slot walk can do: how each can fail, and
that each keeps the decoder half legal. -/

namespace Sys2Proof.Laws

open Sys2Proof.Machine

/-! ### How a run can fail -/

theorem decodeShortRepeat_error {cfg : Settings} {inp : Memory} {bw rc : Nat} {d : Decoder}
    {k : ErrorKind} (h : decodeShortRepeat cfg inp bw rc d = .error k) : k = .truncatedStream := by
  rcases except_bind_eq_error.mp h with h | ⟨a, -, h⟩
  · exact readLongBE_error h
  · simp at h

theorem decodeDirect_error {cfg : Settings} {inp : Memory} {w l : Nat} {d : Decoder}
    {k : ErrorKind} (h : decodeDirect cfg inp w l d = .error k) : k = .truncatedStream := by
  rcases except_bind_eq_error.mp h with h | ⟨a, -, h⟩
  · exact readLongs_error h
  · simp at h

theorem readBase_error {inp : Memory} {bw : Nat} {c : Cursor} {k : ErrorKind}
    (h : readBase inp bw c = .error k) : k = .truncatedStream := by
  rcases except_bind_eq_error.mp h with h | ⟨a, -, h⟩
  · exact readLongBE_error h
  · simp at h

theorem applyPatchesFrom_error {kind : GapSentinel} {w pw pgw : Nat} {es : List Word}
    {cursor : Nat} {pending : Bool} {sc : List Word} {k : ErrorKind}
    (h : applyPatchesFrom kind w pw pgw es cursor pending sc = .error k) : k = .malformedHeader := by
  induction es generalizing cursor pending sc with
  | nil => cases pending <;> simp [applyPatchesFrom, eq_comm] at h ⊢; exact h
  | cons e es ih =>
    unfold applyPatchesFrom at h
    dsimp only at h
    split at h
    · exact ih h
    · split at h
      · simpa [eq_comm] using h
      · exact ih h

theorem patchAt_length (w cursor : Nat) (patch : Word) (sc : List Word) :
    (patchAt w cursor patch sc).length = sc.length := by simp [patchAt]

theorem applyPatchesFrom_length {kind : GapSentinel} {w pw pgw : Nat} {es : List Word}
    {cursor : Nat} {pending : Bool} {sc sc' : List Word}
    (h : applyPatchesFrom kind w pw pgw es cursor pending sc = .ok sc') :
    sc'.length = sc.length := by
  induction es generalizing cursor pending sc with
  | nil => cases pending <;> simp [applyPatchesFrom] at h; rw [h]
  | cons e es ih =>
    unfold applyPatchesFrom at h
    dsimp only at h
    split at h
    · exact ih h
    · split at h
      · simp at h
      · rw [ih h, patchAt_length]

/-- A Patched Base run raises `MalformedHeader` or `TruncatedStream` (rules R271, R272). -/
theorem decodePatchedBase_error {cfg : Settings} {inp : Memory} {w l bw pw pgw pll : Nat}
    {d : Decoder} {k : ErrorKind} (h : decodePatchedBase cfg inp w l bw pw pgw pll d = .error k) :
    k = .malformedHeader ∨ k = .truncatedStream := by
  unfold decodePatchedBase at h
  split at h
  · exact .inl (by simpa [eq_comm] using h)
  · rcases except_bind_eq_error.mp h with h | ⟨⟨base, c₁⟩, -, h⟩
    · exact .inr (readBase_error h)
    rcases except_bind_eq_error.mp h with h | ⟨⟨deltas, c₂⟩, -, h⟩
    · exact .inr (readLongs_error h)
    rcases except_bind_eq_error.mp h with h | ⟨⟨entries, c₃⟩, -, h⟩
    · exact .inr (readLongs_error h)
    rcases except_bind_eq_error.mp h with h | ⟨sc, -, h⟩
    · exact .inl (applyPatchesFrom_error h)
    · simp at h

theorem readDeltaBase_error {cfg : Settings} {inp : Memory} {c : Cursor} {k : ErrorKind}
    (h : readDeltaBase cfg inp c = .error k) : k = .truncatedStream := by
  unfold readDeltaBase at h
  split at h
  · exact readVslong_error h
  · split at h
    · exact readVslong_error h
    · exact readVulong_error h

theorem fetched_readDeltaBase {cfg : Settings} {inp : Memory} {v : Word} {c c' : Cursor}
    (h : readDeltaBase cfg inp c = .ok (v, c')) : Fetched inp c c' := by
  unfold readDeltaBase at h
  split at h
  · exact fetched_readVslong h
  · split at h
    · exact fetched_readVslong h
    · exact fetched_readVulong h

theorem decodeDelta_error {cfg : Settings} {inp : Memory} {w l : Nat} {d : Decoder}
    {k : ErrorKind} (h : decodeDelta cfg inp w l d = .error k) : k = .truncatedStream := by
  rcases except_bind_eq_error.mp h with h | ⟨⟨base, c₁⟩, -, h⟩
  · exact readDeltaBase_error h
  rcases except_bind_eq_error.mp h with h | ⟨⟨fd, c₂⟩, -, h⟩
  · exact readVslong_error h
  rcases except_bind_eq_error.mp h with h | ⟨⟨mags, c₃⟩, -, h⟩
  · exact readLongs_error h
  · simp at h

theorem materialise_error {cfg : Settings} {inp : Memory} {r : Run} {d : Decoder} {k : ErrorKind}
    (h : materialise cfg inp r d = .error k) : k = .malformedHeader ∨ k = .truncatedStream := by
  cases r with
  | sr bw rc => exact .inr (decodeShortRepeat_error h)
  | direct w l => exact .inr (decodeDirect_error h)
  | pb w l bw pw pgw pll => exact decodePatchedBase_error h
  | delta w l => exact .inr (decodeDelta_error h)

theorem fetchHeader_error {inp : Memory} {c : Cursor} {k : ErrorKind}
    (h : fetchHeader inp c = .error k) : k = .truncatedStream := by
  rcases except_bind_eq_error.mp h with h | ⟨⟨h0, c₁⟩, -, h⟩
  · exact readByte_error h
  rcases except_bind_eq_error.mp h with h | ⟨⟨rest, c₂⟩, -, h⟩
  · exact readBytes_error h
  · dsimp only at h
    split at h
    · simp at h
    · simpa [eq_comm] using h

theorem fetchRun_error {cfg : Settings} {inp : Memory} {d : Decoder} {k : ErrorKind}
    (h : fetchRun cfg inp d = .error k) : k = .malformedHeader ∨ k = .truncatedStream := by
  rcases except_bind_eq_error.mp h with h | ⟨⟨r, c⟩, -, h⟩
  · exact .inr (fetchHeader_error h)
  · exact materialise_error h

theorem ensureRun_error {cfg : Settings} {inp : Memory} {d : Decoder} {k : ErrorKind}
    (h : ensureRun cfg inp d = .error k) : k = .malformedHeader ∨ k = .truncatedStream := by
  unfold ensureRun at h
  split at h
  · exact fetchRun_error h
  · simp at h

theorem slotStep_error {cfg : Settings} {inp : Memory} {d : Decoder} {k : ErrorKind}
    (h : slotStep cfg inp d = .error k) : k = .malformedHeader ∨ k = .truncatedStream := by
  rcases except_bind_eq_error.mp h with h | ⟨d', -, h⟩
  · exact ensureRun_error h
  · simp at h

/-- Everything `slotStep` can do when it answers: a run in progress, its current value, and one
position consumed (rule R165). -/
theorem slotStep_ok {cfg : Settings} {inp : Memory} {d d' : Decoder} {v : Word} :
    slotStep cfg inp d = .ok (v, d') ↔
      ∃ e, ensureRun cfg inp d = .ok e ∧ v = currentValue e ∧ d' = consumePosition e := by
  unfold slotStep
  constructor
  · intro h
    obtain ⟨e, h₁, h₂⟩ := except_bind_eq_ok.mp h
    simp only [Except.ok.injEq, Prod.mk.injEq] at h₂
    exact ⟨e, h₁, h₂.1.symm, h₂.2.symm⟩
  · rintro ⟨e, h, rfl, rfl⟩
    rw [h]; rfl

theorem skipSlots_error {cfg : Settings} {inp : Memory} {n : Nat} {d : Decoder} {k : ErrorKind}
    (h : skipSlots cfg inp n d = .error k) : k = .malformedHeader ∨ k = .truncatedStream := by
  induction n generalizing d with
  | zero => simp [skipSlots] at h
  | succ n ih =>
    rcases except_bind_eq_error.mp h with h | ⟨⟨v, d'⟩, -, h⟩
    · exact slotStep_error h
    · exact ih h

theorem fillSlots_error {cfg : Settings} {inp : Memory} {ps : List Bool} {out : List Word}
    {d : Decoder} {k : ErrorKind} (h : fillSlots cfg inp ps out d = .error k) :
    k = .malformedHeader ∨ k = .truncatedStream := by
  induction ps generalizing out d with
  | nil => simp [fillSlots] at h
  | cons p ps ih =>
    cases out with
    | nil => simp [fillSlots] at h
    | cons slot rest =>
      unfold fillSlots at h
      split at h
      · rcases except_bind_eq_error.mp h with h | ⟨⟨v, d'⟩, -, h⟩
        · exact slotStep_error h
        rcases except_bind_eq_error.mp h with h | ⟨⟨v, d'⟩, -, h⟩
        · exact ih h
        · simp at h
      · rcases except_bind_eq_error.mp h with h | ⟨⟨v, d'⟩, -, h⟩
        · exact ih h
        · simp at h

theorem seekTo_error {cfg : Settings} {inp : Memory} {p0 p1 p3 : Word} {d : Decoder} {k : ErrorKind}
    (h : seekTo cfg inp p0 p1 p3 d = .error k) :
    k = .malformedHeader ∨ k = .truncatedStream ∨ k = .seekOutOfRange := by
  unfold seekTo at h
  split at h
  · exact .inr (.inr (by simpa [eq_comm] using h))
  · split at h
    · exact .inr (.inr (by simpa [eq_comm] using h))
    · rcases skipSlots_error h with h | h
      · exact .inl h
      · exact .inr (.inl h)

/-! ### What a run leaves -/

/-- What a run decoder leaves of the decoder half: a run in progress, nothing consumed, the flags
untouched, every register in range. -/
structure Entered (inp : Memory) (d d' : Decoder) : Prop where
  fetched : Fetched inp d.cur d'.cur
  dstate_eq : d'.dstate = .inRun
  runConsumed_eq : d'.runConsumed = 0
  fault_eq : d'.fault = d.fault
  err_eq : d'.err = d.err
  legal : ∀ n, d.Legal n → WorkingInRange d'

theorem Entered.legal_of {inp : Memory} {d d' : Decoder} (h : Entered inp d d')
    (hw : Memory.wf inp = true) (hd : d.Legal (Memory.size inp)) : d'.Legal (Memory.size inp) := by
  obtain ⟨h1, h2, h3, h4, h5, h6, h7, h8, h9, h10, h11⟩ := h.legal _ hd
  refine ⟨h.fetched.spos_le hw hd.spos_le, h.fetched.bitsLeft_le hd.bitsLeft_le, h1, h2, h3, h4,
    h5, h6, ?_, ?_, ?_, h7, h8, h9, h10, h11⟩
  · intro _ _; rw [h.runConsumed_eq]; exact h4
  · rw [h.fault_eq, h.err_eq]; exact hd.err_of_ready
  · rw [h.fault_eq, h.err_eq]; exact hd.err_of_fault

theorem enterRun_buffer_length (tag : BitVec 2) (vals : List Word) (d : Decoder)
    (h : vals.length ≤ 512) : (enterRun tag vals d).runBuffer.length = 512 := by
  simp; omega

theorem decodeShortRepeat_entered {cfg : Settings} {inp : Memory} {bw rc : Nat} {d d' : Decoder}
    (hbw : 1 ≤ bw ∧ bw ≤ 8) (hrc : 3 ≤ rc ∧ rc ≤ 10)
    (h : decodeShortRepeat cfg inp bw rc d = .ok d') : Entered inp d d' := by
  obtain ⟨⟨raw, c⟩, h₁, h₂⟩ := except_bind_eq_ok.mp h
  simp only [Except.ok.injEq] at h₂
  subst h₂
  refine ⟨fetched_readLongBE h₁, rfl, rfl, rfl, rfl, fun n hd => ?_⟩
  exact ⟨enterRun_buffer_length _ _ _ (by simp; omega), hd.patchEntries_length,
    hd.deltaScratch_length, by simp; omega, by simp; omega, by simp, hd.w_le, hbw, hd.pw_range,
    hd.pgw_range, hd.pll_le⟩

theorem decodeDirect_entered {cfg : Settings} {inp : Memory} {w l : Nat} {d d' : Decoder}
    (hw : w ≤ 64) (hl : 1 ≤ l ∧ l ≤ 512) (h : decodeDirect cfg inp w l d = .ok d') :
    Entered inp d d' := by
  obtain ⟨⟨raws, c⟩, h₁, h₂⟩ := except_bind_eq_ok.mp h
  simp only [Except.ok.injEq] at h₂
  obtain ⟨hlen, hf⟩ := readLongs_ok h₁
  subst h₂
  refine ⟨hf, rfl, rfl, rfl, rfl, fun n hd => ?_⟩
  exact ⟨enterRun_buffer_length _ _ _ (by simp; omega), hd.patchEntries_length,
    hd.deltaScratch_length, by simp; omega, by simp; omega, by simp, hw, hd.bw_range, hd.pw_range,
    hd.pgw_range, hd.pll_le⟩

theorem fetched_readBase {inp : Memory} {bw : Nat} {v : Word} {c c' : Cursor}
    (h : readBase inp bw c = .ok (v, c')) : Fetched inp c c' := by
  obtain ⟨⟨raw, c₁⟩, h₁, h₂⟩ := except_bind_eq_ok.mp h
  simp only [Except.ok.injEq, Prod.mk.injEq] at h₂
  exact h₂.2 ▸ fetched_readLongBE h₁

theorem fetched_resetRun (inp : Memory) (c : Cursor) : Fetched inp c (resetRun c) :=
  ⟨⟨[], holds_nil _ _, by simp⟩, fun _ => Nat.zero_le _⟩

theorem decodePatchedBase_entered {cfg : Settings} {inp : Memory} {w l bw pw pgw pll : Nat}
    {d d' : Decoder} (hw : w ≤ 64) (hl : 1 ≤ l ∧ l ≤ 512) (hbw : 1 ≤ bw ∧ bw ≤ 8)
    (hpw : 1 ≤ pw ∧ pw ≤ 64) (hpgw : 1 ≤ pgw ∧ pgw ≤ 8) (hpll : pll ≤ 31)
    (h : decodePatchedBase cfg inp w l bw pw pgw pll d = .ok d') : Entered inp d d' := by
  unfold decodePatchedBase at h
  split at h
  · simp at h
  · obtain ⟨⟨base, c₁⟩, h₁, h⟩ := except_bind_eq_ok.mp h
    obtain ⟨⟨deltas, c₂⟩, h₂, h⟩ := except_bind_eq_ok.mp h
    obtain ⟨⟨entries, c₃⟩, h₃, h⟩ := except_bind_eq_ok.mp h
    obtain ⟨sc, h₄, h⟩ := except_bind_eq_ok.mp h
    simp only [Except.ok.injEq] at h
    obtain ⟨hlen, hf₂⟩ := readLongs_ok h₂
    obtain ⟨hlen', hf₃⟩ := readLongs_ok h₃
    have hsc := applyPatchesFrom_length h₄
    have hmid : Fetched inp c₂ (if cfg.sectionAlign = true then resetRun c₂ else c₂) := by
      split
      · exact fetched_resetRun inp c₂
      · exact .refl inp c₂
    subst h
    refine ⟨(fetched_readBase h₁).trans (hf₂.trans (hmid.trans hf₃)), rfl, rfl, rfl, rfl,
      fun n hd => ?_⟩
    exact ⟨enterRun_buffer_length _ _ _ (by simp; omega),
      by simp [overwrite_length]; omega, hd.deltaScratch_length, by simp; omega,
      by simp; omega, by simp, hw, hbw, hpw, hpgw, hpll⟩

theorem runningSums_length (v : Word) (steps : List Word) :
    (runningSums v steps).length = steps.length + 1 := by
  induction steps generalizing v with
  | nil => rfl
  | cons s steps ih => simp [runningSums, ih]

theorem deltaSteps_length {w l : Nat} {fd : Word} {mags : List Word}
    (hm : mags.length = magnitudeCount w l) (hl : 1 ≤ l) : (deltaSteps w l fd mags).length = l - 1 := by
  unfold deltaSteps magnitudeCount at *
  split_ifs at hm ⊢ <;> simp <;> omega

theorem decodeDelta_entered {cfg : Settings} {inp : Memory} {w l : Nat} {d d' : Decoder}
    (hw : w ≤ 64) (hl : 1 ≤ l ∧ l ≤ 512) (h : decodeDelta cfg inp w l d = .ok d') :
    Entered inp d d' := by
  obtain ⟨⟨base, c₁⟩, h₁, h⟩ := except_bind_eq_ok.mp h
  obtain ⟨⟨fd, c₂⟩, h₂, h⟩ := except_bind_eq_ok.mp h
  obtain ⟨⟨mags, c₃⟩, h₃, h⟩ := except_bind_eq_ok.mp h
  simp only [Except.ok.injEq] at h
  obtain ⟨hlen, hf⟩ := readLongs_ok h₃
  have hvals : (runningSums base (deltaSteps w l fd mags)).length = l := by
    rw [runningSums_length, deltaSteps_length hlen hl.1]; omega
  have hmags : mags.length ≤ 510 := by
    rw [hlen, magnitudeCount]; split <;> omega
  subst h
  refine ⟨(fetched_readDeltaBase h₁).trans ((fetched_readVslong h₂).trans hf), rfl, rfl, rfl, rfl,
    fun n hd => ?_⟩
  exact ⟨enterRun_buffer_length _ _ _ (by omega), hd.patchEntries_length,
    by have := hd.deltaScratch_length; simp [overwrite_length]; omega, by simp [hvals]; omega,
    by simp [hvals]; omega, by simp, hw, hd.bw_range, hd.pw_range, hd.pgw_range, hd.pll_le⟩

/-- A well-formed run, materialised. -/
theorem materialise_entered {cfg : Settings} {inp : Memory} {r : Run} {d d' : Decoder}
    (hr : r.toInstr.wellFormed = true) (h : materialise cfg inp r d = .ok d') :
    Entered inp d d' := by
  cases r with
  | sr bw rc =>
    simp only [Run.toInstr, Instr.wellFormed, Bool.and_eq_true, decide_eq_true_eq] at hr
    exact decodeShortRepeat_entered (by omega) (by omega) h
  | direct w l =>
    simp only [Run.toInstr, Instr.wellFormed, Bool.and_eq_true, lengthOk_iff] at hr
    exact decodeDirect_entered (isTableWidth_range hr.1).2 hr.2 h
  | pb w l bw pw pgw pll =>
    simp only [Run.toInstr, Instr.wellFormed, Bool.and_eq_true, lengthOk_iff,
      decide_eq_true_eq] at hr
    obtain ⟨⟨⟨⟨⟨hw, hl⟩, hbw⟩, hpw⟩, hpgw⟩, hpll⟩ := hr
    exact decodePatchedBase_entered (isTableWidth_range hw).2 hl hbw (isTableWidth_range hpw) hpgw
      hpll h
  | delta w l =>
    simp only [Run.toInstr, Instr.wellFormed, Bool.and_eq_true, lengthOk_iff, Bool.or_eq_true,
      decide_eq_true_eq] at hr
    have hw : w ≤ 64 := by
      rcases hr.1 with h | h
      · omega
      · exact (isTableWidth_range h.1).2
    exact decodeDelta_entered hw hr.2 h

/-- Everything the header fetch can do when it answers: the stream holds the header it decoded. -/
theorem fetchHeader_ok {inp : Memory} {c c' : Cursor} {r : Run} (h : fetchHeader inp c = .ok (r, c')) :
    ∃ h0 rest rest', rest.length + 1 = headerLength (tagOf h0) ∧ Holds inp c.spos (h0 :: rest) ∧
      c' = c.advance (rest.length + 1) ∧ decodeHeader (h0 :: rest) = .ok (r, rest') := by
  obtain ⟨⟨h0, c₁⟩, h₁, h⟩ := except_bind_eq_ok.mp h
  obtain ⟨⟨rest, c₂⟩, h₂, h⟩ := except_bind_eq_ok.mp h
  obtain ⟨hr, rfl⟩ := streamRead_ok.mp h₁
  obtain ⟨hl, hh, rfl⟩ := readBytes_ok.mp h₂
  dsimp only at h
  split at h
  · next r' rest' hd =>
    simp only [Except.ok.injEq, Prod.mk.injEq] at h
    obtain ⟨rfl, rfl⟩ := h
    have hpos : 1 ≤ headerLength (tagOf h0) := by unfold headerLength; split_ifs <;> omega
    refine ⟨h0, rest, rest', by omega, holds_cons.mpr ⟨hr, hh⟩, ?_, hd⟩
    rw [advance_advance, hl, Nat.add_comm]
  · simp at h

theorem fetchRun_entered {cfg : Settings} {inp : Memory} {d d' : Decoder}
    (h : fetchRun cfg inp d = .ok d') : Entered inp d d' := by
  obtain ⟨⟨r, c⟩, h₁, h₂⟩ := except_bind_eq_ok.mp h
  obtain ⟨h0, rest, rest', -, hh, rfl, hd⟩ := fetchHeader_ok h₁
  have he := materialise_entered (decodeHeader_wellFormed hd) h₂
  have hhead : Fetched inp d.cur ((resetRun d.cur).advance (rest.length + 1)) :=
    ⟨⟨h0 :: rest, hh, by simp⟩, fun _ => Nat.zero_le _⟩
  refine ⟨hhead.trans he.fetched, he.dstate_eq, he.runConsumed_eq, he.fault_eq, he.err_eq,
    fun n hd => he.legal 
      (((resetRun d.cur).advance (rest.length + 1)).spos) ?_⟩
  exact ⟨le_refl _, Nat.zero_le _, hd.runBuffer_length, hd.patchEntries_length,
    hd.deltaScratch_length, hd.runLength_pos, hd.runLength_le, hd.runConsumed_le, hd.inRun,
    hd.err_of_ready, hd.err_of_fault, hd.w_le, hd.bw_range, hd.pw_range, hd.pgw_range, hd.pll_le⟩

/-! ### The slot walk keeps the decoder half legal -/

theorem ensureRun_legal {cfg : Settings} {inp : Memory} {d e : Decoder}
    (hw : Memory.wf inp = true) (hd : d.Legal (Memory.size inp)) (hf : d.fault = false)
    (h : ensureRun cfg inp d = .ok e) :
    e.Legal (Memory.size inp) ∧ e.fault = false ∧ e.dstate = .inRun := by
  unfold ensureRun at h
  cases hs : d.dstate with
  | awaitingHeader =>
    simp only [hs] at h
    have he := fetchRun_entered h
    exact ⟨he.legal_of hw hd, he.fault_eq.trans hf, he.dstate_eq⟩
  | inRun =>
    simp only [hs, Except.ok.injEq] at h
    subst h
    exact ⟨hd, hf, hs⟩

theorem consumePosition_legal {n : Nat} {d : Decoder} (hd : d.Legal n) (hf : d.fault = false)
    (hs : d.dstate = .inRun) : (consumePosition d).Legal n := by
  have hlt := hd.inRun hf hs
  refine ⟨hd.spos_le, hd.bitsLeft_le, hd.runBuffer_length, hd.patchEntries_length,
    hd.deltaScratch_length, hd.runLength_pos, hd.runLength_le, ?_, ?_, hd.err_of_ready,
    hd.err_of_fault, hd.w_le, hd.bw_range, hd.pw_range, hd.pgw_range, hd.pll_le⟩
  · have := hd.runLength_le; simp; omega
  · intro _ h
    simp only [consumePosition_dstate] at h
    split at h
    · cases h
    · simp only [consumePosition_runConsumed, consumePosition_runLength]; omega

theorem slotStep_legal {cfg : Settings} {inp : Memory} {d d' : Decoder} {v : Word}
    (hw : Memory.wf inp = true) (hd : d.Legal (Memory.size inp)) (hf : d.fault = false)
    (h : slotStep cfg inp d = .ok (v, d')) : d'.Legal (Memory.size inp) ∧ d'.fault = false := by
  obtain ⟨e, he, -, rfl⟩ := slotStep_ok.mp h
  obtain ⟨hl, hf', hs⟩ := ensureRun_legal hw hd hf he
  exact ⟨consumePosition_legal hl hf' hs, hf'⟩

theorem skipSlots_legal {cfg : Settings} {inp : Memory} {n : Nat} {d d' : Decoder}
    (hw : Memory.wf inp = true) (hd : d.Legal (Memory.size inp)) (hf : d.fault = false)
    (h : skipSlots cfg inp n d = .ok d') : d'.Legal (Memory.size inp) ∧ d'.fault = false := by
  induction n generalizing d with
  | zero =>
    simp only [skipSlots, Except.ok.injEq] at h
    exact h ▸ ⟨hd, hf⟩
  | succ n ih =>
    obtain ⟨⟨v, e⟩, h₁, h₂⟩ := except_bind_eq_ok.mp h
    obtain ⟨hl, hf'⟩ := slotStep_legal hw hd hf h₁
    exact ih hl hf' h₂

theorem fillSlots_legal {cfg : Settings} {inp : Memory} {ps : List Bool} {out out' : List Word}
    {d d' : Decoder} (hw : Memory.wf inp = true) (hd : d.Legal (Memory.size inp))
    (hf : d.fault = false) (h : fillSlots cfg inp ps out d = .ok (out', d')) :
    d'.Legal (Memory.size inp) ∧ d'.fault = false := by
  induction ps generalizing out out' d with
  | nil =>
    simp only [fillSlots, Except.ok.injEq, Prod.mk.injEq] at h
    exact h.2 ▸ ⟨hd, hf⟩
  | cons p ps ih =>
    cases out with
    | nil =>
      simp only [fillSlots, Except.ok.injEq, Prod.mk.injEq] at h
      exact h.2 ▸ ⟨hd, hf⟩
    | cons slot rest =>
      unfold fillSlots at h
      split at h
      · obtain ⟨⟨v, e⟩, h₁, h⟩ := except_bind_eq_ok.mp h
        obtain ⟨⟨rest', e'⟩, h₂, h⟩ := except_bind_eq_ok.mp h
        simp only [Except.ok.injEq, Prod.mk.injEq] at h
        obtain ⟨hl, hf'⟩ := slotStep_legal hw hd hf h₁
        obtain ⟨-, rfl⟩ := h
        exact ih hl hf' h₂
      · obtain ⟨⟨rest', e'⟩, h₂, h⟩ := except_bind_eq_ok.mp h
        simp only [Except.ok.injEq, Prod.mk.injEq] at h
        obtain ⟨-, rfl⟩ := h
        exact ih hd hf h₂

theorem repositioned_legal {n pos : Nat} {d : Decoder} (hd : d.Legal n) (hp : pos ≤ n) :
    (repositioned pos d).Legal n := by
  refine ⟨hp, Nat.zero_le _, hd.runBuffer_length, hd.patchEntries_length, hd.deltaScratch_length,
    hd.runLength_pos, hd.runLength_le, hd.runConsumed_le, ?_, hd.err_of_ready, hd.err_of_fault,
    hd.w_le, hd.bw_range, hd.pw_range, hd.pgw_range, hd.pll_le⟩
  intro _ h; cases h

theorem seekTo_legal {cfg : Settings} {inp : Memory} {p0 p1 p3 : Word} {d d' : Decoder}
    (hw : Memory.wf inp = true) (hd : d.Legal (Memory.size inp)) (hf : d.fault = false)
    (h : seekTo cfg inp p0 p1 p3 d = .ok d') : d'.Legal (Memory.size inp) ∧ d'.fault = false := by
  unfold seekTo at h
  split at h
  · simp at h
  · split at h
    · simp at h
    · exact skipSlots_legal hw (repositioned_legal hd (by omega)) hf h

end Sys2Proof.Laws
end

