-- ==== Sys2Proof/Laws/Exec.lean ====
section
/-! SUPPORT. Everything each instruction can do when it answers a next state. -/

namespace Sys2Proof.Laws

open Sys2Proof.Machine

/-! ### The shared endings -/

/-- Everything a run fetch can leave. -/
theorem settleDecoder_cases (s : State) (r : Except ErrorKind Decoder) :
    (∃ d, r = .ok d ∧ settleDecoder s r = { s with dec := d }) ∨
      ∃ k, r = .error k ∧ settleDecoder s r = raiseDecoder k s := by
  cases r with
  | ok d => exact .inl ⟨d, rfl, rfl⟩
  | error k => exact .inr ⟨k, rfl, rfl⟩

/-- Everything a slot walk without writes can leave. -/
theorem settleSkip_cases (s : State) (r : Except ErrorKind Decoder) :
    (∃ d, r = .ok d ∧ settleSkip s r = respond 0 { s with dec := d }) ∨
      ∃ k, r = .error k ∧ settleSkip s r = raiseDecoder k s := by
  cases r with
  | ok d => exact .inl ⟨d, rfl, rfl⟩
  | error k => exact .inr ⟨k, rfl, rfl⟩

/-- Everything the slot loop of `NEXT` can leave. -/
theorem settleSlots_cases (n : Nat) (s : State) (r : Except ErrorKind (List Word × Decoder)) :
    (∃ out d, r = .ok (out, d) ∧ settleSlots n s r = respond 0 { s with dec := d, out := out }) ∨
      ∃ k, r = .error k ∧ settleSlots n s r =
        { raiseDecoder k s with out := freeWords .outSlot s.dec.freeCount 0 n ++ s.out.drop n } := by
  cases r with
  | ok p => exact .inl ⟨p.1, p.2, rfl, rfl⟩
  | error k => exact .inr ⟨k, rfl, rfl⟩

/-! ### The instructions -/

/-- The four run forms are one shape. -/
theorem exec_run (r : Run) (s : State) :
    exec r.toInstr s =
      whenDecoderReady s (.next (settleDecoder s (materialise s.cfg s.input r s.dec))) := by
  cases r <;> rfl

theorem exec_reset (signed : Bool) (s : State) :
    exec (.reset signed) s = .next (restartEngine signed s) := rfl

/-- Everything `NEXT` can do when it answers a next state. -/
theorem exec_next_cases {n : BitVec 32} {masked : Bool} {s t : State}
    (h : exec (.next n masked) s = .next t) :
    (s.dec.fault = true ∧ t = respond s.dec.err s) ∨
    (s.dec.fault = false ∧ buffersCover masked s.mask s.out n.toNat = true ∧
      t = settleSlots n.toNat s
        (fillSlots s.cfg s.input (presentSlots masked s.mask n.toNat) s.out s.dec)) := by
  rcases whenDecoderReady_cases h with h | ⟨hf, h⟩
  · exact .inl h
  · split at h
    · next hb => exact .inr ⟨hf, hb, (Host.Outcome.next.inj h).symm⟩
    · cases h

/-- Everything `SKIP` can do. -/
theorem exec_skip_cases {k : BitVec 32} {s t : State} (h : exec (.skip k) s = .next t) :
    (s.dec.fault = true ∧ t = respond s.dec.err s) ∨
    (s.dec.fault = false ∧ t = settleSkip s (skipSlots s.cfg s.input k.toNat s.dec)) := by
  rcases whenDecoderReady_cases h with h | ⟨hf, h⟩
  · exact .inl h
  · exact .inr ⟨hf, (Host.Outcome.next.inj h).symm⟩

/-- Everything `SEEK` can do. -/
theorem exec_seek_cases {p0 p1 p2 p3 : Word} {s t : State}
    (h : exec (.seek p0 p1 p2 p3) s = .next t) :
    (s.dec.fault = true ∧ t = respond s.dec.err s) ∨
    (s.dec.fault = false ∧ t = settleSkip s (seekTo s.cfg s.input p0 p1 p3 s.dec)) := by
  rcases whenDecoderReady_cases h with h | ⟨hf, h⟩
  · exact .inl h
  · exact .inr ⟨hf, (Host.Outcome.next.inj h).symm⟩

/-- Everything `ADD` can do when it answers a next state. -/
theorem exec_add_cases {count : BitVec 32} {masked : Bool} {s t : State}
    (h : exec (.add count masked) s = .next t) :
    (s.enc.fault = true ∧ t = respond s.enc.err s) ∨
    (s.enc.fault = false ∧ buffersCover masked s.mask s.values count.toNat = true ∧
      t = respond 0 { s with
        enc := pushLiterals s.cfg.signed (addedLiterals masked count.toNat s) s.enc }) := by
  rcases whenEncoderReady_cases h with h | ⟨hf, h⟩
  · exact .inl h
  · split at h
    · next hb => exact .inr ⟨hf, hb, (Host.Outcome.next.inj h).symm⟩
    · cases h

/-- Everything `FLUSH` can do. -/
theorem exec_flush_cases {s t : State} (h : exec .flush s = .next t) :
    (s.enc.fault = true ∧ t = respond s.enc.err s) ∨
    (s.enc.fault = false ∧
      t = respondTotal (flushWindow s.cfg.signed s.enc).port.bytesWritten
        (sinkFlush { s with enc := flushWindow s.cfg.signed s.enc })) := by
  rcases whenEncoderReady_cases h with h | ⟨hf, h⟩
  · exact .inl h
  · exact .inr ⟨hf, (Host.Outcome.next.inj h).symm⟩

/-- Everything a step can do when it answers a next state: nothing is pending, or the oldest command
is issued and executed. -/
theorem step_cases {s t : State} (h : step s = .next t) :
    (s.pending = [] ∧ t = s) ∨
    ∃ r rest i, s.pending = r :: rest ∧ decodeCommand r.command = .ok i ∧
      exec i (s.issue r rest) = .next t := by
  unfold step at h
  split at h
  · next hp => exact .inl ⟨hp, (Host.Outcome.next.inj h).symm⟩
  · next r rest hp =>
    split at h
    · next i hd => exact .inr ⟨r, rest, i, hp, hd, h⟩
    · cases h

/-- What a port's command can be: one of the six. -/
theorem decodeCommand_cases {c : CommandWord} {i : Instr} (h : decodeCommand c = .ok i) :
    i = .reset c.signed ∨ i = .next c.count c.masked ∨ i = .skip c.count ∨
      i = .seek c.p0 c.p1 c.p2 c.p3 ∨ i = .add c.count c.masked ∨ i = .flush := by
  unfold decodeCommand at h
  split_ifs at h <;> simp only [Except.ok.injEq] at h <;> subst h <;> simp

end Sys2Proof.Laws
end

