-- ==== Sys2Proof/Laws/PatchWalk.lean ====
section
/-! SUPPORT. The patch walk in closed form. -/

namespace Sys2Proof.Laws

open Sys2Proof.Machine

/-- The contribution of entry `k` to run position `i` when the walk starts at `cursor`. -/
def contributionFrom (kind : GapSentinel) (w pw pgw cursor : Nat) (es : List Word) (i k : Nat) :
    Word :=
  if chains kind pw pgw es k = false ∧ cursor + patchPosition pw es k = i then
    patchOf pw (es.getD k 0) <<< w
  else 0

/-- The list is walked to its end: every patch stands inside, and the last entry does not chain. -/
def WalkLegal (kind : GapSentinel) (pw pgw cursor : Nat) (es : List Word) (pending : Bool)
    (length : Nat) : Prop :=
  (∀ k, k < es.length → chains kind pw pgw es k = false →
    cursor + patchPosition pw es k < length) ∧
  (if es = [] then pending = false else chains kind pw pgw es (es.length - 1) = false)

@[simp] theorem patchPosition_zero (pw : Nat) (e : Word) (es : List Word) :
    patchPosition pw (e :: es) 0 = gapOf pw e := by simp [patchPosition]

@[simp] theorem patchPosition_succ (pw : Nat) (e : Word) (es : List Word) (k : Nat) :
    patchPosition pw (e :: es) (k + 1) = gapOf pw e + patchPosition pw es k := by
  simp [patchPosition]

@[simp] theorem chains_zero (kind : GapSentinel) (pw pgw : Nat) (e : Word) (es : List Word) :
    chains kind pw pgw (e :: es) 0 = isChain kind pgw (gapOf pw e) (patchOf pw e) := rfl

@[simp] theorem chains_succ (kind : GapSentinel) (pw pgw : Nat) (e : Word) (es : List Word)
    (k : Nat) : chains kind pw pgw (e :: es) (k + 1) = chains kind pw pgw es k := by
  simp [chains]

theorem walkLegal_cons (kind : GapSentinel) (pw pgw cursor : Nat) (e : Word) (es : List Word)
    (pending : Bool) (n : Nat) :
    WalkLegal kind pw pgw cursor (e :: es) pending n ↔
      (isChain kind pgw (gapOf pw e) (patchOf pw e) = false → cursor + gapOf pw e < n) ∧
      WalkLegal kind pw pgw (cursor + gapOf pw e) es
        (isChain kind pgw (gapOf pw e) (patchOf pw e)) n := by
  have hlast : (chains kind pw pgw (e :: es) ((e :: es).length - 1) = false) ↔
      (if es = [] then isChain kind pgw (gapOf pw e) (patchOf pw e) = false
        else chains kind pw pgw es (es.length - 1) = false) := by
    cases es with
    | nil => simp
    | cons e' es' => simp
  unfold WalkLegal
  rw [if_neg (List.cons_ne_nil e es), hlast, ← and_assoc]
  refine and_congr_left fun _ => ⟨fun h => ⟨fun hc => ?_, fun k hk hc => ?_⟩, ?_⟩
  · have := h 0 (by simp) hc
    rwa [patchPosition_zero] at this
  · have := h (k + 1) (by simp; omega) (by rw [chains_succ]; exact hc)
    rw [patchPosition_succ] at this
    omega
  · rintro ⟨h0, hS⟩ k hk hc
    cases k with
    | zero => rw [patchPosition_zero]; exact h0 hc
    | succ k =>
      have := hS k (by simpa using hk) (by rwa [chains_succ] at hc)
      rw [patchPosition_succ]
      omega

theorem contributions_cons (kind : GapSentinel) (w pw pgw cursor : Nat) (e : Word)
    (es : List Word) (i : Nat) (v : Word) :
    (List.range (e :: es).length).foldl
        (fun v k => v ||| contributionFrom kind w pw pgw cursor (e :: es) i k) v =
      (List.range es.length).foldl
        (fun v k => v ||| contributionFrom kind w pw pgw (cursor + gapOf pw e) es i k)
        (v ||| if isChain kind pgw (gapOf pw e) (patchOf pw e) = false ∧ cursor + gapOf pw e = i
          then patchOf pw e <<< w else 0) := by
  rw [List.length_cons, List.range_succ_eq_map, List.foldl_cons, List.foldl_map]
  simp only [contributionFrom, Nat.succ_eq_add_one, chains_succ, patchPosition_succ, chains_zero,
    patchPosition_zero, List.getD_cons_zero, List.getD_cons_succ, Nat.add_assoc]

open Classical in
/-- The walk of rule R209 with the check of rule R210, from any cursor: every patch position is the
sum of the gaps up to it, and the patches are ORed in list order. -/
theorem applyPatchesFrom_closed (kind : GapSentinel) (w pw pgw : Nat) (es : List Word)
    (cursor : Nat) (pending : Bool) (sc : List Word) :
    applyPatchesFrom kind w pw pgw es cursor pending sc =
      if WalkLegal kind pw pgw cursor es pending sc.length then
        .ok ((List.range sc.length).map fun i => (List.range es.length).foldl
          (fun v k => v ||| contributionFrom kind w pw pgw cursor es i k) (sc.getD i 0))
      else .error .malformedHeader := by
  induction es generalizing cursor pending sc with
  | nil =>
    have hmap : ((List.range sc.length).map fun i => (List.range ([] : List Word).length).foldl
        (fun v k => v ||| contributionFrom kind w pw pgw cursor [] i k) (sc.getD i 0)) = sc := by
      apply List.ext_getElem
      · simp
      · intro i h1 h2; simp [h2]
    rw [hmap]
    cases pending <;> simp [applyPatchesFrom, WalkLegal]
  | cons e es ih =>
    simp only [walkLegal_cons, contributions_cons]
    unfold applyPatchesFrom
    dsimp only
    cases hch : isChain kind pgw (gapOf pw e) (patchOf pw e) with
    | true =>
      rw [if_pos rfl, ih]
      simp
    | false =>
      rw [if_neg (by simp)]
      by_cases hle : sc.length ≤ cursor + gapOf pw e
      · rw [if_pos hle, if_neg]
        intro h
        have := h.1 rfl
        omega
      · have hlt : cursor + gapOf pw e < sc.length := by omega
        rw [if_neg hle, ih, patchAt_length]
        simp only [hlt, true_and, implies_true]
        congr 2
        apply List.map_congr_left
        intro i hi
        simp only [List.mem_range] at hi
        congr 1
        unfold patchAt
        rw [List.getD_eq_getElem?_getD, List.getD_eq_getElem?_getD, List.getElem?_modify,
          List.getElem?_eq_getElem hi]
        by_cases h : cursor + gapOf pw e = i <;> simp [h]

open Classical in
/-- A patch list that is legal patches every delta (R209); any other is malformed (R209, R210). -/
theorem applyPatches_closed (kind : GapSentinel) (w pw pgw : Nat) (es ds : List Word) :
    applyPatches kind w pw pgw es ds =
      if PatchesLegal kind pw pgw es ds.length then
        .ok ((List.range ds.length).map (patchedDelta kind w pw pgw es ds))
      else .error .malformedHeader := by
  have hiff : WalkLegal kind pw pgw 0 es false ds.length ↔
      PatchesLegal kind pw pgw es ds.length := by
    constructor
    · rintro ⟨h1, h2⟩
      refine ⟨fun k hk hc => by simpa using h1 k hk hc, ?_⟩
      split at h2
      · next h => subst h; rfl
      · exact h2
    · rintro ⟨h1, h2⟩
      refine ⟨fun k hk hc => by simpa using h1 k hk hc, ?_⟩
      split
      · rfl
      · exact h2
  unfold applyPatches
  rw [applyPatchesFrom_closed]
  by_cases hl : PatchesLegal kind pw pgw es ds.length
  · rw [if_pos hl, if_pos (hiff.mpr hl)]
    simp only [contributionFrom, Nat.zero_add]
    rfl
  · rw [if_neg hl, if_neg fun h => hl (hiff.mp h)]

end Sys2Proof.Laws
end

