-- ==== Sys2Proof/Laws/PerInstr.lean ====
section
/-! SUPPORT. Statements about every instruction, one lemma per constructor. -/

namespace Sys2Proof.Laws

open Sys2Proof.Machine

theorem tagOf_sr (a b : BitVec 3) : tagOf (0#2 ++ a ++ b) = 0 := by revert a b; decide

theorem tagOf_headByte (tag : BitVec 2) (code : BitVec 5) (length : Nat) :
    tagOf (headByte tag code length) = tag := by
  unfold headByte
  generalize (BitVec.ofNat 9 (length - 1)).extractLsb' 8 1 = b
  revert tag code b
  decide

/-- The words of an instruction have the size its first word announces: a run header as many bytes
as its tag calls for (rule R81), a command a code of the six (rule R101). -/
def HeaderLength.Statement (i : Instr) : Prop :=
  match encode i with
  | .stream bytes => ∃ h0 rest, bytes = h0 :: rest ∧ bytes.length = headerLength (tagOf h0)
  | .port command => command.code.toNat ≤ 5

theorem HeaderLength.sr (byteWidth repeatCount : Nat) :
    HeaderLength.Statement (.sr byteWidth repeatCount) :=
  ⟨_, _, rfl, by rw [tagOf_sr]; rfl⟩

theorem HeaderLength.direct (bitWidth length : Nat) :
    HeaderLength.Statement (.direct bitWidth length) :=
  ⟨_, _, rfl, by rw [tagOf_headByte]; rfl⟩

theorem HeaderLength.pb (deltaWidth length baseWidth patchWidth gapWidth listLength : Nat) :
    HeaderLength.Statement (.pb deltaWidth length baseWidth patchWidth gapWidth listLength) :=
  ⟨_, _, rfl, by rw [tagOf_headByte]; rfl⟩

theorem HeaderLength.delta (deltaWidth length : Nat) :
    HeaderLength.Statement (.delta deltaWidth length) :=
  ⟨_, _, rfl, by rw [tagOf_headByte]; rfl⟩

theorem HeaderLength.reset (signed : Bool) : HeaderLength.Statement (.reset signed) := by
  show (0x00#8).toNat ≤ 5; decide

theorem HeaderLength.next (n : BitVec 32) (masked : Bool) :
    HeaderLength.Statement (.next n masked) := by
  show (0x01#8).toNat ≤ 5; decide

theorem HeaderLength.skip (k : BitVec 32) : HeaderLength.Statement (.skip k) := by
  show (0x02#8).toNat ≤ 5; decide

theorem HeaderLength.seek (p0 p1 p2 p3 : Word) : HeaderLength.Statement (.seek p0 p1 p2 p3) := by
  show (0x03#8).toNat ≤ 5; decide

theorem HeaderLength.add (count : BitVec 32) (masked : Bool) :
    HeaderLength.Statement (.add count masked) := by
  show (0x04#8).toNat ≤ 5; decide

theorem HeaderLength.flush : HeaderLength.Statement .flush := by
  show (0x05#8).toNat ≤ 5; decide

end Sys2Proof.Laws
end

