-- ==== Sys2Proof/Tests/Slice0.lean ====
section
/-! SUPPORT. Tests: ill-formed terms, words written from the header layouts, one small step per
instruction, and for each obligation with hypotheses a state and operands that meet them. Expected
values come from `spec/` (rules' examples, `95_test_vectors.md`), never from the model. -/

namespace Sys2Proof.Tests

open Sys2Proof Sys2Proof.Machine Sys2Proof.Laws

/-! ### Well-formedness refuses each out-of-range operand -/

theorem test_wf_sr_byteWidth : (Instr.sr 9 3).wellFormed = false := by decide
theorem test_wf_sr_byteWidth_zero : (Instr.sr 0 3).wellFormed = false := by decide
theorem test_wf_sr_repeatCount_low : (Instr.sr 1 2).wellFormed = false := by decide
theorem test_wf_sr_repeatCount_high : (Instr.sr 1 11).wellFormed = false := by decide
theorem test_wf_direct_width : (Instr.direct 25 4).wellFormed = false := by decide
theorem test_wf_direct_length : (Instr.direct 24 513).wellFormed = false := by decide
theorem test_wf_direct_length_zero : (Instr.direct 24 0).wellFormed = false := by decide
theorem test_wf_pb_deltaWidth : (Instr.pb 33 4 1 3 2 0).wellFormed = false := by decide
theorem test_wf_pb_length : (Instr.pb 2 0 1 3 2 0).wellFormed = false := by decide
theorem test_wf_pb_baseWidth_zero : (Instr.pb 2 4 0 3 2 0).wellFormed = false := by decide
theorem test_wf_pb_baseWidth : (Instr.pb 2 4 9 3 2 0).wellFormed = false := by decide
theorem test_wf_pb_patchWidth : (Instr.pb 2 4 1 57 2 0).wellFormed = false := by decide
theorem test_wf_pb_gapWidth_zero : (Instr.pb 2 4 1 3 0 0).wellFormed = false := by decide
theorem test_wf_pb_gapWidth : (Instr.pb 2 4 1 3 9 0).wellFormed = false := by decide
theorem test_wf_pb_listLength : (Instr.pb 2 4 1 3 2 32).wellFormed = false := by decide
theorem test_wf_delta_width_one : (Instr.delta 1 4).wellFormed = false := by decide
theorem test_wf_delta_width : (Instr.delta 41 4).wellFormed = false := by decide
theorem test_wf_delta_length : (Instr.delta 0 513).wellFormed = false := by decide
theorem test_wf_accepts :
    ([.sr 8 10, .direct 64 512, .pb 64 512 8 64 8 31, .delta 0 1, .delta 2 512, .reset true,
      .next 0 true, .skip 0, .seek 0 0 0 0, .add 0 false, .flush] : List Instr).all
      Instr.wellFormed = true := by decide

/-! ### Words written out bit by bit from the layouts of `30_encoding.md` -/

/-- Rule R88, `00 001 010`: two bytes, five copies. -/
theorem test_decode_sr : decode (.stream [0b00001010#8]) = .ok (.sr 2 5) := by decide
/-- Rule R90, `01 01111 0`, `00000011`: width code 15, length 4. -/
theorem test_decode_direct :
    decode (.stream [0b01011110#8, 0b00000011#8]) = .ok (.direct 16 4) := by decide
/-- Rule R90 with the ninth length bit: `01 11111 1`, all ones: width 64, length 512. -/
theorem test_decode_direct_longest :
    decode (.stream [0b01111111#8, 0b11111111#8]) = .ok (.direct 64 512) := by decide
/-- Rule R92, `10 00010 0`, `00000101`, `000 10000`, `010 00001`. -/
theorem test_decode_pb :
    decode (.stream [0b10000100#8, 0b00000101#8, 0b00010000#8, 0b01000001#8]) =
      .ok (.pb 3 6 1 17 3 1) := by decide
/-- Rule R96, `11 00011 0`, `00001001`: width code 3, length 10. -/
theorem test_decode_delta :
    decode (.stream [0b11000110#8, 0b00001001#8]) = .ok (.delta 4 10) := by decide
/-- Rule R86: code 0 is width 0 in a Delta header. -/
theorem test_decode_delta_constant :
    decode (.stream [0b11000001#8, 0b11111111#8]) = .ok (.delta 0 512) := by decide
/-- Rule R101. -/
theorem test_decode_reset :
    decode (.port { CommandWord.bare 0x00 with signed := true }) = .ok (.reset true) := by decide
theorem test_decode_next :
    decode (.port { CommandWord.bare 0x01 with count := 7, masked := true }) = .ok (.next 7 true) := by
  decide
theorem test_decode_skip :
    decode (.port { CommandWord.bare 0x02 with count := 6 }) = .ok (.skip 6) := by decide
theorem test_decode_seek :
    decode (.port { CommandWord.bare 0x03 with p0 := 1, p1 := 2, p2 := 3, p3 := 4 }) =
      .ok (.seek 1 2 3 4) := by decide
theorem test_decode_add :
    decode (.port { CommandWord.bare 0x04 with count := 5 }) = .ok (.add 5 false) := by decide
theorem test_decode_flush : decode (.port (CommandWord.bare 0x05)) = .ok .flush := by decide
theorem test_decode_unknown :
    decode (.port (CommandWord.bare 0x06)) = .error (.unknownCommand 0x06) := by decide
theorem test_decode_cut_short : decode (.stream [0x8e, 0x13, 0x2b]) = .error .truncatedHeader := by
  decide
/-- A table word numbers the first byte in its lowest bits. -/
theorem test_table_word : decodeTableWord 16 0x035e = some (.direct 16 4) := by decide
theorem test_table_word_command : decodeTableWord 8 0x05 = some .flush := by decide

/-! ### Small states -/

/-- The reset state over an input. -/
def onInput (bytes : List Byte) : State := { State.reset with input := Memory.ofBytes bytes }

/-- The reset state with one command pending. -/
def issued (bytes : List Byte) (command : CommandWord) (out : List Word) : State :=
  { onInput bytes with pending := [{ Request.bare command with out := out }] }

/-- A view of the next state, if there is one. -/
def view {α : Type} (f : State → α) : Host.Outcome State Fault Refusal → Option α
  | .next t => some (f t)
  | _ => none

/-- What a fetched run shows: its values, the stream position, the unread bits. -/
def runView (t : State) : List Word × Nat × Nat :=
  (t.dec.runBuffer.take t.dec.runLength, t.dec.cur.spos, t.dec.cur.bitsLeft)

/-- What a command shows: the slots, the status, the stream position. -/
def slotView (t : State) : List Word × BitVec 3 × Nat :=
  (t.out, t.response.status, t.dec.cur.spos)

/-- What the encoder shows: the bytes of `OUT`, the literals buffered, the total. -/
def sinkView (t : State) : List Byte × Nat × Option Word :=
  (Memory.bytes t.enc.port.out, t.enc.litCount, t.response.total)

/-! ### One step of each instruction -/

/-- Vector A1, after its header byte. -/
theorem test_sr : view runView (exec (.sr 2 5) (onInput [0x27, 0x10])) =
    some (List.replicate 5 10000, 2, 0) := by decide +kernel
/-- Vector A3: signed. -/
theorem test_sr_signed : view runView (exec (.sr 1 4)
    { onInput [0x03] with cfg := { Settings.default with signed := true } }) =
      some (List.replicate 4 (-2), 1, 0) := by decide +kernel
/-- Vector B1. -/
theorem test_direct : view runView
    (exec (.direct 16 4) (onInput [0x5c, 0xa1, 0xab, 0x1e, 0xde, 0xad, 0xbe, 0xef])) =
      some ([23713, 43806, 57005, 48879], 8, 0) := by decide +kernel
/-- Vector B5: a width that is no multiple of the byte. -/
theorem test_direct_26 : view runView
    (exec (.direct 26 2) (onInput [0x40, 0x00, 0x00, 0x00, 0x00, 0x00, 0x30])) =
      some ([16777216, 3], 7, 4) := by decide +kernel
/-- Vector P1. -/
theorem test_pb : view runView
    (exec (.pb 3 6 1 17 3 1) (onInput [0x0a, 0x08, 0xe7, 0x1e, 0xdd, 0xc8])) =
      some ([10, 12, 11, 900000, 13, 14], 6, 2) := by decide +kernel
/-- Vector P2: a chaining entry. -/
theorem test_pb_chain : view runView
    (exec (.pb 2 8 1 4 2 2) (onInput [0xe4, 0x1b, 0x1b, 0xc2, 0x50])) =
      some ([-100, -99, -98, -97, -100, -79, -98, -97], 5, 4) := by decide +kernel
/-- Vector L1. -/
theorem test_delta : view runView
    (exec (.delta 4 10) (onInput [0x04, 0x02, 0x22, 0x42, 0x42, 0x46])) =
      some ([2, 3, 5, 7, 11, 13, 17, 19, 23, 29], 6, 0) := by decide +kernel
/-- Vector L4: a decreasing run. -/
theorem test_delta_down : view runView
    (exec (.delta 3 5) (onInput [0xc8, 0x01, 0x05, 0x23, 0x80])) =
      some ([100, 97, 96, 96, 89], 5, 7) := by decide +kernel
/-- Rule R164's example: the run is fetched, then two of its five values are taken. -/
theorem test_next : view slotView
    (step (issued [0x0a, 0x27, 0x10] { CommandWord.bare 0x01 with count := 2 } [0, 0])) =
      some ([10000, 10000], 0, 3) := by decide +kernel
/-- Vector B9: the payload is cut short. -/
theorem test_next_truncated : view (fun t => (t.response.status, t.dec.err, t.dec.fault))
    (step (issued [0x5e, 0x03, 0x5c, 0xa1, 0xab]
      { CommandWord.bare 0x01 with count := 1 } [0])) = some (2, 2, true) := by decide +kernel
/-- Rule R236's example: the first run and one value of the second are skipped. -/
theorem test_skip : view (fun t => (t.response.status, t.dec.runConsumed, t.dec.cur.spos))
    (step (issued [0x0a, 0x27, 0x10, 0x5e, 0x03, 0x5c, 0xa1, 0xab, 0x1e, 0xde, 0xad, 0xbe, 0xef]
      { CommandWord.bare 0x02 with count := 6 } [])) = some (0, 1, 13) := by decide +kernel
/-- Rule R240's example: the second run, two values of it taken. -/
theorem test_seek : view (fun t => (t.response.status, t.dec.runConsumed, t.dec.cur.spos))
    (step (issued [0x0a, 0x27, 0x10, 0x5e, 0x03, 0x5c, 0xa1, 0xab, 0x1e, 0xde, 0xad, 0xbe, 0xef]
      { CommandWord.bare 0x03 with p1 := 3, p3 := 2 } [])) = some (0, 2, 13) := by decide +kernel
/-- Rule R240: a position beyond the end. -/
theorem test_seek_out_of_range : view (fun t => (t.response.status, t.dec.err, t.dec.fault))
    (step (issued [0x0a, 0x27, 0x10] { CommandWord.bare 0x03 with p1 := 4 } [])) =
      some (4, 4, true) := by decide +kernel
/-- Rule R251's example: five literals are buffered, nothing is written. -/
theorem test_add : view sinkView
    (exec (.add 5 false) { State.reset with values := [5, 5, 5, 5, 5] }) =
      some ([], 5, none) := by decide +kernel
/-- Rule R254's example `[1,2,3,3,3,3,4]`: Direct, Short Repeat, Direct. -/
theorem test_flush : view sinkView
    (exec .flush { State.reset with enc := { Encoder.reset with
      litBuf := [1, 2, 3, 3, 3, 3, 4] ++ List.replicate 505 0, litCount := 7 } }) =
      some ([0x42, 0x01, 0x60, 0x01, 0x03, 0x44, 0x00, 0x80], 0, some 8) := by decide +kernel
/-- Rule R290. -/
theorem test_reset : view
    (fun t => (t.cfg.signed, t.dec.cur.spos, t.dec.fault, Memory.bytes t.input, t.response.status))
    (exec (.reset true) { State.reset with
      presented := Memory.ofBytes [0x01, 0x03]
      dec := { Decoder.reset with fault := true, err := 2 } }) =
      some (true, 0, false, [0x01, 0x03], 0) := by decide +kernel
/-- Rule R258. -/
theorem test_reset_no_sink : view (fun t => (t.enc.fault, t.enc.err, t.response.status))
    (exec (.reset false)
      { State.reset with cfg := { Settings.default with sinkCapacity := 0 } }) =
      some (true, 5, 5) := by decide +kernel
/-- The interface runs the table's word as the very next step: here vector A5's header alone over
zeros, and one of its ten positions is consumed. -/
theorem test_withFetchWord : view (fun t => (t.dec.bw, t.dec.runLength, t.dec.runConsumed))
    (step (State.reset.withFetchWord 8 0x3f)) = some (8, 10, 1) := by decide +kernel
/-- Rule R213's run assembled from its line (rule R107). -/
theorem test_assemble : assemble Settings.default
    (.pb 3 1 17 3 false 10 [0, 2, 1, 6, 3, 4] [(3, 112498)]) =
      [0x84, 0x05, 0x10, 0x41, 0x0a, 0x08, 0xe7, 0x1e, 0xdd, 0xc8] := by decide +kernel

/-! ### Witnesses: for each obligation with hypotheses, a state and operands that meet them all -/

theorem witness_DecodeOfEncode :
    (Instr.pb 64 512 8 56 8 31).wellFormed = true ∧ (Instr.delta 2 1).wellFormed = true := by decide

theorem witness_HeaderHasOneSpelling :
    decodeHeader [0x82, 0x07, 0x03, 0x22, 0xe4] = .ok (.pb 2 8 1 4 2 2, [0xe4]) := by decide

/-- The shortest header of each tag. -/
theorem witness_EveryFirstByteStartsARun :
    headerLength (tagOf 0x3f) ≤ ([] : List Byte).length + 1 ∧
    headerLength (tagOf 0x40) ≤ [(0x00 : Byte)].length + 1 ∧
    headerLength (tagOf 0xbf) ≤ [(0x00 : Byte), 0x00, 0x00].length + 1 ∧
    headerLength (tagOf 0xc0) ≤ [(0x00 : Byte)].length + 1 := by decide

theorem witness_UnknownCommandsAreRefused :
    ∃ (s : State) (r : Request), s.pending = [r] ∧ 5 < r.command.code.toNat :=
  ⟨issued [] (CommandWord.bare 0x06) [], _, rfl, by decide⟩

theorem witness_CodeOfInvertsWidth :
    isTableWidth 1 = true ∧ isTableWidth 64 = true ∧ 1 ≤ 24 ∧ 24 ≤ 24 := by decide

theorem witness_ClosestWidthIsLeast : 0 ≤ 64 ∧ 64 ≤ 64 ∧ max 64 1 ≤ widthOfCode 31 := by decide

theorem witness_ZigzagDecodesByParity : 0 < 2 ^ 63 ∧ 2 ^ 63 - 1 < 2 ^ 63 := by omega

/-- Rule R124's example `[0x80, 0x01]`, and a stream that ends inside a varint. -/
theorem witness_VarintRead :
    (Memory.wf (Memory.ofBytes [0x80, 0x01]) = true ∧
      Holds (Memory.ofBytes [0x80, 0x01]) 0 [0x80, 0x01] ∧ IsVarint [0x80, 0x01]) ∧
    ∀ a b, 0 ≤ a → Memory.read? (Memory.ofBytes [0x80]) a = some b → b.msb = true := by
  refine ⟨⟨by decide, holds_ofBytes _, by decide, by show BitVec.msb _ = _; decide⟩, ?_⟩
  intro a b _ h
  simp only [Memory.ofBytes, Memory.cellsFrom, Memory.read?] at h
  split at h <;> simp at h
  subst h; decide

/-- The largest value each length of `writeLongBE` holds. -/
theorem witness_ByteReadersInvertWriters :
    WritePort.reset.Counted ∧ Cursor.reset.spos = Memory.size WritePort.reset.out ∧
    1 ≤ 1 ∧ 8 ≤ 8 ∧ (0xff : Word).toNat < 2 ^ (8 * 1) ∧
    (0xffffffffffffffff : Word).toNat < 2 ^ (8 * 8) :=
  ⟨counted_reset, rfl, by decide, by decide, by decide, by decide⟩

/-- Rule R130's example: two bits pending, one field of three bits, one byte fetched. -/
theorem witness_UnpackerClosedForm :
    (2 ≤ 8) ∧ [(0xc0 : Byte)].length = fetchCount 2 1 3 ∧
      Holds (Memory.ofBytes [0xc0]) 0 [0xc0] :=
  ⟨by decide, by decide, holds_ofBytes _⟩

theorem witness_UnpackerInvertsPacker :
    WritePort.reset.Counted ∧ WritePort.reset.wbitsLeft = 8 ∧ WritePort.reset.wcurByte = 0 ∧
    (∀ v ∈ [(2 : Word), 3, 1], v.toNat < 2 ^ 2) ∧
    Cursor.reset.spos = Memory.size WritePort.reset.out ∧ Cursor.reset.bitsLeft = 0 :=
  ⟨counted_reset, rfl, rfl, by simp, rfl, rfl⟩

theorem witness_ShortRepeatCompletes :
    (onInput [0x27, 0x10]).dec.fault = false ∧ [(0x27 : Byte), 0x10].length = 2 ∧
      Holds (onInput [0x27, 0x10]).input 0 [0x27, 0x10] :=
  ⟨rfl, rfl, holds_ofBytes _⟩

/-- Rule R196's payload of `[1, 2, 3]`: three fields of two bits, two padding bits. -/
theorem witness_DirectCompletes :
    (onInput [0x6c]).dec.fault = false ∧ (onInput [0x6c]).dec.cur.bitsLeft ≤ 8 ∧
      isTableWidth 2 = true ∧ [(0x6c : Byte)].length = fetchCount 0 3 2 ∧
      Holds (onInput [0x6c]).input 0 [0x6c] :=
  ⟨rfl, Nat.zero_le _, by decide, by decide, holds_ofBytes _⟩

/-- The magnitudes on both sides of the sign bit, for one and for eight bytes. -/
theorem witness_BaseIsSignAndMagnitude :
    (0x7f : Word).toNat < 2 ^ (8 * 1 - 1) ∧ (0x80 : Word).toNat < 2 ^ (8 * 1) ∧
    ¬ (0x80 : Word).toNat < 2 ^ (8 * 1 - 1) ∧
    ¬ (0x8000000000000000 : Word).toNat < 2 ^ (8 * 8 - 1) := by decide

/-- The body of rule R214's example: base −100, eight deltas, a chaining entry and a patch. -/
theorem body_of_R214 :
    PatchedBaseBody Settings.default (Memory.ofBytes [0xe4, 0x1b, 0x1b, 0xc2, 0x50]) Cursor.reset
      2 8 1 4 2 2 (-100) [0, 1, 2, 3, 0, 1, 2, 3] [0x30, 0x25]
      { spos := 5, bitsLeft := 4, curByte := 0x50 } := by
  refine ⟨[0xe4], [0x1b, 0x1b], [0xc2, 0x50], { spos := 1, bitsLeft := 0, curByte := 0 },
    { spos := 3, bitsLeft := 0, curByte := 0x1b }, { spos := 3, bitsLeft := 0, curByte := 0x1b },
    rfl, ?_, by decide, rfl, by decide, ?_, by decide, by decide, rfl, by decide, ?_, by decide,
    by decide⟩ <;> unfold Holds <;> decide

theorem witness_PatchedBaseCompletes :
    (onInput [0xe4, 0x1b, 0x1b, 0xc2, 0x50]).dec.fault = false ∧
    isTableWidth 2 = true ∧ isTableWidth 4 = true ∧ 2 + 4 ≤ 64 ∧
    PatchedBaseBody Settings.default (onInput [0xe4, 0x1b, 0x1b, 0xc2, 0x50]).input Cursor.reset
      2 8 1 4 2 2 (-100) [0, 1, 2, 3, 0, 1, 2, 3] [0x30, 0x25]
      { spos := 5, bitsLeft := 4, curByte := 0x50 } ∧
    PatchesLegal .maxGap 4 2 [0x30, 0x25] 8 := by
  refine ⟨rfl, by decide, by decide, by decide, body_of_R214, ?_, by decide⟩
  intro k hk
  have : k = 0 ∨ k = 1 := by simp at hk; omega
  rcases this with rfl | rfl <;> decide

theorem witness_PatchedBaseWidthCheck :
    State.reset.dec.fault = false ∧ 64 < 1 + 64 ∧ isTableWidth 64 = true := by decide +kernel

/-- The same body over a run of five positions: the patch stands at position 5. -/
theorem witness_PatchedBaseListCheck :
    PatchedBaseBody Settings.default (Memory.ofBytes [0xe4, 0x1b, 0x1b, 0xc2, 0x50]) Cursor.reset
      2 8 1 4 2 2 (-100) [0, 1, 2, 3, 0, 1, 2, 3] [0x30, 0x25]
      { spos := 5, bitsLeft := 4, curByte := 0x50 } ∧
    ¬ PatchesLegal .maxGap 4 2 [0x30, 0x25] 5 ∧ ¬ PatchesLegal .maxGap 4 2 [0x30] 8 ∧
    ¬ PatchesLegal .maxGap 4 1 [0x30, 0x25] 5 :=
  ⟨body_of_R214, fun h => absurd (h.inside 1 (by decide) (by decide)) (by decide),
    fun h => absurd h.closed (by decide),
    fun h => absurd (h.inside 1 (by decide) (by decide)) (by decide)⟩

/-- Rule R229's runs: five values down, and the lengths 1 and 2 without magnitudes. -/
theorem witness_DeltaCompletes :
    Memory.wf (onInput [0xc8, 0x01, 0x05, 0x23, 0x80]).input = true ∧
    (isTableWidth 3 = true ∧ 3 ≠ 1) ∧ IsVarint [0xc8, 0x01] ∧ IsVarint [0x05] ∧
    Holds (onInput [0xc8, 0x01, 0x05, 0x23, 0x80]).input 0 ([0xc8, 0x01] ++ [0x05] ++ [0x23, 0x80]) ∧
    [(0x23 : Byte), 0x80].length = fetchCount 0 (5 - 2) 3 ∧
    ([] : List Byte).length = fetchCount 0 (1 - 2) 5 ∧
    ([] : List Byte).length = fetchCount 0 (2 - 2) 5 ∧
    ([] : List Byte).length = fetchCount 0 0 0 :=
  ⟨by decide, by decide, ⟨by decide, by show BitVec.msb _ = _; decide⟩,
    by show BitVec.msb _ = _; decide, holds_ofBytes _, by decide, by decide, by decide, by decide⟩

theorem witness_ConstantStride :
    Memory.wf (onInput [0x02, 0x02]).input = true ∧ (onInput [0x02, 0x02]).dec.fault = false ∧
    IsVarint [0x02] ∧ Holds (onInput [0x02, 0x02]).input 0 ([0x02] ++ [0x02]) :=
  ⟨by decide, rfl, by show BitVec.msb _ = _; decide, holds_ofBytes _⟩

/-- A decoder with a run of five values in progress, two of them taken. -/
def midRun : State :=
  { State.reset with
    out := [0, 0, 0]
    mask := [true, false, true]
    dec := { Decoder.reset with
      dstate := .inRun, runLength := 5, runConsumed := 2
      runBuffer := [1, 2, 3, 4, 5] ++ List.replicate 507 0 } }

/-- Each place where a run can be cut short, one byte missing: a two-byte value; a payload; a Patched
Base body whose first entry (gap 6) lies outside its four positions while the second is cut, and the
body of rule R213, which `P_PB_SECTION_ALIGN` makes one byte longer; the base, `firstDelta` and the
magnitudes of vector L1; headers of two and of four bytes. -/
theorem witness_CutShortRunsAreTruncated :
    (Memory.wf (onInput [0x27]).input = true ∧ (onInput [0x27]).dec.fault = false ∧
      (onInput [0x27]).dec.cur.bitsLeft ≤ 8 ∧ Memory.size (onInput [0x27]).input < 0 + 2) ∧
    Memory.size (onInput [0x5c, 0xa1, 0xab, 0x1e]).input < 0 + fetchCount 0 5 8 ∧
    (3 + 4 ≤ 64 ∧ Memory.size (onInput [0x00, 0x00, 0xc2]).input <
      0 + patchedBaseBytes Settings.default 0 2 4 1 4 3 2 ∧
      ¬ PatchesLegal .maxGap 4 3 [0x61] 4 ∧
      view (fun t => t.dec.err) (exec (.pb 2 4 1 4 3 2) (onInput [0x00, 0x00, 0xc2])) = some 2) ∧
    (Memory.size (onInput [0x0a, 0x08, 0xe7, 0x1e, 0xdd, 0xc8]).input <
      0 + patchedBaseBytes { Settings.default with sectionAlign := true } 0 3 6 1 17 3 1) ∧
    NoVarintFrom (onInput [0x80]).input 0 ∧
    (IsVarint [0x04] ∧ Holds (onInput [0x04]).input 0 [0x04] ∧ NoVarintFrom (onInput [0x04]).input 1) ∧
    (IsVarint [0x02] ∧ Holds (onInput [0x04, 0x02, 0x22, 0x42, 0x42]).input 0 ([0x04] ++ [0x02]) ∧
      Memory.size (onInput [0x04, 0x02, 0x22, 0x42, 0x42]).input < 0 + 1 + 1 + fetchCount 0 (10 - 2) 4) ∧
    ((onInput [0x5e]).dec.dstate = .awaitingHeader ∧
      Memory.read? (onInput [0x5e]).input 0 = some 0x5e ∧
      Memory.size (onInput [0x5e]).input < 0 + headerLength (tagOf 0x5e) ∧
      0 < (1 : BitVec 32).toNat ∧ (1 : BitVec 32).toNat ≤ midRun.out.length) ∧
    Memory.size (onInput [0x8e, 0x13, 0x2b]).input < 0 + headerLength (tagOf 0x8e) := by
  refine ⟨by decide +kernel, by decide +kernel, ⟨by decide, by decide +kernel,
    fun h => absurd (h.inside 0 (by decide) (by decide)) (by decide), by decide +kernel⟩,
    by decide +kernel, ?_, ⟨by show BitVec.msb _ = _; decide, holds_ofBytes _, ?_⟩,
    ⟨by show BitVec.msb _ = _; decide, ?_, by decide +kernel⟩, by decide +kernel,
    by decide +kernel⟩
  · intro i b _ h
    simp only [onInput, Memory.ofBytes, Memory.cellsFrom, Memory.read?] at h
    split at h <;> simp at h
    subst h; decide
  · intro i b hi h
    simp only [onInput, Memory.ofBytes, Memory.cellsFrom, Memory.read?] at h
    split at h
    · omega
    · simp at h
  · unfold Holds; decide

theorem witness_RunFrame :
    ∃ t, exec (Run.sr 2 5).toInstr (onInput [0x27, 0x10]) = .next t ∧ t.dec.fault = false :=
  ⟨_, rfl, rfl⟩

/-- A Patched Base run that raises code 1. -/
theorem witness_MalformedOnlyFromPatchedBase :
    ∃ t, exec (Run.pb 2 4 1 64 1 1).toInstr State.reset = .next t ∧
      State.reset.dec.fault = false ∧ t.dec.fault = true ∧ t.dec.err = 1 :=
  ⟨_, rfl, rfl, rfl, rfl⟩

theorem witness_SignednessDoesNotReachPatchedBaseOrDelta :
    State.reset.cfg.deltaBase = .signed := rfl

/-- One slot, and the three that end the run. -/
theorem witness_NextInsideARun :
    midRun.dec.fault = false ∧ midRun.dec.dstate = .inRun ∧
    midRun.dec.runConsumed < midRun.dec.runLength ∧
    midRun.dec.runConsumed + (1 : BitVec 32).toNat ≤ midRun.dec.runLength ∧
    midRun.dec.runConsumed + (3 : BitVec 32).toNat = midRun.dec.runLength ∧
    midRun.dec.runLength ≤ midRun.dec.runBuffer.length ∧
    (3 : BitVec 32).toNat ≤ midRun.out.length := by decide +kernel

/-- One value of a run of five, and six values of it, of which the last has no run. -/
theorem witness_NextFetchesARun :
    ∃ d t u, fetchRun State.reset.cfg (onInput [0x02, 0x05]).input (onInput [0x02, 0x05]).dec = .ok d ∧
      exec (.next 1 false) { onInput [0x02, 0x05] with dec := d, out := [0] } = .next t ∧
      t.dec.fault = false ∧
      exec (.next 6 false) { onInput [0x02, 0x05] with dec := d, out := [0, 0, 0, 0, 0, 0] } =
        .next u ∧ u.dec.fault = true :=
  ⟨_, _, _, rfl, rfl, rfl, rfl, rfl⟩

/-- Both settings of the parameter. -/
theorem witness_PresenceMask :
    midRun.dec.fault = false ∧ (3 : BitVec 32).toNat ≤ midRun.out.length ∧
    (3 : BitVec 32).toNat ≤ midRun.mask.length ∧ midRun.cfg.maskConsumes = true ∧
    { midRun with cfg := { Settings.default with maskConsumes := false } }.cfg.maskConsumes =
      false := by decide +kernel

theorem witness_DecoderCommandFrame :
    (∃ t, exec (.next 3 true) midRun = .next t ∧ t.dec.fault = false) ∧
    midRun.mask[1]? = some false ∧ (∃ t, exec (.skip 3) midRun = .next t) ∧
    ∃ t, exec (.seek 0 0 0 0) midRun = .next t :=
  ⟨⟨_, rfl, rfl⟩, rfl, ⟨_, rfl⟩, ⟨_, rfl⟩⟩

theorem witness_NoValueAfterTheEnd :
    Memory.wf State.reset.input = true ∧ State.reset.dec.fault = false ∧
    State.reset.dec.dstate = .awaitingHeader ∧
    State.reset.dec.cur.spos = Memory.size State.reset.input ∧ 0 < (1 : BitVec 32).toNat ∧
    (1 : BitVec 32).toNat ≤ { State.reset with out := [0] }.out.length := by decide +kernel

theorem witness_SkipIsNextWithoutWrites :
    (2 : BitVec 32).toNat ≤ midRun.out.length ∧
    (1 : BitVec 32).toNat + (2 : BitVec 32).toNat < 2 ^ 32 ∧
    (1 : BitVec 32).toNat + (2 : BitVec 32).toNat ≤ midRun.out.length ∧
    ∃ t, exec (.next (1 + 2) false) midRun = .next t ∧ t.response.status = 0 :=
  ⟨by decide, by decide, by decide, _, rfl, rfl⟩

theorem witness_SkipInsideARun :
    midRun.dec.fault = false ∧ midRun.dec.dstate = .inRun ∧
    midRun.dec.runConsumed < midRun.dec.runLength ∧
    midRun.dec.runConsumed + (3 : BitVec 32).toNat ≤ midRun.dec.runLength := by decide +kernel

/-- The end of the input is a legal position (rule R240). -/
theorem witness_SeekCompletes :
    (onInput [0x02, 0x05]).dec.fault = false ∧
    streamLocate Settings.default.locate 1 1 = some 2 ∧
    2 ≤ Memory.size (onInput [0x02, 0x05]).input := by decide +kernel

theorem witness_SeekSkipsTheCount :
    (onInput [0x02, 0x05]).dec.fault = false ∧ (3 : Word).toNat < 2 ^ 32 ∧
    ∃ t, exec (.seek 0 0 0 0) (onInput [0x02, 0x05]) = .next t ∧ t.response.status = 0 :=
  ⟨rfl, by decide, _, rfl, rfl⟩

/-- One beyond the end; a token the collaborator does not know; and the error raised. -/
theorem witness_SeekOutOfRange :
    (∀ pos, streamLocate Settings.default.locate 1 2 = some pos →
      Memory.size (onInput [0x02, 0x05]).input < pos) ∧
    (∀ pos, streamLocate (.table []) 0 0 = some pos →
      Memory.size (onInput [0x02, 0x05]).input < pos) ∧
    ∃ t, exec (.seek 1 2 0 0) (onInput [0x02, 0x05]) = .next t ∧
      (onInput [0x02, 0x05]).dec.fault = false ∧ t.dec.fault = true ∧ t.dec.err = 4 := by
  refine ⟨?_, ?_, _, rfl, rfl, rfl, rfl⟩
  · intro pos h; cases h; decide
  · intro pos h; cases h

/-- A decoder half in its fault state. -/
def decoderFaulted : State :=
  { State.reset with dec := { Decoder.reset with fault := true, err := 2 } }

/-- An encoder half in its fault state. -/
def encoderFaulted : State :=
  { State.reset with
    cfg := { Settings.default with sinkCapacity := 0 }
    enc := { Encoder.reset with fault := true, err := 5 } }

theorem witness_DecoderFaultSticks : decoderFaulted.dec.fault = true := rfl

theorem witness_EncoderFaultSticks : encoderFaulted.enc.fault = true := rfl

/-- A `SKIP` and a `NEXT` past the end of the data. -/
theorem witness_DecoderFaultEntry :
    (∃ t, exec (.skip 1) State.reset = .next t ∧ State.reset.dec.fault = false ∧
      t.dec.fault = true) ∧
    ∃ t, exec (.next 1 false) { State.reset with out := [7, 8] } = .next t ∧
      t.dec.fault = true ∧ t.out[1]? = some 8 :=
  ⟨⟨_, rfl, rfl, rfl⟩, _, rfl, rfl, by decide +kernel⟩

theorem witness_InvalidWidthCodeNeverAppears :
    (∃ t, exec .flush State.reset = .next t) ∧ State.reset.dec.err ≠ 3 ∧ State.reset.enc.err ≠ 3 ∧
      State.reset.response.status ≠ 3 :=
  ⟨⟨_, rfl⟩, by decide +kernel, by decide +kernel, by decide +kernel⟩

theorem witness_OnlyResetLeavesAFault :
    (∃ t, exec (.skip 1) decoderFaulted = .next t) ∧ decoderFaulted.dec.fault = true ∧
    (∃ t, exec .flush encoderFaulted = .next t) ∧ encoderFaulted.enc.fault = true ∧
    State.reset.cfg.sinkCapacity ≠ 0 :=
  ⟨⟨_, rfl⟩, rfl, ⟨_, rfl⟩, rfl, by decide +kernel⟩

theorem witness_ResetRestarts : decoderFaulted.cfg.sinkCapacity ≠ 0 := by decide +kernel

theorem witness_ResetWithoutASink :
    encoderFaulted.cfg.sinkCapacity = 0 ∧ 1 ≠ 0 ∧ 2 ≠ 0 ∧
    (∃ t, exec (.reset true) { State.reset with cfg := { State.reset.cfg with sinkCapacity := 1 } } =
      .next t) ∧
    exec (.next 1 false) { State.reset with cfg := { State.reset.cfg with sinkCapacity := 1 } } =
      .refused .bufferTooShort := ⟨rfl, by decide, by decide, ⟨_, rfl⟩, rfl⟩

theorem witness_ParametersAreFixed : ∃ t, exec (.reset true) State.reset = .next t := ⟨_, rfl⟩

/-- The encoder with three literals in its window, and values to add. -/
def midWindow : State :=
  { State.reset with
    values := [1, 2, 3, 4], mask := [true, false, true, true]
    enc := { Encoder.reset with
      litCount := 3, litBuf := [7, 7, 7] ++ List.replicate 509 0 } }

/-- The same encoder with one place left in its window. -/
def nearlyFull : State :=
  { midWindow with enc := { midWindow.enc with litCount := 511 } }

theorem witness_AddBuffers :
    midWindow.enc.fault = false ∧ (4 : BitVec 32).toNat ≤ midWindow.values.length ∧
    midWindow.enc.litBuf.length = 512 ∧ midWindow.enc.litCount + (4 : BitVec 32).toNat < 512 := by
  decide +kernel

/-- The window just filled, three values past it, and as many as stop short of filling it twice. -/
theorem witness_AddEmitsAFullWindow :
    nearlyFull.enc.fault = false ∧ (4 : BitVec 32).toNat ≤ nearlyFull.values.length ∧
    nearlyFull.enc.litBuf.length = 512 ∧ nearlyFull.enc.litCount < 512 ∧
    nearlyFull.enc.litCount + (1 : BitVec 32).toNat = 512 + 0 ∧
    nearlyFull.enc.litCount + (4 : BitVec 32).toNat = 512 + 3 ∧
    nearlyFull.enc.litCount + (512 : BitVec 32).toNat = 512 + 511 ∧
    (512 : BitVec 32).toNat ≤
      { nearlyFull with values := List.replicate 512 1 }.values.length := by decide +kernel

/-- Two masked values into a window with one place left, then one. -/
theorem witness_AddInAnySplit :
    [(1 : Word), 2].length + [(3 : Word)].length < 2 ^ 32 ∧
    [true, false].length = [(1 : Word), 2].length ∧ [true].length = [(3 : Word)].length ∧
    ∃ t, exec (.add 2 true) { nearlyFull with values := [1, 2], mask := [true, false] } = .next t :=
  ⟨by decide, rfl, rfl, _, rfl⟩

/-- Both settings of the parameter. -/
theorem witness_AddMask :
    (4 : BitVec 32).toNat ≤ midWindow.values.length ∧
    (4 : BitVec 32).toNat ≤ midWindow.mask.length ∧ midWindow.cfg.maskConsumes = true ∧
    (List.range (4 : BitVec 32).toNat).map (fun i =>
      if midWindow.mask.getD i true then midWindow.values.getD i 0 else 0) = [1, 0, 3, 4] ∧
    ((List.range (4 : BitVec 32).toNat).filter fun i => midWindow.mask.getD i true).map
      (fun i => midWindow.values.getD i 0) = [1, 3, 4] := by decide +kernel

/-- A window with literals, and an empty one. -/
theorem witness_FlushCompletes :
    midWindow.enc.fault = false ∧ midWindow.enc.port.Counted ∧
    midWindow.enc.port.wbitsLeft = 8 ∧ midWindow.enc.port.wcurByte = 0 ∧
    State.reset.enc.litCount = 0 :=
  ⟨rfl, counted_reset, rfl, rfl, rfl⟩

theorem witness_EqualLiteralsMakeOneShortRepeat :
    midWindow.enc.fault = false ∧ 3 ≤ midWindow.enc.litCount ∧ midWindow.enc.litCount ≤ 10 ∧
    midWindow.enc.litBuf.take midWindow.enc.litCount =
      List.replicate midWindow.enc.litCount 7 := by decide +kernel

theorem witness_ShortRepeatRoundTrip :
    WritePort.reset.Counted ∧ Decoder.reset.cur.spos = Memory.size WritePort.reset.out :=
  ⟨counted_reset, rfl⟩

theorem witness_DirectRoundTrip :
    1 ≤ [(1 : Word), 2, 3].length ∧ WritePort.reset.Counted ∧ WritePort.reset.wbitsLeft = 8 ∧
    WritePort.reset.wcurByte = 0 ∧ Decoder.reset.cur.spos = Memory.size WritePort.reset.out :=
  ⟨by decide, counted_reset, rfl, rfl, rfl⟩

/-- The empty sequence and five values. -/
theorem witness_RoundTrip :
    State.reset.cfg.sinkCapacity ≠ 0 ∧ ([] : List Word).length < 2 ^ 32 ∧
    [(5 : Word), 5, 5, 5, 5].length < 2 ^ 32 ∧
    ∃ r, exec (.reset false) State.reset = .next r :=
  ⟨by decide +kernel, by decide, by decide, _, rfl⟩

theorem witness_StepRunsTheCommand :
    ∃ r, (issued [] (CommandWord.bare 0x05) []).pending = [r] ∧
      decode (.port r.command) = .ok .flush := ⟨_, rfl, rfl⟩

theorem witness_StepRunsTheRun :
    ∃ q t, (issued [0x02, 0x05] { CommandWord.bare 0x02 with count := 1 } []).pending = [q] ∧
      (issued [0x02, 0x05] { CommandWord.bare 0x02 with count := 1 } []).dec.fault = false ∧
      decode (.port q.command) = .ok (.skip 1) ∧
      decodeHeader [0x02] = .ok (.sr 1 5, []) ∧
      Holds (onInput [0x02, 0x05]).input 0 [0x02] ∧
      exec (Run.sr 1 5).toInstr { onInput [0x02, 0x05] with
        dec := { Decoder.reset with cur := { spos := 1, bitsLeft := 0, curByte := 0 } } } =
        .next t := by
  refine ⟨_, _, rfl, rfl, rfl, rfl, ?_, rfl⟩
  unfold Holds; decide

theorem witness_IdleStepHoldsState : State.reset.pending = [] := rfl

/-- The reset state with a `FLUSH` pending and a run in progress: it satisfies the invariant and
steps. -/
theorem witness_StepKeepsTheInvariant :
    Inv { midRun with pending := [Request.bare (CommandWord.bare 0x05)] } ∧
    ∃ t, step { midRun with pending := [Request.bare (CommandWord.bare 0x05)] } = .next t := by
  refine ⟨⟨?_, ?_, rfl, rfl⟩, _, rfl⟩
  · exact ⟨Nat.zero_le _, Nat.zero_le _, by decide +kernel, by decide +kernel, by decide +kernel,
      by decide, by decide, by decide, fun _ _ => by decide, fun _ => rfl,
      fun h => absurd h (by decide), by decide, by decide, by decide, by decide, by decide⟩
  · exact ⟨by decide +kernel, by decide, counted_reset, rfl, rfl, rfl, rfl⟩

theorem witness_HalvesShareNothing :
    (∃ t, exec (.skip 0) midRun = .next t) ∧ ∃ t, exec .flush midRun = .next t :=
  ⟨⟨_, rfl⟩, ⟨_, rfl⟩⟩

theorem witness_StreamsAreStable :
    (∃ t, exec .flush { midWindow with
      enc := { midWindow.enc with port :=
        { WritePort.reset with out := Memory.ofBytes [0x01], bytesWritten := 1 } } } = .next t) ∧
    Memory.read? (Memory.ofBytes [0x01]) 0 = some 0x01 := ⟨⟨_, rfl⟩, rfl⟩

end Sys2Proof.Tests
end

section
/-! What every step keeps, and what each half of the engine leaves of the other (`10_state.md`):
the state invariant, the frame of the run forms, and the independence of the two halves. -/

namespace Sys2Proof.Proofs.EngineState

open Sys2Proof.Machine Sys2Proof.Laws

/-! ### The frame of the decoder side (rule R277) -/

/-- Everything a run form can do. -/
theorem exec_run_cases {r : Run} {s t : State} (h : exec r.toInstr s = .next t) :
    (s.dec.fault = true ∧ t = respond s.dec.err s) ∨
    (s.dec.fault = false ∧ t = settleDecoder s (materialise s.cfg s.input r s.dec)) := by
  rw [exec_run] at h
  rcases whenDecoderReady_cases h with h | ⟨hf, h⟩
  · exact .inl h
  · exact .inr ⟨hf, (Host.Outcome.next.inj h).symm⟩

/-- The decoder half, the output slots and the response lie outside the frame. -/
theorem onlyDecoderMoves_update (s : State) (d : Decoder) (out : List Word) (r : Response) :
    OnlyDecoderMoves s { s with dec := d, out := out, response := r } :=
  ⟨rfl, rfl, rfl, rfl, rfl, rfl, rfl, rfl, fun _ => rfl, fun _ => rfl⟩

theorem onlyDecoderMoves_respond (status : BitVec 3) (s : State) :
    OnlyDecoderMoves s (respond status s) := onlyDecoderMoves_update s _ _ _

theorem onlyDecoderMoves_settleDecoder (s : State) (r : Except ErrorKind Decoder) :
    OnlyDecoderMoves s (settleDecoder s r) := by
  cases r with
  | ok d => exact onlyDecoderMoves_update s d s.out s.response
  | error k => exact onlyDecoderMoves_update s _ s.out _

theorem settleDecoder_out (s : State) (r : Except ErrorKind Decoder) :
    (settleDecoder s r).out = s.out := by
  cases r <;> rfl

/-- A run fetch speaks to the owner only by raising an error (rules R162, R276). -/
theorem settleDecoder_response {s : State} {r : Except ErrorKind Decoder}
    (h : (settleDecoder s r).dec.fault = false) : (settleDecoder s r).response = s.response := by
  cases r with
  | ok d => rfl
  | error k => exact nomatch h

/-- Settles O23: a faulted half answers its latched code, a ready one settles the materialised run;
both stay inside the frame. -/
theorem runFrame : Obligations.RunFrame := by
  unfold Obligations.RunFrame
  intro r s t h
  rcases exec_run_cases h with ⟨hf, rfl⟩ | ⟨-, rfl⟩
  · exact ⟨onlyDecoderMoves_respond _ s, rfl, fun hready => by simp [hf] at hready⟩
  · exact ⟨onlyDecoderMoves_settleDecoder s _, settleDecoder_out s _, settleDecoder_response⟩

/-! ### The halves share nothing (rule R20) -/

theorem settleDecoder_withEncoder (e : Encoder) (s : State) (r : Except ErrorKind Decoder) :
    settleDecoder { s with enc := e } r = { settleDecoder s r with enc := e } := by
  cases r <;> rfl

theorem settleSkip_withEncoder (e : Encoder) (s : State) (r : Except ErrorKind Decoder) :
    settleSkip { s with enc := e } r = { settleSkip s r with enc := e } := by
  cases r <;> rfl

theorem settleSlots_withEncoder (e : Encoder) (n : Nat) (s : State)
    (r : Except ErrorKind (List Word × Decoder)) :
    settleSlots n { s with enc := e } r = { settleSlots n s r with enc := e } := by
  cases r <;> rfl

/-- The decoder gate reads the decoder half only: when the bodies commute with a change of the
encoder half, so do the gated ones. -/
theorem whenDecoderReady_withEncoder {s t : State} {body body' : Host.Outcome State Fault Refusal}
    (e : Encoder) (h : whenDecoderReady s body = .next t)
    (hb : body = .next t → body' = .next { t with enc := e }) :
    whenDecoderReady { s with enc := e } body' = .next { t with enc := e } := by
  rcases whenDecoderReady_cases h with ⟨hf, rfl⟩ | ⟨hf, h⟩
  · exact whenDecoderReady_of_fault (s := { s with enc := e }) hf body'
  · exact (whenDecoderReady_of_ready (s := { s with enc := e }) hf body').trans (hb h)

theorem exec_run_withEncoder {r : Run} {s t : State} (e : Encoder)
    (h : exec r.toInstr s = .next t) :
    exec r.toInstr { s with enc := e } = .next { t with enc := e } := by
  rw [exec_run] at h ⊢
  refine whenDecoderReady_withEncoder e h fun hb => ?_
  obtain rfl := Host.Outcome.next.inj hb
  rw [settleDecoder_withEncoder]

theorem exec_next_withEncoder {n : BitVec 32} {masked : Bool} {s t : State} (e : Encoder)
    (h : exec (.next n masked) s = .next t) :
    exec (.next n masked) { s with enc := e } = .next { t with enc := e } := by
  refine whenDecoderReady_withEncoder e h fun hb => ?_
  split at hb
  · next hc =>
    obtain rfl := Host.Outcome.next.inj hb
    rw [if_pos hc, settleSlots_withEncoder]
  · cases hb

theorem exec_skip_withEncoder {k : BitVec 32} {s t : State} (e : Encoder)
    (h : exec (.skip k) s = .next t) :
    exec (.skip k) { s with enc := e } = .next { t with enc := e } := by
  refine whenDecoderReady_withEncoder e h fun hb => ?_
  obtain rfl := Host.Outcome.next.inj hb
  rw [settleSkip_withEncoder]

theorem exec_seek_withEncoder {p0 p1 p2 p3 : Word} {s t : State} (e : Encoder)
    (h : exec (.seek p0 p1 p2 p3) s = .next t) :
    exec (.seek p0 p1 p2 p3) { s with enc := e } = .next { t with enc := e } := by
  refine whenDecoderReady_withEncoder e h fun hb => ?_
  obtain rfl := Host.Outcome.next.inj hb
  rw [settleSkip_withEncoder]

/-- A decoder instruction computes the same next state over any encoder half, and carries that half
through. -/
theorem exec_decoder_withEncoder {i : Instr} {s t : State} (e : Encoder)
    (h : exec i s = .next t) (hreset : ∀ signed, i ≠ .reset signed)
    (hadd : ∀ count masked, i ≠ .add count masked) (hflush : i ≠ .flush) :
    exec i { s with enc := e } = .next { t with enc := e } := by
  cases i with
  | sr bw rc => exact exec_run_withEncoder (r := .sr bw rc) e h
  | direct w l => exact exec_run_withEncoder (r := .direct w l) e h
  | pb w l bw pw pgw pll => exact exec_run_withEncoder (r := .pb w l bw pw pgw pll) e h
  | delta w l => exact exec_run_withEncoder (r := .delta w l) e h
  | reset signed => exact absurd rfl (hreset signed)
  | next n masked => exact exec_next_withEncoder e h
  | skip k => exact exec_skip_withEncoder e h
  | seek p0 p1 p2 p3 => exact exec_seek_withEncoder e h
  | add count masked => exact absurd rfl (hadd count masked)
  | flush => exact absurd rfl hflush

/-- Over the encoder half as it stands, carrying it through is leaving it alone. -/
theorem exec_decoder_enc {i : Instr} {s t : State} (h : exec i s = .next t)
    (hreset : ∀ signed, i ≠ .reset signed) (hadd : ∀ count masked, i ≠ .add count masked)
    (hflush : i ≠ .flush) : t.enc = s.enc := by
  have hsame : t = { t with enc := s.enc } :=
    Host.Outcome.next.inj (h.symm.trans (exec_decoder_withEncoder s.enc h hreset hadd hflush))
  rw [hsame]

/-- The encoder gate reads the encoder half only. -/
theorem whenEncoderReady_withDecoder {s t : State} {body body' : Host.Outcome State Fault Refusal}
    (d : Decoder) (h : whenEncoderReady s body = .next t)
    (hb : body = .next t → body' = .next { t with dec := d }) :
    whenEncoderReady { s with dec := d } body' = .next { t with dec := d } := by
  rcases whenEncoderReady_cases h with ⟨hf, rfl⟩ | ⟨hf, h⟩
  · exact whenEncoderReady_of_fault (s := { s with dec := d }) hf body'
  · exact (whenEncoderReady_of_ready (s := { s with dec := d }) hf body').trans (hb h)

theorem exec_add_withDecoder {count : BitVec 32} {masked : Bool} {s t : State} (d : Decoder)
    (h : exec (.add count masked) s = .next t) :
    exec (.add count masked) { s with dec := d } = .next { t with dec := d } := by
  refine whenEncoderReady_withDecoder d h fun hb => ?_
  split at hb
  · next hc =>
    obtain rfl := Host.Outcome.next.inj hb
    rw [if_pos hc]
    rfl
  · cases hb

theorem exec_flush_withDecoder {s t : State} (d : Decoder) (h : exec .flush s = .next t) :
    exec .flush { s with dec := d } = .next { t with dec := d } := by
  refine whenEncoderReady_withDecoder d h fun hb => ?_
  obtain rfl := Host.Outcome.next.inj hb
  rfl

/-- An encoder command computes the same next state over any decoder half, and carries that half
through. -/
theorem exec_encoder_withDecoder {i : Instr} {s t : State} (d : Decoder) (h : exec i s = .next t)
    (hi : (∃ count masked, i = .add count masked) ∨ i = .flush) :
    exec i { s with dec := d } = .next { t with dec := d } := by
  rcases hi with ⟨count, masked, rfl⟩ | rfl
  · exact exec_add_withDecoder d h
  · exact exec_flush_withDecoder d h

theorem exec_encoder_dec {i : Instr} {s t : State} (h : exec i s = .next t)
    (hi : (∃ count masked, i = .add count masked) ∨ i = .flush) : t.dec = s.dec := by
  have hsame : t = { t with dec := s.dec } :=
    Host.Outcome.next.inj (h.symm.trans (exec_encoder_withDecoder s.dec h hi))
  rw [hsame]

theorem decoder_agrees_refl (d : Decoder) : d.Agrees d :=
  ⟨rfl, rfl, fun _ => rfl, fun _ => rfl, fun _ _ => ⟨rfl, rfl, rfl, rfl⟩⟩

theorem encoder_agrees_refl (e : Encoder) : e.Agrees e := ⟨rfl, rfl, rfl, rfl, rfl⟩

/-- Settles O58: replacing the other half before an instruction is replacing it after. -/
theorem halvesShareNothing : Obligations.HalvesShareNothing := by
  unfold Obligations.HalvesShareNothing
  refine ⟨fun i s t enc h hreset hadd hflush => ?_, fun i s t dec h hi => ?_⟩
  · exact ⟨exec_decoder_enc h hreset hadd hflush, { t with enc := enc },
      exec_decoder_withEncoder enc h hreset hadd hflush, rfl, decoder_agrees_refl _, rfl,
      fun _ => rfl⟩
  · exact ⟨exec_encoder_dec h hi, { t with dec := dec }, exec_encoder_withDecoder dec h hi, rfl,
      encoder_agrees_refl _, rfl⟩

/-! ### The reset state satisfies the invariant (rule R40) -/

theorem decoder_reset_legal (n : Nat) : Decoder.reset.Legal n where
  spos_le := Nat.zero_le n
  bitsLeft_le := Nat.zero_le 8
  runBuffer_length := List.length_replicate
  patchEntries_length := List.length_replicate
  deltaScratch_length := List.length_replicate
  runLength_pos := by decide
  runLength_le := by decide
  runConsumed_le := by decide
  inRun := fun _ hrun => nomatch hrun
  err_of_ready := fun _ => rfl
  err_of_fault := fun hfault => nomatch hfault
  w_le := by decide
  bw_range := by decide
  pw_range := by decide
  pgw_range := by decide
  pll_le := by decide

theorem encoder_reset_legal {sinkCapacity : Nat} (h : sinkCapacity ≠ 0) :
    Encoder.reset.Legal sinkCapacity where
  litBuf_length := List.length_replicate
  litCount_lt := by decide
  counted := counted_reset
  wbitsLeft_eq := rfl
  wcurByte_eq := rfl
  fault_eq := (decide_eq_false h).symm
  err_eq := rfl

/-- Settles O56, half by half; the default sink has a capacity. -/
theorem resetSatisfiesTheInvariant : Obligations.ResetSatisfiesTheInvariant := by
  unfold Obligations.ResetSatisfiesTheInvariant
  exact ⟨decoder_reset_legal _, encoder_reset_legal (by decide), memory_wf_nil, memory_wf_nil⟩

/-! ### Every step keeps the invariant (rules R23 to R36, R301) -/

/-- The invariant does not look at the response. -/
theorem inv_respond {s : State} (h : Inv s) (status : BitVec 3) : Inv (respond status s) :=
  ⟨h.dec, h.enc, h.input_wf, h.presented_wf⟩

/-- Issuing a command brings the caller's buffers and a presented sequence in canonical form. -/
theorem inv_issue {s : State} (h : Inv s) (r : Request) (rest : List Request) :
    Inv (s.issue r rest) :=
  ⟨h.dec, h.enc, h.input_wf, memory_wf_ofBytes r.input⟩

/-- Taking one of the three errors a decoder command can take (rules R271 to R274, R277). -/
theorem inv_raiseDecoder {s : State} (h : Inv s) {k : ErrorKind}
    (hk : k = .malformedHeader ∨ k = .truncatedStream ∨ k = .seekOutOfRange) :
    Inv (raiseDecoder k s) :=
  ⟨faulted_legal _ s.dec hk, h.enc, h.input_wf, h.presented_wf⟩

/-- A walk of the slots ends in the invariant when it answers a legal half or takes one of the
decoder's errors. -/
theorem inv_settleSkip {s : State} (h : Inv s) {r : Except ErrorKind Decoder}
    (hok : ∀ d, r = .ok d → d.Legal (Memory.size s.input))
    (herr : ∀ k, r = .error k →
      k = .malformedHeader ∨ k = .truncatedStream ∨ k = .seekOutOfRange) :
    Inv (settleSkip s r) := by
  cases r with
  | ok d => exact ⟨hok d rfl, h.enc, h.input_wf, h.presented_wf⟩
  | error k => exact inv_raiseDecoder h (herr k rfl)

theorem inv_settleSlots {n : Nat} {s : State} (h : Inv s)
    {r : Except ErrorKind (List Word × Decoder)}
    (hok : ∀ out d, r = .ok (out, d) → d.Legal (Memory.size s.input))
    (herr : ∀ k, r = .error k → k = .malformedHeader ∨ k = .truncatedStream) :
    Inv (settleSlots n s r) := by
  rcases settleSlots_cases n s r with ⟨out, d, hr, hs⟩ | ⟨k, hr, hs⟩ <;> rw [hs]
  · exact ⟨hok out d hr, h.enc, h.input_wf, h.presented_wf⟩
  · obtain ⟨hdec, henc, hin, hpres⟩ := inv_raiseDecoder h ((herr k hr).imp_right .inl)
    exact ⟨hdec, henc, hin, hpres⟩

theorem exec_next_inv {n : BitVec 32} {masked : Bool} {s t : State} (hs : Inv s)
    (h : exec (.next n masked) s = .next t) : Inv t := by
  rcases exec_next_cases h with ⟨-, rfl⟩ | ⟨hf, -, rfl⟩
  · exact inv_respond hs _
  · exact inv_settleSlots hs (fun _ _ hr => (fillSlots_legal hs.input_wf hs.dec hf hr).1)
      fun _ => fillSlots_error

theorem exec_skip_inv {k : BitVec 32} {s t : State} (hs : Inv s)
    (h : exec (.skip k) s = .next t) : Inv t := by
  rcases exec_skip_cases h with ⟨-, rfl⟩ | ⟨hf, rfl⟩
  · exact inv_respond hs _
  · exact inv_settleSkip hs (fun _ hr => (skipSlots_legal hs.input_wf hs.dec hf hr).1)
      fun _ hr => (skipSlots_error hr).imp_right .inl

theorem exec_seek_inv {p0 p1 p2 p3 : Word} {s t : State} (hs : Inv s)
    (h : exec (.seek p0 p1 p2 p3) s = .next t) : Inv t := by
  rcases exec_seek_cases h with ⟨-, rfl⟩ | ⟨hf, rfl⟩
  · exact inv_respond hs _
  · exact inv_settleSkip hs (fun _ hr => (seekTo_legal hs.input_wf hs.dec hf hr).1)
      fun _ => seekTo_error

theorem exec_add_inv {count : BitVec 32} {masked : Bool} {s t : State} (hs : Inv s)
    (h : exec (.add count masked) s = .next t) : Inv t := by
  rcases exec_add_cases h with ⟨-, rfl⟩ | ⟨-, -, rfl⟩
  · exact inv_respond hs _
  · exact ⟨hs.dec, pushLiterals_legal _ _ hs.enc, hs.input_wf, hs.presented_wf⟩

theorem exec_flush_inv {s t : State} (hs : Inv s) (h : exec .flush s = .next t) : Inv t := by
  rcases exec_flush_cases h with ⟨-, rfl⟩ | ⟨-, rfl⟩
  · exact inv_respond hs _
  · exact ⟨hs.dec, flushWindow_legal _ hs.enc, hs.input_wf, hs.presented_wf⟩

/-- After `RESET` the input is the presented sequence; the rest of the invariant needs nothing of
the state before. -/
theorem restartEngine_inv (signed : Bool) {s : State} (h : Memory.wf s.presented = true) :
    Inv (restartEngine signed s) :=
  ⟨restart_legal _ s.dec, encoder_restart_legal _ s.enc, h, h⟩

/-- Every command keeps the invariant. -/
theorem exec_command_inv {c : CommandWord} {i : Instr} {s t : State}
    (hc : decodeCommand c = .ok i) (hs : Inv s) (h : exec i s = .next t) : Inv t := by
  rcases decodeCommand_cases hc with rfl | rfl | rfl | rfl | rfl | rfl
  · obtain rfl := Host.Outcome.next.inj h
    exact restartEngine_inv _ hs.presented_wf
  · exact exec_next_inv hs h
  · exact exec_skip_inv hs h
  · exact exec_seek_inv hs h
  · exact exec_add_inv hs h
  · exact exec_flush_inv hs h

/-- Settles O57: an idle step changes nothing, and any other issues a command and executes it. -/
theorem stepKeepsTheInvariant : Obligations.StepKeepsTheInvariant := by
  unfold Obligations.StepKeepsTheInvariant
  intro s t hs h
  rcases step_cases h with ⟨-, rfl⟩ | ⟨r, rest, i, -, hc, h⟩
  · exact hs
  · exact exec_command_inv hc (inv_issue hs r rest) h

end Sys2Proof.Proofs.EngineState
end

section
/-! The frames of the spaces (`20_memory.md`): which of the caller's slots a decoder command leaves
alone, and that `IN` is never written and `OUT` only grows. -/

namespace Sys2Proof.Proofs.MemoryFrame

open Sys2Proof.Machine Sys2Proof.Laws Sys2Proof.Proofs.EngineState

/-! ### The slots a command names (rules R102, R299) -/

theorem length_presentSlots_le (masked : Bool) (mask : List Bool) (n : Nat) :
    (presentSlots masked mask n).length ≤ n := by
  cases masked <;> simp [presentSlots]

/-- A slot the mask calls absent is not present. -/
theorem presentSlots_absent {mask : List Bool} {i : Nat} (n : Nat) (h : mask[i]? = some false) :
    (presentSlots true mask n)[i]? ≠ some true := by
  simp [presentSlots, List.getElem?_take, h]

theorem le_length_of_buffersCover {masked : Bool} {mask : List Bool} {buffer : List Word} {n : Nat}
    (h : buffersCover masked mask buffer n = true) : n ≤ buffer.length := by
  simp only [buffersCover, Bool.and_eq_true, decide_eq_true_eq] at h
  exact h.1

/-! ### The slot loop (rules R164, R166) -/

/-- Everything one turn of the slot loop can do when the loop answers: take a position, whose value
goes into a present slot only, or pass over an absent slot. -/
theorem fillSlots_cons_ok {cfg : Settings} {inp : Memory} {p : Bool} {ps : List Bool} {slot : Word}
    {rest out' : List Word} {d d' : Decoder}
    (h : fillSlots cfg inp (p :: ps) (slot :: rest) d = .ok (out', d')) :
    (∃ v e rest', (p || cfg.maskConsumes) = true ∧ slotStep cfg inp d = .ok (v, e) ∧
      fillSlots cfg inp ps rest e = .ok (rest', d') ∧ out' = (if p then v else slot) :: rest') ∨
    ∃ rest', p = false ∧ cfg.maskConsumes = false ∧
      fillSlots cfg inp ps rest d = .ok (rest', d') ∧ out' = slot :: rest' := by
  unfold fillSlots at h
  split at h
  · next hp =>
    obtain ⟨⟨v, e⟩, hstep, h⟩ := except_bind_eq_ok.mp h
    obtain ⟨⟨rest', e'⟩, hrest, h⟩ := except_bind_eq_ok.mp h
    simp only [Except.ok.injEq, Prod.mk.injEq] at h
    obtain ⟨rfl, rfl⟩ := h
    exact .inl ⟨v, e, rest', hp, hstep, hrest, rfl⟩
  · next hp =>
    obtain ⟨⟨rest', e'⟩, hrest, h⟩ := except_bind_eq_ok.mp h
    simp only [Except.ok.injEq, Prod.mk.injEq] at h
    obtain ⟨rfl, rfl⟩ := h
    simp only [Bool.or_eq_true, not_or, Bool.not_eq_true] at hp
    exact .inr ⟨rest', hp.1, hp.2, hrest, rfl⟩

/-- The loop adds and drops no slot, and writes present slots only. -/
theorem fillSlots_frame {cfg : Settings} {inp : Memory} {ps : List Bool} {out out' : List Word}
    {d d' : Decoder} (h : fillSlots cfg inp ps out d = .ok (out', d')) :
    out'.length = out.length ∧ ∀ i : Nat, ps[i]? ≠ some true → out'[i]? = out[i]? := by
  induction ps generalizing out out' d with
  | nil =>
    simp only [fillSlots, Except.ok.injEq, Prod.mk.injEq] at h
    exact h.1 ▸ ⟨rfl, fun _ _ => rfl⟩
  | cons p ps ih =>
    cases out with
    | nil =>
      simp only [fillSlots, Except.ok.injEq, Prod.mk.injEq] at h
      exact h.1 ▸ ⟨rfl, fun _ _ => rfl⟩
    | cons slot rest =>
      obtain ⟨x, e, rest', hx, hrest, rfl⟩ : ∃ x e rest', (p ≠ true → x = slot) ∧
          fillSlots cfg inp ps rest e = .ok (rest', d') ∧ out' = x :: rest' := by
        rcases fillSlots_cons_ok h with ⟨v, e, rest', -, -, hrest, hout⟩ | ⟨rest', -, -, hrest, hout⟩
        · exact ⟨_, e, rest', fun hp => if_neg hp, hrest, hout⟩
        · exact ⟨slot, d, rest', fun _ => rfl, hrest, hout⟩
      obtain ⟨hlength, hslots⟩ := ih hrest
      refine ⟨by simp [hlength], fun i hi => ?_⟩
      cases i with
      | zero => simp [hx (by simpa using hi)]
      | succ i => simpa using hslots i (by simpa using hi)

/-! ### What the endings of a decoder command leave (rules R276 to R278) -/

theorem onlyDecoderMoves_settleSkip (s : State) (r : Except ErrorKind Decoder) :
    OnlyDecoderMoves s (settleSkip s r) := by
  cases r with
  | ok d => exact onlyDecoderMoves_update s d s.out _
  | error k => exact onlyDecoderMoves_update s _ s.out _

theorem settleSkip_out (s : State) (r : Except ErrorKind Decoder) :
    (settleSkip s r).out = s.out := by
  cases r <;> rfl

theorem onlyDecoderMoves_settleSlots (n : Nat) (s : State)
    (r : Except ErrorKind (List Word × Decoder)) : OnlyDecoderMoves s (settleSlots n s r) := by
  cases r with
  | ok p => exact onlyDecoderMoves_update s p.2 p.1 _
  | error k => exact onlyDecoderMoves_update s _ _ _

/-- The slots after `NEXT` are as many as before, and those beyond its count keep their content even
when it faults. -/
theorem settleSlots_frame {n : Nat} {s : State} {ps : List Bool} (hn : n ≤ s.out.length)
    (hps : ps.length ≤ n) :
    let t := settleSlots n s (fillSlots s.cfg s.input ps s.out s.dec)
    t.out.length = s.out.length ∧ ∀ i : Nat, n ≤ i → t.out[i]? = s.out[i]? := by
  rcases settleSlots_cases n s (fillSlots s.cfg s.input ps s.out s.dec) with
    ⟨out, d, hr, hs⟩ | ⟨k, -, hs⟩ <;> rw [hs]
  · obtain ⟨hlength, hslots⟩ := fillSlots_frame hr
    exact ⟨hlength, fun i hi => hslots i (by simp [List.getElem?_eq_none (hps.trans hi)])⟩
  · refine ⟨by simp [hn], fun i hi => ?_⟩
    dsimp only
    rw [List.getElem?_append_right (by simpa using hi), freeWords_length, List.getElem?_drop,
      Nat.add_sub_of_le hi]

/-- Without a fault, a slot that is not present keeps its content. -/
theorem settleSlots_absent {n i : Nat} {s : State} {ps : List Bool}
    (hready : (settleSlots n s (fillSlots s.cfg s.input ps s.out s.dec)).dec.fault = false)
    (hi : ps[i]? ≠ some true) :
    (settleSlots n s (fillSlots s.cfg s.input ps s.out s.dec)).out[i]? = s.out[i]? := by
  rcases settleSlots_cases n s (fillSlots s.cfg s.input ps s.out s.dec) with
    ⟨out, d, hr, hs⟩ | ⟨k, -, hs⟩ <;> rw [hs] at hready ⊢
  · exact (fillSlots_frame hr).2 i hi
  · exact nomatch hready

/-! ### The frame of the decoder commands (rules R57, R167, R236, R277) -/

theorem onlyDecoderMoves_next {n : BitVec 32} {masked : Bool} {s t : State}
    (h : exec (.next n masked) s = .next t) : OnlyDecoderMoves s t := by
  rcases exec_next_cases h with ⟨-, rfl⟩ | ⟨-, -, rfl⟩
  · exact onlyDecoderMoves_respond _ s
  · exact onlyDecoderMoves_settleSlots _ s _

theorem exec_next_beyond {n : BitVec 32} {masked : Bool} {s t : State}
    (h : exec (.next n masked) s = .next t) :
    t.out.length = s.out.length ∧ ∀ i : Nat, n.toNat ≤ i → t.out[i]? = s.out[i]? := by
  rcases exec_next_cases h with ⟨-, rfl⟩ | ⟨-, hcover, rfl⟩
  · exact ⟨rfl, fun _ _ => rfl⟩
  · exact settleSlots_frame (le_length_of_buffersCover hcover) (length_presentSlots_le _ _ _)

theorem exec_next_absent {n : BitVec 32} {s t : State} {i : Nat}
    (h : exec (.next n true) s = .next t) (hready : t.dec.fault = false)
    (hi : s.mask[i]? = some false) : t.out[i]? = s.out[i]? := by
  rcases exec_next_cases h with ⟨-, rfl⟩ | ⟨-, -, rfl⟩
  · rfl
  · exact settleSlots_absent hready (presentSlots_absent _ hi)

theorem exec_skip_frame {k : BitVec 32} {s t : State} (h : exec (.skip k) s = .next t) :
    OnlyDecoderMoves s t ∧ t.out = s.out := by
  rcases exec_skip_cases h with ⟨-, rfl⟩ | ⟨-, rfl⟩
  · exact ⟨onlyDecoderMoves_respond _ s, rfl⟩
  · exact ⟨onlyDecoderMoves_settleSkip s _, settleSkip_out s _⟩

theorem exec_seek_frame {p0 p1 p2 p3 : Word} {s t : State}
    (h : exec (.seek p0 p1 p2 p3) s = .next t) : OnlyDecoderMoves s t ∧ t.out = s.out := by
  rcases exec_seek_cases h with ⟨-, rfl⟩ | ⟨-, rfl⟩
  · exact ⟨onlyDecoderMoves_respond _ s, rfl⟩
  · exact ⟨onlyDecoderMoves_settleSkip s _, settleSkip_out s _⟩

/-- Settles O29, command by command: `NEXT` rests on the frame of the slot loop, and a walk without
writes touches no slot. -/
theorem decoderCommandFrame : Obligations.DecoderCommandFrame := by
  unfold Obligations.DecoderCommandFrame
  intro s t
  refine ⟨fun n masked h => ?_, fun _ h => exec_skip_frame h, fun _ _ _ _ h => exec_seek_frame h⟩
  obtain ⟨hlength, hbeyond⟩ := exec_next_beyond h
  refine ⟨onlyDecoderMoves_next h, hlength, hbeyond, ?_⟩
  rintro rfl hready i hi
  exact exec_next_absent h hready hi

/-! ### `IN` and `OUT` between resets (rules R50, R55) -/

/-- No decoder instruction, run form or command, leaves the decoder's frame. -/
theorem exec_decoder_onlyDecoderMoves {i : Instr} {s t : State} (h : exec i s = .next t)
    (hreset : ∀ signed, i ≠ .reset signed) (hadd : ∀ count masked, i ≠ .add count masked)
    (hflush : i ≠ .flush) : OnlyDecoderMoves s t := by
  cases i with
  | sr bw rc => exact (runFrame (.sr bw rc) s t h).1
  | direct w l => exact (runFrame (.direct w l) s t h).1
  | pb w l bw pw pgw pll => exact (runFrame (.pb w l bw pw pgw pll) s t h).1
  | delta w l => exact (runFrame (.delta w l) s t h).1
  | reset signed => exact absurd rfl (hreset signed)
  | next n masked => exact onlyDecoderMoves_next h
  | skip k => exact (exec_skip_frame h).1
  | seek p0 p1 p2 p3 => exact (exec_seek_frame h).1
  | add count masked => exact absurd rfl (hadd count masked)
  | flush => exact absurd rfl hflush

theorem exec_add_streams {count : BitVec 32} {masked : Bool} {s t : State}
    (h : exec (.add count masked) s = .next t) :
    t.input = s.input ∧ s.enc.port.out <+: t.enc.port.out := by
  rcases exec_add_cases h with ⟨-, rfl⟩ | ⟨-, -, rfl⟩
  · exact ⟨rfl, List.prefix_refl _⟩
  · exact ⟨rfl, prefix_pushLiterals _ _ _⟩

theorem exec_flush_streams {s t : State} (h : exec .flush s = .next t) :
    t.input = s.input ∧ s.enc.port.out <+: t.enc.port.out := by
  rcases exec_flush_cases h with ⟨-, rfl⟩ | ⟨-, rfl⟩
  · exact ⟨rfl, List.prefix_refl _⟩
  · exact ⟨rfl, prefix_flushWindow _ _⟩

/-- Every instruction but `RESET` keeps `IN` and extends `OUT`: a decoder instruction leaves the
encoder half alone, an encoder command only appends. -/
theorem exec_streams {i : Instr} {s t : State} (h : exec i s = .next t)
    (hreset : ∀ signed, i ≠ .reset signed) :
    t.input = s.input ∧ s.enc.port.out <+: t.enc.port.out := by
  cases i with
  | add count masked => exact exec_add_streams h
  | flush => exact exec_flush_streams h
  | _ =>
    have hframe := exec_decoder_onlyDecoderMoves h hreset nofun nofun
    exact ⟨hframe.input_eq, hframe.enc_eq ▸ List.prefix_refl _⟩

/-- A sequence that extends another holds its bytes first. -/
theorem bytes_of_prefix {m m' : Memory} (h : m <+: m') :
    ∃ bytes, Memory.bytes m' = Memory.bytes m ++ bytes := by
  obtain ⟨cells, rfl⟩ := h
  exact ⟨Memory.bytes cells, List.map_append⟩

/-- Settles O59: `IN` is the same sequence and `OUT` an extension, and reading respects both. -/
theorem streamsAreStable : Obligations.StreamsAreStable := by
  unfold Obligations.StreamsAreStable
  intro i s t h hreset
  obtain ⟨hinput, hout⟩ := exec_streams h hreset
  exact ⟨fun a => by rw [hinput], bytes_of_prefix hout, fun _ _ hread => read?_of_prefix hout hread⟩

end Sys2Proof.Proofs.MemoryFrame
end

section
/-! The encoding (`30_encoding.md`): the width table, the fields of a run header written and read
back, decoder and encoder as inverses of each other, the base of a Patched Base run, and the step
that decodes a command. -/

namespace Sys2Proof.Proofs.Encoding

open Sys2Proof.Machine Sys2Proof.Laws

/-! ### The width table (rules R83 to R86) -/

@[simp] theorem codeOfWidth_widthOfCode (c : BitVec 5) : codeOfWidth (widthOfCode c) = c := by
  revert c; decide

theorem toNat_codeOfWidth_of_le {w : Nat} (hw : w ≤ 24) : (codeOfWidth w).toNat = w - 1 := by
  rw [codeOfWidth, if_pos hw, BitVec.toNat_ofNat, Nat.mod_eq_of_lt (by omega)]

theorem widthOfCode_codeOfWidth {w : Nat} (h : isTableWidth w = true) :
    widthOfCode (codeOfWidth w) = w := by
  rcases isTableWidth_cases h with ⟨hpos, hle⟩ | rfl | rfl | rfl | rfl | rfl | rfl | rfl | rfl
  · rw [widthOfCode, toNat_codeOfWidth_of_le hle, if_pos (by omega)]
    omega
  all_goals decide

@[simp] theorem codeOfDeltaWidth_deltaWidthOfCode (c : BitVec 5) :
    codeOfDeltaWidth (deltaWidthOfCode c) = c := by
  revert c; decide

/-- Only the width 1 has no Delta code, for its code spells the constant stride (rule R86). -/
theorem deltaWidthOfCode_codeOfDeltaWidth {w : Nat} (h : w = 0 ∨ isTableWidth w = true ∧ w ≠ 1) :
    deltaWidthOfCode (codeOfDeltaWidth w) = w := by
  rcases h with rfl | ⟨htable, hone⟩
  · rfl
  · have hpos := (isTableWidth_range htable).1
    have hcode : codeOfWidth w ≠ 0 := by
      intro hzero
      have hw := widthOfCode_codeOfWidth htable
      rw [hzero] at hw
      exact hone hw.symm
    rw [codeOfDeltaWidth, if_neg (by omega), deltaWidthOfCode, if_neg hcode,
      widthOfCode_codeOfWidth htable]

/-- Settles O6: each of the two is a left inverse of the other on its table. -/
theorem codeOfInvertsWidth : Obligations.CodeOfInvertsWidth := by
  unfold Obligations.CodeOfInvertsWidth
  exact ⟨codeOfWidth_widthOfCode, fun _ => widthOfCode_codeOfWidth,
    fun _ _ => toNat_codeOfWidth_of_le, by decide⟩

theorem closestWidth_le_of_isTableWidth {n w : Nat} (hw : isTableWidth w = true) (h : n ≤ w) :
    closestWidth n ≤ w := by
  replace hw := isTableWidth_cases hw
  unfold closestWidth
  split_ifs <;> omega

/-- Settles O7: a table width from `n` up, and no table width from `n` up is below it. -/
theorem closestWidthIsLeast : Obligations.ClosestWidthIsLeast := by
  unfold Obligations.ClosestWidthIsLeast
  intro n hn
  exact ⟨⟨_, widthOfCode_codeOfWidth (isTableWidth_closestWidth n)⟩,
    max_le (closestWidth_ge hn) (closestWidth_range n).1,
    fun c hc => closestWidth_le_of_isTableWidth (isTableWidth_widthOfCode c) (le_of_max_le_left hc)⟩

/-! ### The fields of a run header (rules R81, R99) -/

/-- A field that holds its operand less `lo` gives the operand back. -/
theorem toNat_ofNat_sub_add {w lo n : Nat} (hlo : lo ≤ n) (hn : n - lo < 2 ^ w) :
    (BitVec.ofNat w (n - lo)).toNat + lo = n := by
  rw [BitVec.toNat_ofNat, Nat.mod_eq_of_lt hn, Nat.sub_add_cancel hlo]

/-- The operand a field stands for spells that field. -/
theorem ofNat_toNat_add_sub {w : Nat} (x : BitVec w) (lo : Nat) :
    BitVec.ofNat w (x.toNat + lo - lo) = x := by simp

@[simp] theorem widthCode_headByte (tag : BitVec 2) (code : BitVec 5) (length : Nat) :
    widthCode (headByte tag code length) = code := by
  rw [widthCode, headByte, BitVec.extractLsb'_append_eq_of_le (by decide)]
  exact BitVec.extractLsb'_append_eq_right

theorem lengthField_headByte (tag : BitVec 2) (code : BitVec 5) {length : Nat}
    (h : lengthOk length = true) :
    lengthField (headByte tag code length) (lengthByte length) = length := by
  obtain ⟨hpos, hle⟩ := (lengthOk_iff length).mp h
  rw [lengthField, headByte, lengthByte, BitVec.extractLsb'_append_eq_right]
  have hsplit := BitVec.extractLsb'_append_extractLsb' (w := 1) (len := 8)
    (x := BitVec.ofNat 9 (length - 1))
  rw [hsplit, toNat_ofNat_sub_add hpos (by omega)]

/-- A first byte is its tag, its width code and the top bit of its length. -/
theorem headByte_lengthField (h0 h1 : Byte) :
    headByte (tagOf h0) (widthCode h0) (lengthField h0 h1) = h0 := by
  rw [headByte, lengthField, ofNat_toNat_add_sub, BitVec.extractLsb'_append_eq_left, tagOf,
    widthCode, BitVec.extractLsb'_append_extractLsb'_eq_extractLsb' (show 6 = 1 + 5 from rfl)]
  exact BitVec.extractLsb'_append_extractLsb'

theorem lengthByte_lengthField (h0 h1 : Byte) : lengthByte (lengthField h0 h1) = h1 := by
  rw [lengthByte, lengthField, ofNat_toNat_add_sub, BitVec.extractLsb'_append_eq_right]

/-- A byte of two fields, the upper of three bits (rules R92, R99). -/
theorem extract_append_extract (b : Byte) : b.extractLsb' 5 3 ++ b.extractLsb' 0 5 = b :=
  BitVec.extractLsb'_append_extractLsb'

/-! ### Encoding after decoding (rules R88, R90, R92, R96) -/

theorem encodeHeader_srOfHeader {h0 : Byte} (h : tagOf h0 = 0) :
    encodeHeader (srOfHeader h0) = [h0] := by
  have hsplit : tagOf h0 ++ h0.extractLsb' 3 3 ++ h0.extractLsb' 0 3 = h0 := by
    rw [tagOf, BitVec.extractLsb'_append_extractLsb'_eq_extractLsb' (show 6 = 3 + 3 from rfl)]
    exact BitVec.extractLsb'_append_extractLsb'
  rw [srOfHeader, encodeHeader, ofNat_toNat_add_sub, ofNat_toNat_add_sub]
  rw [h] at hsplit
  exact congrArg (· :: []) hsplit

theorem encodeHeader_directOfHeader {h0 : Byte} (h1 : Byte) (h : tagOf h0 = 1) :
    encodeHeader (directOfHeader h0 h1) = [h0, h1] := by
  rw [directOfHeader, encodeHeader, codeOfWidth_widthOfCode, ← h, headByte_lengthField,
    lengthByte_lengthField]

theorem encodeHeader_pbOfHeader {h0 : Byte} (h1 h2 h3 : Byte) (h : tagOf h0 = 2) :
    encodeHeader (pbOfHeader h0 h1 h2 h3) = [h0, h1, h2, h3] := by
  simp only [pbOfHeader, encodeHeader, codeOfWidth_widthOfCode, ofNat_toNat_add_sub,
    BitVec.ofNat_toNat, BitVec.setWidth_eq, lengthByte_lengthField, extract_append_extract]
  rw [← h, headByte_lengthField]

theorem encodeHeader_deltaOfHeader {h0 : Byte} (h1 : Byte) (h : tagOf h0 = 3) :
    encodeHeader (deltaOfHeader h0 h1) = [h0, h1] := by
  rw [deltaOfHeader, encodeHeader, codeOfDeltaWidth_deltaWidthOfCode, ← h, headByte_lengthField,
    lengthByte_lengthField]

/-- Settles O2: no form drops a bit of its header bytes. -/
theorem headerHasOneSpelling : Obligations.HeaderHasOneSpelling := by
  unfold Obligations.HeaderHasOneSpelling
  intro bytes rest r h
  rcases decodeHeader_cases bytes with herr | ⟨h0, tail, rfl, htag, hdec⟩ |
    ⟨h0, h1, tail, rfl, htag, hdec⟩ | ⟨h0, h1, h2, h3, tail, rfl, htag, hdec⟩ |
    ⟨h0, h1, tail, rfl, htag, hdec⟩
  case inl => rw [herr] at h; cases h
  all_goals
    rw [hdec] at h
    cases h
  · rw [encodeHeader_srOfHeader htag]; rfl
  · rw [encodeHeader_directOfHeader h1 htag]; rfl
  · rw [encodeHeader_pbOfHeader h1 h2 h3 htag]; rfl
  · rw [encodeHeader_deltaOfHeader h1 htag]; rfl

/-! ### Decoding after encoding (rules R88, R90, R92, R96) -/

theorem decodeHeader_of_tag_sr {h0 : Byte} (h : tagOf h0 = 0) (rest : List Byte) :
    decodeHeader (h0 :: rest) = .ok (srOfHeader h0, rest) :=
  if_pos h

theorem decodeHeader_of_tag_direct {h0 : Byte} (h : tagOf h0 = 1) (h1 : Byte) (rest : List Byte) :
    decodeHeader (h0 :: h1 :: rest) = .ok (directOfHeader h0 h1, rest) :=
  (if_neg (by rw [h]; decide)).trans (if_pos h)

theorem decodeHeader_of_tag_pb {h0 : Byte} (h : tagOf h0 = 2) (h1 h2 h3 : Byte)
    (rest : List Byte) :
    decodeHeader (h0 :: h1 :: h2 :: h3 :: rest) = .ok (pbOfHeader h0 h1 h2 h3, rest) :=
  (if_neg (by rw [h]; decide)).trans ((if_neg (by rw [h]; decide)).trans (if_pos h))

theorem decodeHeader_of_tag_delta {h0 : Byte} (h : tagOf h0 = 3) (h1 : Byte) (rest : List Byte) :
    decodeHeader (h0 :: h1 :: rest) = .ok (deltaOfHeader h0 h1, rest) :=
  (if_neg (by rw [h]; decide)).trans
    ((if_neg (by rw [h]; decide)).trans (if_neg (by rw [h]; decide)))

theorem decodeHeader_encodeHeader_sr {byteWidth repeatCount : Nat} (rest : List Byte)
    (h : (Instr.sr byteWidth repeatCount).wellFormed = true) :
    decodeHeader (encodeHeader (.sr byteWidth repeatCount) ++ rest) =
      .ok (.sr byteWidth repeatCount, rest) := by
  simp only [Instr.wellFormed, Bool.and_eq_true, decide_eq_true_eq] at h
  obtain ⟨⟨⟨hbw, hbw'⟩, hrc⟩, hrc'⟩ := h
  refine (decodeHeader_of_tag_sr (tagOf_sr _ _) rest).trans ?_
  rw [srOfHeader, BitVec.extractLsb'_append_eq_right,
    BitVec.extractLsb'_append_eq_of_le (by decide), BitVec.extractLsb'_append_eq_right,
    toNat_ofNat_sub_add hbw (by omega), toNat_ofNat_sub_add hrc (by omega)]

theorem decodeHeader_encodeHeader_direct {bitWidth length : Nat} (rest : List Byte)
    (h : (Instr.direct bitWidth length).wellFormed = true) :
    decodeHeader (encodeHeader (.direct bitWidth length) ++ rest) =
      .ok (.direct bitWidth length, rest) := by
  simp only [Instr.wellFormed, Bool.and_eq_true] at h
  obtain ⟨hwidth, hlength⟩ := h
  refine (decodeHeader_of_tag_direct (tagOf_headByte _ _ _) _ rest).trans ?_
  rw [directOfHeader, widthCode_headByte, widthOfCode_codeOfWidth hwidth,
    lengthField_headByte _ _ hlength]

theorem decodeHeader_encodeHeader_pb
    {deltaWidth length baseWidth patchWidth gapWidth listLength : Nat} (rest : List Byte)
    (h : (Instr.pb deltaWidth length baseWidth patchWidth gapWidth listLength).wellFormed = true) :
    decodeHeader
        (encodeHeader (.pb deltaWidth length baseWidth patchWidth gapWidth listLength) ++ rest) =
      .ok (.pb deltaWidth length baseWidth patchWidth gapWidth listLength, rest) := by
  simp only [Instr.wellFormed, Bool.and_eq_true, decide_eq_true_eq] at h
  obtain ⟨⟨⟨⟨⟨hwidth, hlength⟩, hbw, hbw'⟩, hpw⟩, hgw, hgw'⟩, hll⟩ := h
  refine (decodeHeader_of_tag_pb (tagOf_headByte _ _ _) _ _ _ rest).trans ?_
  rw [pbOfHeader, widthCode_headByte, widthOfCode_codeOfWidth hwidth,
    lengthField_headByte _ _ hlength]
  simp only [BitVec.extractLsb'_append_eq_left, BitVec.extractLsb'_append_eq_right]
  rw [widthOfCode_codeOfWidth hpw, toNat_ofNat_sub_add hbw (by omega),
    toNat_ofNat_sub_add hgw (by omega), BitVec.toNat_ofNat, Nat.mod_eq_of_lt (by omega)]

theorem decodeHeader_encodeHeader_delta {deltaWidth length : Nat} (rest : List Byte)
    (h : (Instr.delta deltaWidth length).wellFormed = true) :
    decodeHeader (encodeHeader (.delta deltaWidth length) ++ rest) =
      .ok (.delta deltaWidth length, rest) := by
  simp only [Instr.wellFormed, Bool.and_eq_true, Bool.or_eq_true, decide_eq_true_eq] at h
  obtain ⟨hwidth, hlength⟩ := h
  refine (decodeHeader_of_tag_delta (tagOf_headByte _ _ _) _ rest).trans ?_
  rw [deltaOfHeader, widthCode_headByte, deltaWidthOfCode_codeOfDeltaWidth hwidth,
    lengthField_headByte _ _ hlength]

/-- A well-formed run is read back from its header, whatever bytes follow. -/
theorem decodeHeader_encodeHeader (r : Run) (rest : List Byte)
    (h : r.toInstr.wellFormed = true) :
    decodeHeader (encodeHeader r ++ rest) = .ok (r, rest) := by
  cases r with
  | sr => exact decodeHeader_encodeHeader_sr rest h
  | direct => exact decodeHeader_encodeHeader_direct rest h
  | pb => exact decodeHeader_encodeHeader_pb rest h
  | delta => exact decodeHeader_encodeHeader_delta rest h

theorem decode_encodeHeader (r : Run) (h : r.toInstr.wellFormed = true) :
    decode (.stream (encodeHeader r)) = .ok r.toInstr := by
  have hdec := decodeHeader_encodeHeader r [] h
  rw [List.append_nil] at hdec
  rw [decode, hdec]

/-- Settles O1: the run forms through their headers; a command's code selects its own arm of the
decoder, which reads the operands where the encoder put them. -/
theorem decodeOfEncode : Obligations.DecodeOfEncode := by
  unfold Obligations.DecodeOfEncode
  intro i h
  cases i with
  | sr byteWidth repeatCount => exact decode_encodeHeader (.sr byteWidth repeatCount) h
  | direct bitWidth length => exact decode_encodeHeader (.direct bitWidth length) h
  | pb deltaWidth length baseWidth patchWidth gapWidth listLength =>
    exact decode_encodeHeader (.pb deltaWidth length baseWidth patchWidth gapWidth listLength) h
  | delta deltaWidth length => exact decode_encodeHeader (.delta deltaWidth length) h
  | reset | next | skip | seek | add | flush => rfl

theorem decode_of_encode_eq {words : Words} {i : Instr} (hwords : encode i = words)
    (h : i.wellFormed = true) : decode words = .ok i :=
  hwords ▸ decodeOfEncode i h

/-- Settles O3: each of the words is the spelling of its instruction. -/
theorem knownWords : Obligations.KnownWords := by
  unfold Obligations.KnownWords
  refine ⟨?_, ?_, ?_, ?_, ?_, ?_, ?_, ?_, ?_, ?_, ?_⟩ <;>
    exact decode_of_encode_eq (by decide) (by decide)

/-- Settles O4: a whole header leaves the decoder only the form of its tag. -/
theorem everyFirstByteStartsARun : Obligations.EveryFirstByteStartsARun := by
  unfold Obligations.EveryFirstByteStartsARun
  intro h0 rest hlength
  obtain ⟨r, tail, hok⟩ := decodeHeader_of_length hlength
  rcases decodeHeader_cases (h0 :: rest) with herr | ⟨b0, tail, heq, htag, hdec⟩ |
    ⟨b0, h1, tail, heq, htag, hdec⟩ | ⟨b0, h1, h2, h3, tail, heq, htag, hdec⟩ |
    ⟨b0, h1, tail, heq, htag, hdec⟩
  case inl => rw [herr] at hok; cases hok
  all_goals
    cases heq
    rw [hdec, htag]
    exact ⟨_, rfl, by simp [srOfHeader, directOfHeader, pbOfHeader, deltaOfHeader]⟩

/-! ### The base of a Patched Base run (rules R95, R204) -/

/-- The top bit of a number of at most `k + 1` bits tells whether it reaches `2 ^ k`. -/
theorem getLsbD_top_iff {v : Word} {k : Nat} (h : v.toNat < 2 ^ (k + 1)) :
    v.getLsbD k = true ↔ ¬ v.toNat < 2 ^ k := by
  constructor
  · exact fun hbit => not_lt.mpr (Nat.ge_two_pow_of_testBit hbit)
  · exact fun hge => Nat.testBit_of_two_pow_le_and_two_pow_add_one_gt (not_lt.mp hge) h

/-- Below the sign bit the magnitude is the value, above it the value less `2 ^ k`. -/
theorem and_lowMask64_of_top {v : Word} {k : Nat} (hk : k ≤ 64) (h : v.toNat < 2 ^ (k + 1)) :
    v &&& lowMask64 k =
      if v.toNat < 2 ^ k then v else BitVec.ofNat 64 (v.toNat - 2 ^ k) := by
  apply BitVec.eq_of_toNat_eq
  rw [and_lowMask64_toNat v k hk]
  split_ifs with hlt
  · exact Nat.mod_eq_of_lt hlt
  · rw [Nat.pow_succ] at h
    have hv := v.isLt
    rw [BitVec.toNat_ofNat, Nat.mod_eq_of_lt (by omega : v.toNat - 2 ^ k < 2 ^ 64),
      Nat.mod_eq_sub_mod (by omega), Nat.mod_eq_of_lt (by omega)]

/-- Settles O16: the sign bit splits the stored values at `2 ^ (8 * byteWidth - 1)`. -/
theorem baseIsSignAndMagnitude : Obligations.BaseIsSignAndMagnitude := by
  unfold Obligations.BaseIsSignAndMagnitude
  intro byteWidth raw hpos hle hraw
  have hbits : 8 * byteWidth = 8 * byteWidth - 1 + 1 := by omega
  rw [hbits] at hraw
  rw [baseOfRaw, and_lowMask64_of_top (by omega) hraw]
  by_cases hlt : raw.toNat < 2 ^ (8 * byteWidth - 1)
  · simp [getLsbD_top_iff hraw, hlt]
  · simp [getLsbD_top_iff hraw, hlt]

/-! ### The step and the decoder of commands (rule R101) -/

theorem decodeCommand_unknown {c : CommandWord} (h : 5 < c.code.toNat) :
    decodeCommand c = .error (.unknownCommand c.code) := by
  have hne : ∀ k : Byte, k.toNat ≤ 5 → c.code ≠ k := by
    rintro k hk rfl; omega
  rw [decodeCommand, if_neg (hne 0x00 (by decide)), if_neg (hne 0x01 (by decide)),
    if_neg (hne 0x02 (by decide)), if_neg (hne 0x03 (by decide)), if_neg (hne 0x04 (by decide)),
    if_neg (hne 0x05 (by decide))]

theorem step_of_unknown {s : State} {r : Request} {rest : List Request} {e : DecodeError}
    (hpending : s.pending = r :: rest) (hdec : decodeCommand r.command = .error e) :
    step s = .refused (.unknownCommand r.command.code) := by
  simp only [step, hpending, hdec]

theorem step_of_command {s : State} {r : Request} {rest : List Request} {i : Instr}
    (hpending : s.pending = r :: rest) (hdec : decodeCommand r.command = .ok i) :
    step s = exec i (s.issue r rest) := by
  simp only [step, hpending, hdec]

/-- Settles O5: such a code is none of the six, and a step that decodes nothing is refused. -/
theorem unknownCommandsAreRefused : Obligations.UnknownCommandsAreRefused := by
  unfold Obligations.UnknownCommandsAreRefused
  intro s r rest hpending hcode
  exact ⟨decodeCommand_unknown hcode, step_of_unknown hpending (decodeCommand_unknown hcode)⟩

/-- Settles O53: the port's decoder is the one the step asks. -/
theorem stepRunsTheCommand : Obligations.StepRunsTheCommand := by
  unfold Obligations.StepRunsTheCommand
  intro s r rest i hpending hdec
  exact step_of_command hpending hdec

end Sys2Proof.Proofs.Encoding
end

section
/-! The bit primitives (`40_bit_primitives.md`): zig-zag bit by bit, the varint and big-endian
readers over the bytes of their writers, and the bit-unpacker over the bytes of the packer. -/

namespace Sys2Proof.Proofs.BitPrimitives

open Sys2Proof.Machine Sys2Proof.Laws

/-! ### Zig-zag (rules R127 to R129) -/

/-- The low bit of a stored word decides whether the rest is complemented. -/
theorem zigzagDecode_eq (z : Word) :
    zigzagDecode z = if z.getLsbD 0 then ~~~(z >>> 1) else z >>> 1 := by
  have hlow : z &&& 1 = if z.getLsbD 0 then 1 else 0 := by
    refine (BitVec.and_one_eq_setWidth_ofBool_getLsbD (x := z)).trans ?_
    cases z.getLsbD 0 <;> rfl
  rw [zigzagDecode, hlow]
  split
  · rw [← BitVec.xor_allOnes]; rfl
  · exact BitVec.xor_zero

theorem getLsbD_zigzagDecode (z : Word) {i : Nat} (hi : i < 64) :
    (zigzagDecode z).getLsbD i = (z.getLsbD (i + 1) ^^ z.getLsbD 0) := by
  rw [zigzagDecode_eq]
  cases z.getLsbD 0 with
  | false => simp [Nat.add_comm]
  | true => simp [hi, Nat.add_comm]

theorem getLsbD_zigzagEncode (v : Word) {i : Nat} (hi : i < 64) :
    (zigzagEncode v).getLsbD i = ((decide (0 < i) && v.getLsbD (i - 1)) ^^ v.getLsbD 63) := by
  rw [zigzagEncode, BitVec.getLsbD_xor, BitVec.getLsbD_shiftLeft, BitVec.getLsbD_sshiftRight]
  cases i with
  | zero => simp
  | succ j =>
    have hbeyond : ¬ 63 + (j + 1) < 64 := by omega
    simp [hi, hbeyond, show j < 63 by omega, BitVec.msb_eq_getLsbD_last]

theorem zigzagDecode_zigzagEncode (x : Word) : zigzagDecode (zigzagEncode x) = x := by
  apply BitVec.eq_of_getLsbD_eq
  intro i hi
  rw [getLsbD_zigzagDecode _ hi, getLsbD_zigzagEncode x (by omega : 0 < 64)]
  by_cases htop : i = 63
  · subst htop; simp
  · rw [getLsbD_zigzagEncode x (by omega)]; simp

theorem zigzagEncode_zigzagDecode (z : Word) : zigzagEncode (zigzagDecode z) = z := by
  apply BitVec.eq_of_getLsbD_eq
  intro i hi
  rw [getLsbD_zigzagEncode _ hi, getLsbD_zigzagDecode z (by omega : 63 < 64)]
  cases i with
  | zero => simp
  | succ j => rw [Nat.add_sub_cancel, getLsbD_zigzagDecode z (by omega)]; simp

/-- Settles O8: each bit is complemented twice or not at all. -/
theorem zigzagIsABijection : Obligations.ZigzagIsABijection := by
  unfold Obligations.ZigzagIsABijection
  exact fun x => ⟨zigzagDecode_zigzagEncode x, zigzagEncode_zigzagDecode x⟩

theorem zigzagDecode_even {k : Nat} (hk : k < 2 ^ 63) :
    zigzagDecode (BitVec.ofNat 64 (2 * k)) = BitVec.ofNat 64 k := by
  have hlow : (BitVec.ofNat 64 (2 * k)).getLsbD 0 = false := by
    rw [BitVec.getLsbD_ofNat, Nat.testBit_zero]; simp
  have hhalf : BitVec.ofNat 64 (2 * k) >>> 1 = BitVec.ofNat 64 k := by
    apply BitVec.eq_of_toNat_eq
    simp [Nat.shiftRight_eq_div_pow]; omega
  rw [zigzagDecode_eq, hlow, hhalf]; rfl

theorem zigzagDecode_odd {k : Nat} (hk : k < 2 ^ 63) :
    zigzagDecode (BitVec.ofNat 64 (2 * k + 1)) = -(BitVec.ofNat 64 k) - 1 := by
  have hlow : (BitVec.ofNat 64 (2 * k + 1)).getLsbD 0 = true := by
    rw [BitVec.getLsbD_ofNat, Nat.testBit_zero]; simp
  have hhalf : BitVec.ofNat 64 (2 * k + 1) >>> 1 = BitVec.ofNat 64 k := by
    apply BitVec.eq_of_toNat_eq
    simp [Nat.shiftRight_eq_div_pow]; omega
  rw [zigzagDecode_eq, if_pos hlow, hhalf]
  exact BitVec.not_eq_neg_add _

/-- Settles O9: the low bit selects the half or its complement, which is `-k - 1`. -/
theorem zigzagDecodesByParity : Obligations.ZigzagDecodesByParity := by
  unfold Obligations.ZigzagDecodesByParity
  refine ⟨fun z => ?_, fun k hk => ⟨zigzagDecode_even hk, zigzagDecode_odd hk⟩⟩
  rw [zigzagDecode]
  exact congrArg _ (BitVec.zero_sub _).symm

/-! ### Reading a varint (rules R124, R125) -/

theorem readVulong_holds {inp : Memory} {c : Cursor} {bytes : List Byte}
    (hwf : Memory.wf inp = true) (h : Holds inp c.spos bytes) (hv : IsVarint bytes) :
    readVulong inp c = .ok (BitVec.ofNat 64 (varintNat bytes), c.advance bytes.length) := by
  have hfuel : bytes.length ≤ Memory.size inp + 1 := by
    have := holds_length_le hwf h; omega
  simpa [readVulong] using readVulongFrom_holds (x := 0) (off := 0) h hv hfuel (by simp)

/-- Settles O10: the loop adds each byte's payload above the earlier ones, and without a last byte
it runs into the end of the stream. -/
theorem varintRead : Obligations.VarintRead := by
  unfold Obligations.VarintRead
  refine ⟨fun inp c bytes hwf h hv => ?_, fun inp c hcont => ?_⟩
  · have hread := readVulong_holds hwf h hv
    exact ⟨hread, readVslong_ok.mpr ⟨_, hread, rfl⟩⟩
  · exact ⟨readVulong_unended hcont, readVslong_unended hcont⟩

/-! ### The bytes a writer has appended (rules R137, R138) -/

theorem size_of_bytes_append {m m' : Memory} {bs : List Byte}
    (hb : Memory.bytes m' = Memory.bytes m ++ bs) :
    Memory.size m' = Memory.size m + bs.length := by
  rw [← memory_bytes_length, hb, List.length_append, memory_bytes_length]

theorem holds_of_bytes_append {m m' : Memory} {bs : List Byte} (hwf : Memory.wf m' = true)
    (hb : Memory.bytes m' = Memory.bytes m ++ bs) : Holds m' (Memory.size m) bs := by
  rw [← memory_bytes_length]
  exact holds_of_bytes (post := []) hwf (by rw [hb, List.append_nil])

theorem readLongBE_writeLongBE {p : WritePort} {v : Word} {c : Cursor} {n : Nat}
    (hp : p.Counted) (hc : c.spos = Memory.size p.out) (hv : v.toNat < 2 ^ (8 * n)) :
    readLongBE (writeLongBE v n p).out n c = .ok (v, c.advance n) := by
  have hw := appended_writeLongBE v n p
  have hh := holds_of_bytes_append (hw.counted hp).out_wf hw.bytes_eq
  rw [← hc] at hh
  have hread := readLongBEFrom_holds 0 hh
  rw [← bytesToNat, bytesToNat_beBytes v n hv, ofNat_toNat_word, beBytes_length] at hread
  exact hread

theorem varintBytes_length_le (fuel v : Nat) : (varintBytes fuel v).length ≤ fuel := by
  induction fuel generalizing v with
  | zero => simp [varintBytes]
  | succ fuel ih =>
    rw [varintBytes]
    split
    · simp
    · simpa using ih (v / 128)

/-- Ten turns are enough for a word, and the reader stops at the end of its varint. -/
theorem readVulong_writeVulong {p : WritePort} (v : Word) {c : Cursor} (hp : p.Counted)
    (hc : c.spos = Memory.size p.out) :
    ∃ n, 1 ≤ n ∧ n ≤ 10 ∧ Memory.size (writeVulong v p).out = Memory.size p.out + n ∧
      readVulong (writeVulong v p).out c = .ok (v, c.advance n) := by
  have hw := appended_writeVulong v p
  have hwf := (hw.counted hp).out_wf
  have hh := holds_of_bytes_append hwf hw.bytes_eq
  rw [← hc] at hh
  obtain ⟨hvarint, hvalue⟩ := varintBytes_spec 9 v.toNat (v.isLt.trans (by decide))
  refine ⟨(varintBytes 10 v.toNat).length, List.length_pos_iff.mpr (varint_nonempty hvarint),
    varintBytes_length_le 10 _, size_of_bytes_append hw.bytes_eq, ?_⟩
  rw [readVulong_holds hwf hh hvarint, hvalue, ofNat_toNat_word]

theorem readVslong_writeVslong {p : WritePort} (v : Word) {c : Cursor} (hp : p.Counted)
    (hc : c.spos = Memory.size p.out) :
    ∃ n, 1 ≤ n ∧ n ≤ 10 ∧ Memory.size (writeVslong v p).out = Memory.size p.out + n ∧
      readVslong (writeVslong v p).out c = .ok (v, c.advance n) := by
  obtain ⟨n, hpos, hle, hsize, hread⟩ := readVulong_writeVulong (zigzagEncode v) hp hc
  exact ⟨n, hpos, hle, hsize,
    readVslong_ok.mpr ⟨_, hread, (zigzagDecode_zigzagEncode v).symm⟩⟩

/-- Settles O11: the sink holds the writer's bytes at the cursor, and the reader's closed form over
them is the value. -/
theorem byteReadersInvertWriters : Obligations.ByteReadersInvertWriters := by
  unfold Obligations.ByteReadersInvertWriters
  intro p v c hp hc
  refine ⟨fun n _ _ hv => ⟨?_, readLongBE_writeLongBE hp hc hv⟩,
    readVulong_writeVulong v hp hc, readVslong_writeVslong v hp hc⟩
  rw [size_of_bytes_append (appended_writeLongBE v n p).bytes_eq, beBytes_length]

/-! ### The bit-unpacker and the packer (rules R131, R142) -/

/-- Settles O12: the cursor of the closed form is the one whose pending bits the unpacker's own
induction tracks. -/
theorem unpackerClosedForm : Obligations.UnpackerClosedForm := by
  unfold Obligations.UnpackerClosedForm
  intro inp c bytes n w hc hlen h
  have hread := readLongs_holds h hc hlen
  obtain ⟨c', hread', hunpacked⟩ := readLongs_holds' h hc hlen
  obtain rfl : cursorAfter c bytes n w = c' := by simpa using hread.symm.trans hread'
  exact ⟨hread, hunpacked.pending_eq⟩

/-- Cutting a string of packed words into fields gives the words back, whatever follows them. -/
theorem fieldsOf_flatMap_bitsOfWord {vs : List Word} {w : Nat} (hvs : ∀ v ∈ vs, v.toNat < 2 ^ w)
    (rest : List Bool) :
    fieldsOf ((vs.flatMap fun v => bitsOfWord v w) ++ rest) vs.length w = vs := by
  induction vs with
  | nil => rfl
  | cons v vs ih =>
    rw [List.flatMap_cons, List.append_assoc, List.length_cons, fieldsOf_succ,
      List.take_left' (bitsOfWord_length v w), List.drop_left' (bitsOfWord_length v w),
      ih fun u hu => hvs u (List.mem_cons_of_mem v hu), numberOfBits_bitsOfWord,
      Nat.mod_eq_of_lt (hvs v List.mem_cons_self), ofNat_toNat_word]

theorem length_flatMap_bitsOfWord (vs : List Word) (w : Nat) :
    (vs.flatMap fun v => bitsOfWord v w).length = vs.length * w := by
  simp

theorem pendingBits_of_none {c : Cursor} (h : c.bitsLeft = 0) : pendingBits c = [] := by
  rw [← List.length_eq_zero_iff, pendingBits_length c (by omega), h]

/-- Settles O13: the packer's bytes are the words' bits and less than a byte of padding, so the
unpacker's closed form cuts them at the same places. -/
theorem unpackerInvertsPacker : Obligations.UnpackerInvertsPacker := by
  unfold Obligations.UnpackerInvertsPacker
  intro p src w c hp hleft hcur hpos _ hsrc hc hbits
  obtain ⟨hemitted, bs, pad, hbytes, hpacked, hpad⟩ := packedBytes src ⟨hleft, hcur⟩ hpos
  have hlen : bs.length = (src.length * w + 7) / 8 := by
    have := congrArg List.length hpacked
    rw [bitsOf_length, List.length_append, length_flatMap_bitsOfWord, List.length_replicate] at this
    omega
  have hsize := size_of_bytes_append hbytes
  have hh := holds_of_bytes_append (hemitted.counted hp).out_wf hbytes
  rw [← hc] at hh
  have hread := readLongs_holds (n := src.length) (w := w) hh (by omega)
    (by rw [hlen, fetchCount, hbits, Nat.sub_zero])
  rw [pendingBits_of_none hbits, List.nil_append, hpacked,
    fieldsOf_flatMap_bitsOfWord hsrc] at hread
  refine ⟨by rw [hsize, hlen], _, hread, ?_⟩
  rw [cursorAfter, hsize, hc]

end Sys2Proof.Proofs.BitPrimitives
end

section
/-! The run dispatcher (`41_run_dispatcher.md`): the values a number of slot steps hand out, said
once for `NEXT` and `SKIP`; where `NEXT` puts them, masked or not; and the run header at the stream
position. -/

namespace Sys2Proof.Proofs.RunDispatcher

open Sys2Proof.Machine Sys2Proof.Laws Sys2Proof.Proofs.EngineState Sys2Proof.Proofs.MemoryFrame
  Sys2Proof.Proofs.Encoding

/-! ### The values of `n` slot steps (rule R165) -/

/-- What `n` slot steps hand out, in order, and the decoder after them. -/
def nextValues (cfg : Settings) (inp : Memory) : (n : Nat) → Decoder →
    Except ErrorKind (List Word × Decoder)
  | 0, d => .ok ([], d)
  | n + 1, d => do
      let (v, d) ← slotStep cfg inp d
      let (vs, d) ← nextValues cfg inp n d
      .ok (v :: vs, d)

theorem nextValues_succ_error {cfg : Settings} {inp : Memory} {d : Decoder} {k : ErrorKind}
    (n : Nat) (h : slotStep cfg inp d = .error k) :
    nextValues cfg inp (n + 1) d = .error k := by
  rw [nextValues, h]; rfl

theorem nextValues_succ_ok {cfg : Settings} {inp : Memory} {d e : Decoder} {v : Word}
    (n : Nat) (h : slotStep cfg inp d = .ok (v, e)) :
    nextValues cfg inp (n + 1) d = (nextValues cfg inp n e).map fun p => (v :: p.1, p.2) := by
  simp only [nextValues, h, except_bind_ok]
  cases nextValues cfg inp n e <;> rfl

theorem length_nextValues {cfg : Settings} {inp : Memory} {n : Nat} {d e : Decoder}
    {vs : List Word} (h : nextValues cfg inp n d = .ok (vs, e)) : vs.length = n := by
  induction n generalizing d vs with
  | zero =>
    cases h
    rfl
  | succ n ih =>
    obtain ⟨⟨v, d₁⟩, -, h⟩ := except_bind_eq_ok.mp h
    obtain ⟨⟨vs', d₂⟩, hrest, h⟩ := except_bind_eq_ok.mp h
    cases h
    rw [List.length_cons, ih hrest]

/-- `SKIP` takes the same steps and drops the values (rule R236). -/
theorem skipSlots_eq (cfg : Settings) (inp : Memory) (n : Nat) (d : Decoder) :
    skipSlots cfg inp n d = (nextValues cfg inp n d).map Prod.snd := by
  induction n generalizing d with
  | zero => rfl
  | succ n ih =>
    cases hstep : slotStep cfg inp d with
    | error k => rw [skipSlots, hstep, nextValues_succ_error n hstep]; rfl
    | ok p =>
      simp only [skipSlots, hstep, except_bind_ok, nextValues_succ_ok n hstep, ih]
      cases nextValues cfg inp n p.2 <;> rfl

/-! ### Inside a run, at its end, and where a run begins (rules R162, R165) -/

/-- `n` positions of the run in progress consumed; the last one ends the run. -/
def consumePositions (n : Nat) (d : Decoder) : Decoder :=
  { d with
    runConsumed := d.runConsumed + n
    dstate := if d.runConsumed + n = d.runLength then .awaitingHeader else .inRun }

/-- A run whose positions are partly or wholly consumed, with the state that goes with it. -/
structure WithinRun (d : Decoder) : Prop where
  consumed_le : d.runConsumed ≤ d.runLength
  dstate_eq : d.dstate = if d.runConsumed = d.runLength then .awaitingHeader else .inRun

theorem WithinRun.of_inRun {d : Decoder} (hrun : d.dstate = .inRun)
    (hlt : d.runConsumed < d.runLength) : WithinRun d :=
  ⟨hlt.le, by rw [hrun, if_neg hlt.ne]⟩

theorem WithinRun.inRun {d : Decoder} (h : WithinRun d) (hne : d.runConsumed ≠ d.runLength) :
    d.dstate = .inRun :=
  h.dstate_eq.trans (if_neg hne)

theorem WithinRun.consumePositions_zero {d : Decoder} (h : WithinRun d) :
    consumePositions 0 d = d := by
  rw [consumePositions, Nat.add_zero, ← h.dstate_eq]

theorem consumePosition_eq {d : Decoder} (h : d.dstate = .inRun) :
    consumePosition d = consumePositions 1 d := by
  rw [consumePosition, consumePositions, h]

theorem withinRun_consumePosition {d : Decoder} (hrun : d.dstate = .inRun)
    (hlt : d.runConsumed < d.runLength) : WithinRun (consumePosition d) :=
  ⟨hlt, by rw [consumePosition_dstate, hrun]; rfl⟩

theorem consumePositions_consumePosition (n : Nat) (d : Decoder) :
    consumePositions n (consumePosition d) = consumePositions (n + 1) d := by
  simp only [consumePositions, consumePosition, Nat.add_assoc, Nat.add_comm 1]

theorem slotStep_inRun {d : Decoder} (cfg : Settings) (inp : Memory) (h : d.dstate = .inRun) :
    slotStep cfg inp d = .ok (currentValue d, consumePosition d) := by
  rw [slotStep, ensureRun, h]; rfl

/-- With no run in progress a slot step is a slot step in the fetched run. -/
theorem slotStep_of_fetchRun {cfg : Settings} {inp : Memory} {d e : Decoder}
    (hwait : d.dstate = .awaitingHeader) (h : fetchRun cfg inp d = .ok e) :
    slotStep cfg inp d = .ok (currentValue e, consumePosition e) := by
  rw [slotStep, ensureRun, hwait, h]; rfl

theorem slotStep_of_fetchRun_error {cfg : Settings} {inp : Memory} {d : Decoder} {k : ErrorKind}
    (hwait : d.dstate = .awaitingHeader) (h : fetchRun cfg inp d = .error k) :
    slotStep cfg inp d = .error k := by
  rw [slotStep, ensureRun, hwait, h]; rfl

/-- Inside the run the slot steps hand out the entries of the run buffer. -/
theorem nextValues_withinRun {cfg : Settings} {inp : Memory} {n : Nat} {d : Decoder}
    (hd : WithinRun d) (hn : d.runConsumed + n ≤ d.runLength)
    (hbuf : d.runLength ≤ d.runBuffer.length) :
    nextValues cfg inp n d =
      .ok ((d.runBuffer.drop d.runConsumed).take n, consumePositions n d) := by
  induction n generalizing d with
  | zero => rw [hd.consumePositions_zero]; rfl
  | succ n ih =>
    have hlt : d.runConsumed < d.runLength := by omega
    have hrun := hd.inRun hlt.ne
    have hrest := ih (withinRun_consumePosition hrun hlt)
      (by simp only [consumePosition_runConsumed, consumePosition_runLength]; omega) hbuf
    rw [nextValues_succ_ok n (slotStep_inRun cfg inp hrun), hrest, consumePositions_consumePosition,
      List.drop_eq_getElem_cons (hlt.trans_le hbuf), List.take_succ_cons, currentValue,
      List.getD_eq_getElem _ _ (hlt.trans_le hbuf)]
    rfl

/-- With no run in progress, at least one slot step goes on as in the fetched run. -/
theorem nextValues_of_fetchRun {cfg : Settings} {inp : Memory} {n : Nat} {d e : Decoder}
    (hwait : d.dstate = .awaitingHeader) (hn : 0 < n) (h : fetchRun cfg inp d = .ok e) :
    nextValues cfg inp n d = nextValues cfg inp n e := by
  obtain ⟨n, rfl⟩ := Nat.exists_eq_add_of_lt hn
  rw [Nat.zero_add, nextValues_succ_ok n (slotStep_of_fetchRun hwait h),
    nextValues_succ_ok n (slotStep_inRun cfg inp (fetchRun_entered h).dstate_eq)]

theorem nextValues_of_fetchRun_error {cfg : Settings} {inp : Memory} {n : Nat} {d : Decoder}
    {k : ErrorKind} (hwait : d.dstate = .awaitingHeader) (hn : 0 < n)
    (h : fetchRun cfg inp d = .error k) : nextValues cfg inp n d = .error k := by
  obtain ⟨n, rfl⟩ := Nat.exists_eq_add_of_lt hn
  rw [Nat.zero_add, nextValues_succ_error n (slotStep_of_fetchRun_error hwait h)]

/-! ### The slots of `NEXT` (rules R164, R166) -/

/-- How many positions the slots with this presence consume. -/
def positionsTaken (consumes : Bool) (present : List Bool) : Nat :=
  present.countP fun p => p || consumes

@[simp] theorem positionsTaken_true (present : List Bool) :
    positionsTaken true present = present.length := by
  simp [positionsTaken]

@[simp] theorem positionsTaken_false (present : List Bool) :
    positionsTaken false present = present.count true := by
  rw [positionsTaken, List.count]
  exact List.countP_congr (by simp)

theorem positionsTaken_le (consumes : Bool) (present : List Bool) :
    positionsTaken consumes present ≤ present.length :=
  List.countP_le_length

@[simp] theorem positionsTaken_replicate (consumes : Bool) (n : Nat) :
    positionsTaken consumes (List.replicate n true) = n := by
  simp [positionsTaken, List.countP_replicate]

theorem positionsTaken_cons_of_takes {consumes p : Bool} (ps : List Bool)
    (h : (p || consumes) = true) :
    positionsTaken consumes (p :: ps) = positionsTaken consumes ps + 1 :=
  List.countP_cons_of_pos h

theorem positionsTaken_cons_of_passes {consumes p : Bool} (ps : List Bool)
    (h : ¬(p || consumes) = true) :
    positionsTaken consumes (p :: ps) = positionsTaken consumes ps :=
  List.countP_cons_of_neg h

/-- Values laid out over the slots: one for each slot that consumes a position, written into a
present slot only. -/
def placeValues (consumes : Bool) : (present : List Bool) → (out vs : List Word) → List Word
  | p :: ps, slot :: rest, vs =>
      if p || consumes then
        (if p then vs.headD slot else slot) :: placeValues consumes ps rest vs.tail
      else slot :: placeValues consumes ps rest vs
  | _, out, _ => out

/-- The slot loop is the slot steps of the positions it consumes, and the placing of their
values. -/
theorem fillSlots_eq {cfg : Settings} {inp : Memory} {ps : List Bool} {out : List Word}
    {d : Decoder} (hlen : ps.length ≤ out.length) :
    fillSlots cfg inp ps out d =
      (nextValues cfg inp (positionsTaken cfg.maskConsumes ps) d).map
        fun p => (placeValues cfg.maskConsumes ps out p.1, p.2) := by
  induction ps generalizing out d with
  | nil => rfl
  | cons p ps ih =>
    cases out with
    | nil => simp at hlen
    | cons slot rest =>
      have hlen : ps.length ≤ rest.length := by simpa using hlen
      rw [fillSlots]
      simp only [placeValues]
      by_cases hp : (p || cfg.maskConsumes) = true
      · rw [positionsTaken_cons_of_takes ps hp]
        cases hstep : slotStep cfg inp d with
        | error k => simp only [hp, nextValues_succ_error _ hstep]; rfl
        | ok q =>
          simp only [hp, if_true, nextValues_succ_ok _ hstep, except_bind_ok, ih hlen]
          cases nextValues cfg inp (positionsTaken cfg.maskConsumes ps) q.2 <;> rfl
      · rw [positionsTaken_cons_of_passes ps hp]
        simp only [hp, ih hlen]
        cases nextValues cfg inp (positionsTaken cfg.maskConsumes ps) d <;> rfl

/-- Without a mask the values stand in the first slots. -/
theorem placeValues_replicate (consumes : Bool) {n : Nat} {out vs : List Word}
    (hvs : vs.length = n) (hn : n ≤ out.length) :
    placeValues consumes (List.replicate n true) out vs = vs ++ out.drop n := by
  induction vs generalizing n out with
  | nil => subst hvs; simp [placeValues]
  | cons v vs ih =>
    subst hvs
    cases out with
    | nil => simp at hn
    | cons slot rest =>
      have hrest := ih rfl (by simpa using hn : vs.length ≤ rest.length)
      simpa [List.replicate_succ, placeValues] using hrest

/-- A present slot holds the value of its own position, which the slots before it lead up to; an
absent one keeps its content. -/
theorem getElem?_placeValues (consumes : Bool) {ps : List Bool} {out vs : List Word} {i : Nat}
    (hlen : ps.length ≤ out.length) (hvs : positionsTaken consumes ps ≤ vs.length)
    (hi : i < ps.length) :
    (placeValues consumes ps out vs)[i]? =
      if ps.getD i true then vs[positionsTaken consumes (ps.take i)]? else out[i]? := by
  induction ps generalizing out vs i with
  | nil => simp at hi
  | cons p ps ih =>
    cases out with
    | nil => simp at hlen
    | cons slot rest =>
      have hlen : ps.length ≤ rest.length := by simpa using hlen
      rw [placeValues]
      by_cases hp : (p || consumes) = true
      · rw [if_pos hp]
        rw [positionsTaken_cons_of_takes ps hp] at hvs
        obtain ⟨v, vs, rfl⟩ := List.exists_cons_of_length_pos (Nat.zero_lt_of_lt hvs)
        cases i with
        | zero => cases p <;> rfl
        | succ i =>
          rw [List.take_succ_cons, positionsTaken_cons_of_takes _ hp]
          exact ih hlen (by simpa using hvs) (by simpa using hi)
      · rw [if_neg hp]
        rw [positionsTaken_cons_of_passes ps hp] at hvs
        cases i with
        | zero =>
          cases p with
          | true => exact absurd rfl hp
          | false => rfl
        | succ i =>
          rw [List.take_succ_cons, positionsTaken_cons_of_passes _ hp]
          exact ih hlen hvs (by simpa using hi)

/-- A present slot below the end has its position among those consumed. -/
theorem positionsTaken_take_lt (consumes : Bool) {ps : List Bool} {i : Nat} (hi : i < ps.length)
    (hp : ps.getD i true = true) :
    positionsTaken consumes (ps.take i) < positionsTaken consumes ps := by
  have hsplit : positionsTaken consumes ps =
      positionsTaken consumes (ps.take i) + positionsTaken consumes (ps.drop i) := by
    rw [positionsTaken, positionsTaken, positionsTaken, ← List.countP_append,
      List.take_append_drop]
  rw [List.getD_eq_getElem _ _ hi] at hp
  rw [hsplit, List.drop_eq_getElem_cons hi,
    positionsTaken_cons_of_takes _ (by rw [hp, Bool.true_or])]
  omega

/-- The first `n` slots of a mask: each present one holds what an unmasked `NEXT`, which leaves the
values in front, puts at that position. -/
theorem getElem?_placeValues_take (consumes : Bool) {mask : List Bool} {n i : Nat}
    {out vs : List Word} (rest : List Word) (hn : n ≤ out.length) (hm : n ≤ mask.length)
    (hvs : vs.length = positionsTaken consumes (mask.take n)) (hi : i < n) :
    (placeValues consumes (mask.take n) out vs)[i]? =
      if mask.getD i true then (vs ++ rest)[positionsTaken consumes (mask.take i)]?
      else out[i]? := by
  have hlen : (mask.take n).length = n := List.length_take_of_le hm
  have hi' : i < (mask.take n).length := hi.trans_eq hlen.symm
  have hmask : (mask.take n).getD i true = mask.getD i true := by
    simp [List.getD_eq_getElem?_getD, hi]
  have htake : (mask.take n).take i = mask.take i := by
    rw [List.take_take, Nat.min_eq_left hi.le]
  rw [getElem?_placeValues consumes (hlen.trans_le hn) hvs.ge hi', hmask, htake]
  split_ifs with hp
  · have hlt := positionsTaken_take_lt consumes hi' (hmask.trans hp)
    rw [htake, ← hvs] at hlt
    exact (List.getElem?_append_left hlt).symm
  · rfl

/-! ### The commands on a ready half (rules R164, R236) -/

theorem exec_next_of_ready {s : State} {n : BitVec 32} {masked : Bool}
    (hf : s.dec.fault = false) (hb : buffersCover masked s.mask s.out n.toNat = true) :
    exec (.next n masked) s = .next (settleSlots n.toNat s
      (fillSlots s.cfg s.input (presentSlots masked s.mask n.toNat) s.out s.dec)) :=
  (whenDecoderReady_of_ready hf _).trans (if_pos hb)

/-- An unmasked `NEXT` puts the values of its slot steps before the slots beyond its count. -/
theorem exec_next_unmasked {s : State} {n : BitVec 32} (hf : s.dec.fault = false)
    (hn : n.toNat ≤ s.out.length) :
    exec (.next n false) s = .next (settleSlots n.toNat s
      ((nextValues s.cfg s.input n.toNat s.dec).map
        fun p => (p.1 ++ s.out.drop n.toNat, p.2))) := by
  rw [exec_next_of_ready hf (by simpa [buffersCover, maskCovers] using hn), presentSlots,
    if_neg (by decide), fillSlots_eq (by simpa using hn), positionsTaken_replicate]
  cases hv : nextValues s.cfg s.input n.toNat s.dec with
  | error k => rfl
  | ok p => simp only [Except.map, placeValues_replicate _ (length_nextValues hv) hn]

/-- A masked `NEXT` places the values of the slot steps its presence calls for. -/
theorem exec_next_masked {s : State} {n : BitVec 32} (hf : s.dec.fault = false)
    (hn : n.toNat ≤ s.out.length) (hm : n.toNat ≤ s.mask.length) :
    exec (.next n true) s = .next (settleSlots n.toNat s
      ((nextValues s.cfg s.input (positionsTaken s.cfg.maskConsumes (s.mask.take n.toNat))
        s.dec).map
        fun p => (placeValues s.cfg.maskConsumes (s.mask.take n.toNat) s.out p.1, p.2))) := by
  rw [exec_next_of_ready hf (by simp [buffersCover, maskCovers, hn, hm]), presentSlots,
    if_pos rfl, fillSlots_eq ((List.length_take_of_le hm).trans_le hn)]

theorem exec_skip_of_ready {s : State} (k : BitVec 32) (hf : s.dec.fault = false) :
    exec (.skip k) s = .next (settleSkip s
      ((nextValues s.cfg s.input k.toNat s.dec).map Prod.snd)) := by
  rw [← skipSlots_eq]
  exact whenDecoderReady_of_ready hf _

/-- Settles O37: each of the three commands stands behind the gate of the faulted half. -/
theorem decoderFaultSticks : Obligations.DecoderFaultSticks := by
  unfold Obligations.DecoderFaultSticks
  intro s hf
  exact ⟨fun _ _ => whenDecoderReady_of_fault hf _, fun _ => whenDecoderReady_of_fault hf _,
    fun _ _ _ _ => whenDecoderReady_of_fault hf _⟩

/-- Settles O26: inside the run the slot steps read the run buffer. -/
theorem nextInsideARun : Obligations.NextInsideARun := by
  unfold Obligations.NextInsideARun
  intro s n hf hrun hlt hn hbuf hout
  rw [exec_next_unmasked hf hout, nextValues_withinRun (.of_inRun hrun hlt) hn hbuf]
  rfl

/-! ### `NEXT` across runs (rules R162, R276, R278) -/

/-- Two walks with one result differ only in what a fault leaves unspecified. -/
theorem settleSlots_agrees (n : Nat) (s : State) (d : Decoder)
    (r : Except ErrorKind (List Word × Decoder)) :
    let v := settleSlots n s r
    let t := settleSlots n { s with dec := d } r
    v.dec.Agrees t.dec ∧ v.response = t.response ∧ (t.dec.fault = false → v.out = t.out) := by
  cases r with
  | ok p => exact ⟨decoder_agrees_refl _, rfl, fun _ => rfl⟩
  | error k => exact ⟨⟨rfl, rfl, nofun, nofun, nofun⟩, rfl, nofun⟩

/-- Settles O27: the first slot step fetches the run, and every later one is the same step. -/
theorem nextFetchesARun : Obligations.NextFetchesARun := by
  unfold Obligations.NextFetchesARun
  intro s t n d hf hwait hpos hn hfetch ht
  have hd : d.fault = false := (fetchRun_entered hfetch).fault_eq.trans hf
  have hv := exec_next_unmasked hf hn
  rw [nextValues_of_fetchRun hwait hpos hfetch] at hv
  rw [exec_next_unmasked (s := { s with dec := d }) hd hn] at ht
  obtain rfl := Host.Outcome.next.inj ht
  obtain ⟨hdec, hresponse, hout⟩ := settleSlots_agrees n.toNat s d _
  exact ⟨_, hv, hdec, hresponse, hout, onlyDecoderMoves_next hv⟩

/-! ### The presence mask (rule R166) -/

/-- Status 0 is no error's (rules R104, R270). -/
theorem errorCode_ne_zero (k : ErrorKind) : k.code ≠ 0 := by
  cases k <;> decide

/-- Under either setting, a masked `NEXT` is an unmasked one over the positions its presence
consumes, whose values go to the present slots. -/
theorem exec_next_masked_unmasked {s : State} {n : BitVec 32} (hf : s.dec.fault = false)
    (hn : n.toNat ≤ s.out.length) (hm : n.toNat ≤ s.mask.length) :
    ∃ t u, exec (.next n true) s = .next t ∧
      exec (.next (BitVec.ofNat 32
        (positionsTaken s.cfg.maskConsumes (s.mask.take n.toNat))) false) s = .next u ∧
      t.dec.Agrees u.dec ∧ t.response = u.response ∧
      (t.response.status = 0 → ∀ i, i < n.toNat →
        t.out[i]? = if s.mask.getD i true then
          u.out[positionsTaken s.cfg.maskConsumes (s.mask.take i)]? else s.out[i]?) := by
  have hlen : (s.mask.take n.toNat).length = n.toNat := List.length_take_of_le hm
  have hle := hlen ▸ positionsTaken_le s.cfg.maskConsumes (s.mask.take n.toNat)
  have hcount : (BitVec.ofNat 32 (positionsTaken s.cfg.maskConsumes
      (s.mask.take n.toNat))).toNat = positionsTaken s.cfg.maskConsumes (s.mask.take n.toNat) := by
    rw [BitVec.toNat_ofNat, Nat.mod_eq_of_lt (hle.trans_lt n.isLt)]
  refine ⟨_, _, exec_next_masked hf hn hm,
    exec_next_unmasked hf (hcount.trans_le (hle.trans hn)), ?_⟩
  rw [hcount]
  cases hv : nextValues s.cfg s.input (positionsTaken s.cfg.maskConsumes (s.mask.take n.toNat))
      s.dec with
  | error k =>
    exact ⟨decoder_agrees_refl _, rfl, fun hstatus => absurd hstatus (errorCode_ne_zero k)⟩
  | ok p =>
    exact ⟨decoder_agrees_refl _, rfl, fun _ i hi =>
      getElem?_placeValues_take _ _ hn hm (length_nextValues hv) hi⟩

/-- Settles O28: the two settings differ in how many positions a presence consumes. -/
theorem presenceMask : Obligations.PresenceMask := by
  unfold Obligations.PresenceMask
  intro s n hf hn hm
  have h := exec_next_masked_unmasked hf hn hm
  refine ⟨fun hconsumes => ?_, fun hconsumes => ?_⟩ <;> rw [hconsumes] at h
  · have hlen : (s.mask.take n.toNat).length = n.toNat := List.length_take_of_le hm
    simp only [positionsTaken_true, hlen, BitVec.ofNat_toNat, BitVec.setWidth_eq] at h
    obtain ⟨t, u, ht, hu, hdec, hresponse, hout⟩ := h
    refine ⟨t, u, ht, hu, hdec, hresponse, fun hstatus i hi => ?_⟩
    rw [hout hstatus i hi, List.length_take_of_le (hi.le.trans hm)]
  · simpa only [positionsTaken_false] using h

/-! ### The run header at the stream position (rules R80, R162, R169) -/

theorem fetchRun_at_end {cfg : Settings} {inp : Memory} {d : Decoder}
    (hwf : Memory.wf inp = true) (hend : d.cur.spos = Memory.size inp) :
    fetchRun cfg inp d = .error .truncatedStream := by
  have hnone : Memory.read? inp (resetRun d.cur).spos = none := by
    rw [memory_read?_eq hwf, resetRun_spos, hend,
      List.getElem?_eq_none (memory_bytes_length inp).le]
  have hbyte : readByte inp (resetRun d.cur) = .error .truncatedStream :=
    streamRead_error.mpr ⟨hnone, rfl⟩
  rw [fetchRun, fetchHeader, hbyte]
  rfl

/-- Settles O30: the first slot step asks for a run header where no byte is left. -/
theorem noValueAfterTheEnd : Obligations.NoValueAfterTheEnd := by
  unfold Obligations.NoValueAfterTheEnd
  intro s n hwf hf hwait hend hpos
  have hvalues := nextValues_of_fetchRun_error hwait hpos (fetchRun_at_end (cfg := s.cfg) hwf hend)
  constructor
  · intro hn
    have hexec := exec_next_unmasked hf hn
    rw [hvalues] at hexec
    exact ⟨_, hexec, ⟨rfl, rfl, rfl⟩, onlyDecoderMoves_next hexec⟩
  · have hexec := exec_skip_of_ready n hf
    rw [hvalues] at hexec
    obtain ⟨hmoves, hout⟩ := exec_skip_frame hexec
    exact ⟨_, hexec, ⟨rfl, rfl, rfl⟩, hmoves, hout⟩

/-- Of the bytes it is given the header decoder takes as many as the first one's tag says. -/
theorem length_of_decodeHeader {bytes rest : List Byte} {r : Run}
    (h : decodeHeader bytes = .ok (r, rest)) :
    ∃ h0 tail, bytes = h0 :: tail ∧
      bytes.length = headerLength (tagOf h0) + rest.length := by
  rcases decodeHeader_cases bytes with herr | ⟨h0, tail, rfl, htag, hdec⟩ |
    ⟨h0, h1, tail, rfl, htag, hdec⟩ | ⟨h0, h1, h2, h3, tail, rfl, htag, hdec⟩ |
    ⟨h0, h1, tail, rfl, htag, hdec⟩
  case inl => rw [herr] at h; cases h
  all_goals
    rw [hdec] at h
    cases h
    refine ⟨h0, _, rfl, ?_⟩
    rw [htag]
    simp +arith [headerLength]

/-- A whole header at the cursor is fetched and decoded. -/
theorem fetchHeader_of_holds {inp : Memory} {c : Cursor} {header : List Byte} {r : Run}
    (hh : Holds inp c.spos header) (hdec : decodeHeader header = .ok (r, [])) :
    fetchHeader inp c = .ok (r, c.advance header.length) := by
  obtain ⟨h0, tail, rfl, hlen⟩ := length_of_decodeHeader hdec
  obtain ⟨hread, htail⟩ := holds_cons.mp hh
  replace hlen : tail.length + 1 = headerLength (tagOf h0) := by simpa using hlen
  have hbytes : readBytes inp (headerLength (tagOf h0) - 1) (c.advance 1) =
      .ok (tail, (c.advance 1).advance (headerLength (tagOf h0) - 1)) :=
    readBytes_ok.mpr ⟨by omega, htail, rfl⟩
  simp only [fetchHeader, readByte_of_read? hread, except_bind_ok, hbytes, hdec]
  rw [advance_advance, ← hlen, Nat.add_sub_cancel, Nat.add_comm 1, List.length_cons]

/-- With a whole header at the stream position, fetching the run is materialising it at the byte
after the header. -/
theorem fetchRun_of_holds {cfg : Settings} {inp : Memory} {d : Decoder} {header : List Byte}
    {r : Run} (hh : Holds inp d.cur.spos header) (hdec : decodeHeader header = .ok (r, [])) :
    fetchRun cfg inp d =
      materialise cfg inp r { d with cur := (resetRun d.cur).advance header.length } := by
  rw [fetchRun, fetchHeader_of_holds (c := resetRun d.cur) hh hdec, except_bind_ok]

/-! ### The step that fetches a run (rules R162, R236) -/

/-- `SKIP 1` with no run in progress consumes the first position of the fetched run, or takes its
error. -/
theorem exec_skip_one_of_awaiting {s : State} (hf : s.dec.fault = false)
    (hwait : s.dec.dstate = .awaitingHeader) :
    exec (.skip 1) s =
      .next (settleSkip s ((fetchRun s.cfg s.input s.dec).map consumePosition)) := by
  have hone : (1 : BitVec 32).toNat = 1 := rfl
  rw [exec_skip_of_ready 1 hf, hone]
  cases hfetch : fetchRun s.cfg s.input s.dec with
  | error k => rw [nextValues_of_fetchRun_error hwait Nat.one_pos hfetch]; rfl
  | ok d =>
    rw [nextValues_succ_ok 0 (slotStep_of_fetchRun hwait hfetch)]; rfl

/-- Settling a fetched run as a skip is settling it as a run form and consuming a position. The
cursor before the fetch does not matter: of the half that takes an error, only the count of
unspecified events reaches the faulted one. -/
theorem settleSkip_of_settleDecoder {s : State} {c : Cursor} {r : Except ErrorKind Decoder}
    (hok : ∀ d, r = .ok d → d.fault = false ∧ d.dstate = .inRun) :
    let t := settleDecoder { s with dec := { s.dec with cur := c } } r
    (t.dec.fault = true → settleSkip s (r.map consumePosition) = t) ∧
    (t.dec.fault = false → settleSkip s (r.map consumePosition) =
      respond 0 { t with dec := consumePositions 1 t.dec }) := by
  cases r with
  | error k => exact ⟨fun _ => rfl, nofun⟩
  | ok d =>
    obtain ⟨hready, hrun⟩ := hok d rfl
    refine ⟨fun hfault => absurd (hready.symm.trans hfault) (by decide), fun _ => ?_⟩
    rw [Except.map, settleSkip, consumePosition_eq hrun]
    rfl

/-- Settles O54: the fetched run is the run's own meaning after its header. -/
theorem stepRunsTheRun : Obligations.StepRunsTheRun := by
  unfold Obligations.StepRunsTheRun
  intro s t q rest r header hf hwait hpending hskip hdec hh ht
  have hstep := (step_of_command hpending hskip).trans
    (exec_skip_one_of_awaiting (s := s.issue q rest) hf hwait)
  rw [issue_cfg, issue_input, issue_dec, fetchRun_of_holds hh hdec] at hstep
  rcases exec_run_cases ht with ⟨hfault, -⟩ | ⟨-, rfl⟩
  · exact absurd (hf.symm.trans hfault) (by decide)
  · obtain ⟨hraised, hready⟩ := settleSkip_of_settleDecoder (s := s.issue q rest)
      (c := (resetRun s.dec.cur).advance header.length)
      (r := materialise s.cfg s.input r
        { s.dec with cur := (resetRun s.dec.cur).advance header.length })
      fun d hd => by
        have hent := materialise_entered (decodeHeader_wellFormed hdec) hd
        exact ⟨hent.fault_eq.trans hf, hent.dstate_eq⟩
    exact ⟨fun hfault => hstep.trans (congrArg _ (hraised hfault)),
      fun hnone => hstep.trans (congrArg _ (hready hnone))⟩

end Sys2Proof.Proofs.RunDispatcher
end

section
/-! The Direct run (`43_direct.md`): its decoder in closed form over a payload in the stream, and the
run fetch over the bytes of its writer. -/

namespace Sys2Proof.Proofs.DirectRun

open Sys2Proof.Machine Sys2Proof.Laws Sys2Proof.Proofs.Encoding Sys2Proof.Proofs.BitPrimitives
  Sys2Proof.Proofs.RunDispatcher

/-! ### The decoder (rule R192) -/

theorem decodeDirect_of_readLongs {inp : Memory} {bitWidth length : Nat} {d : Decoder}
    {raws : List Word} {c : Cursor} (cfg : Settings)
    (h : readLongs inp length bitWidth d.cur = .ok (raws, c)) :
    decodeDirect cfg inp bitWidth length d =
      .ok (enterRun 1 (raws.map (valueOfStored cfg.signed)) { d with cur := c, w := bitWidth }) := by
  rw [decodeDirect, h, except_bind_ok]

/-- A ready half settles the decoded run. -/
theorem exec_direct_of_ready {s : State} (bitWidth length : Nat) (hf : s.dec.fault = false) :
    exec (.direct bitWidth length) s =
      .next (settleDecoder s (decodeDirect s.cfg s.input bitWidth length s.dec)) :=
  (exec_run (.direct bitWidth length) s).trans (whenDecoderReady_of_ready hf _)

/-- Settles O15: the unpacker's closed form gives the lanes and the cursor, and entering the run
gives the other registers. -/
theorem directCompletes : Obligations.DirectCompletes := by
  unfold Obligations.DirectCompletes
  intro s bitWidth length bytes hf hbits _ _ _ hlen hh
  have hdecode := decodeDirect_of_readLongs s.cfg (readLongs_holds hh hbits hlen)
  refine ⟨freeWords .runBuffer s.dec.freeCount length (512 - length), freeWords_length .., ?_⟩
  rw [exec_direct_of_ready bitWidth length hf, hdecode, settleDecoder, enterRun, List.length_map,
    fieldsOf_length]
  rfl

/-! ### The writer (rule R196) -/

theorem valueOfStored_storedOfValue (signed : Bool) (v : Word) :
    valueOfStored signed (storedOfValue signed v) = v := by
  cases signed with
  | false => rfl
  | true => exact zigzagDecode_zigzagEncode v

theorem map_valueOfStored_storedOfValue (signed : Bool) (vals : List Word) :
    (vals.map (storedOfValue signed)).map (valueOfStored signed) = vals := by
  have hid : valueOfStored signed ∘ storedOfValue signed = id :=
    funext (valueOfStored_storedOfValue signed)
  rw [List.map_map, hid, List.map_id]

/-- The width of the fields of an emitted Direct run. -/
def directWidth (signed : Bool) (vals : List Word) : Nat :=
  closestWidth (neededWidth (vals.map (storedOfValue signed)))

theorem isTableWidth_directWidth (signed : Bool) (vals : List Word) :
    isTableWidth (directWidth signed vals) = true :=
  isTableWidth_closestWidth _

theorem directWidth_range (signed : Bool) (vals : List Word) :
    1 ≤ directWidth signed vals ∧ directWidth signed vals ≤ 64 :=
  closestWidth_range _

/-- Every stored value fits a field of the emitted run. -/
theorem toNat_lt_directWidth {signed : Bool} {vals : List Word} {z : Word}
    (h : z ∈ vals.map (storedOfValue signed)) : z.toNat < 2 ^ directWidth signed vals :=
  (toNat_lt_neededWidth h).trans_le
    (Nat.pow_le_pow_right Nat.two_pos (closestWidth_ge (neededWidth_le _)))

/-- The header of the run `emitDirect` writes. -/
def directHeader (signed : Bool) (vals : List Word) : List Byte :=
  encodeHeader (.direct (directWidth signed vals) vals.length)

theorem decodeHeader_directHeader (signed : Bool) {vals : List Word} (hpos : 1 ≤ vals.length)
    (hle : vals.length ≤ 512) :
    decodeHeader (directHeader signed vals) =
      .ok (.direct (directWidth signed vals) vals.length, []) := by
  have hwf : (Instr.direct (directWidth signed vals) vals.length).wellFormed = true := by
    rw [Instr.wellFormed, isTableWidth_directWidth, (lengthOk_iff _).mpr ⟨hpos, hle⟩]; rfl
  simpa only [directHeader, List.append_nil] using decodeHeader_encodeHeader_direct [] hwf

/-- The port after the header of an emitted Direct run. -/
def writeDirectHeader (signed : Bool) (vals : List Word) (p : WritePort) : WritePort :=
  writeByte (lengthByte vals.length)
    (writeByte (headByte 1 (codeOfWidth (directWidth signed vals)) vals.length) p)

theorem appended_writeDirectHeader (signed : Bool) (vals : List Word) (p : WritePort) :
    Appended p (writeDirectHeader signed vals p) (directHeader signed vals) :=
  (appended_writeByte _ p).trans (appended_writeByte _ _)

/-- An emitted run is its header and then the packed fields. -/
theorem emitDirect_eq (signed : Bool) (vals : List Word) (p : WritePort) :
    emitDirect signed vals p =
      flushBits (writeLongs (vals.map (storedOfValue signed)) (directWidth signed vals)
        (writeDirectHeader signed vals p)) := rfl

theorem holds_directHeader (signed : Bool) (vals : List Word) {p : WritePort} (hp : p.Counted)
    (hclean : PortClean p) :
    Holds (emitDirect signed vals p).out (Memory.size p.out) (directHeader signed vals) := by
  obtain ⟨body, _, hbytes, -, -⟩ := bytes_emitDirect signed vals hclean
  have hwf := ((emitted_emitDirect signed vals hclean).counted hp).out_wf
  exact (holds_append.mp (holds_of_bytes_append hwf hbytes)).1

/-- Without pending bits at the byte after the header, the unpacker delivers the stored values and
ends where the sink does. -/
theorem readLongs_emitDirect (signed : Bool) (vals : List Word) {p : WritePort} {c : Cursor}
    (hp : p.Counted) (hclean : PortClean p) (hbits : c.bitsLeft = 0)
    (hc : c.spos = Memory.size p.out + (directHeader signed vals).length) :
    ∃ c', readLongs (emitDirect signed vals p).out vals.length (directWidth signed vals) c =
        .ok (vals.map (storedOfValue signed), c') ∧
      c'.spos = Memory.size (emitDirect signed vals p).out := by
  have hhead := appended_writeDirectHeader signed vals p
  obtain ⟨hleft, hcur⟩ := (hclean.appended hhead).clean
  obtain ⟨hpos, hle⟩ := directWidth_range signed vals
  obtain ⟨-, hread⟩ := unpackerInvertsPacker (writeDirectHeader signed vals p)
    (vals.map (storedOfValue signed)) (directWidth signed vals) c (hhead.counted hp) hleft hcur
    hpos hle (fun _ => toNat_lt_directWidth) (hc.trans (size_of_bytes_append hhead.bytes_eq).symm)
    hbits
  rwa [List.length_map, ← emitDirect_eq] at hread

/-- Settles O51: the header decodes to the run's width and length, the unpacker inverts the packer
over the payload, and each lane's zig-zag is undone. -/
theorem directRoundTrip : Obligations.DirectRoundTrip := by
  unfold Obligations.DirectRoundTrip
  intro cfg vals p d hpos hle hp hleft hcur hspos
  have hclean : PortClean p := ⟨hleft, hcur⟩
  have hh := holds_directHeader cfg.signed vals hp hclean
  rw [← hspos] at hh
  obtain ⟨c', hread, hend⟩ := readLongs_emitDirect cfg.signed vals
    (c := (resetRun d.cur).advance (directHeader cfg.signed vals).length) hp hclean rfl
    (congrArg (· + _) hspos)
  refine ⟨_, (fetchRun_of_holds hh (decodeHeader_directHeader cfg.signed hpos hle)).trans
    (decodeDirect_of_readLongs cfg hread), ?_⟩
  rw [map_valueOfStored_storedOfValue]
  exact ⟨rfl, rfl, rfl, List.take_left, hend⟩

end Sys2Proof.Proofs.DirectRun
end

section
/-! The Patched Base run (`44_patched_base.md`): its decoder in closed form over a body in the
stream, its two ways to `MalformedHeader`, and what `CFG.SIGNED` does not reach. -/

namespace Sys2Proof.Proofs.PatchedBaseRun

open Sys2Proof.Machine Sys2Proof.Laws Sys2Proof.Proofs.EngineState

/-! ### The run forms on a ready half (rules R162, R276) -/

/-- A ready half settles the materialised run. -/
theorem exec_run_of_ready {s : State} (r : Run) (hf : s.dec.fault = false) :
    exec r.toInstr s = .next (settleDecoder s (materialise s.cfg s.input r s.dec)) :=
  (exec_run r s).trans (whenDecoderReady_of_ready hf _)

/-- A run that cannot be materialised raises its error and moves nothing else. -/
theorem raisesOnly_of_materialise {s : State} {r : Run} {k : ErrorKind} (hf : s.dec.fault = false)
    (h : materialise s.cfg s.input r s.dec = .error k) : RaisesOnly k.code r.toInstr s := by
  refine ⟨_, exec_run_of_ready r hf, ?_, onlyDecoderMoves_settleDecoder s _,
    settleDecoder_out s _⟩
  rw [h]
  exact ⟨rfl, rfl, rfl⟩

/-! ### The header check (rule R202) -/

theorem decodePatchedBase_of_wide {deltaWidth length baseWidth patchWidth gapWidth listLength : Nat}
    (cfg : Settings) (inp : Memory) (d : Decoder) (h : 64 < gapWidth + patchWidth) :
    decodePatchedBase cfg inp deltaWidth length baseWidth patchWidth gapWidth listLength d =
      .error .malformedHeader := by
  rw [decodePatchedBase, if_pos h]

/-- The widths of the table stop at 56 before 64. -/
theorem isTableWidth_eq_64 {w : Nat} (h : isTableWidth w = true) (hw : 56 < w) : w = 64 := by
  rcases isTableWidth_cases h with h | h <;> omega

/-- Settles O18: the check stands before the body is read, and the widest gap leaves only a patch
width above 56. -/
theorem patchedBaseWidthCheck : Obligations.PatchedBaseWidthCheck := by
  unfold Obligations.PatchedBaseWidthCheck
  intro s deltaWidth length baseWidth patchWidth gapWidth listLength hf hwide
  exact ⟨raisesOnly_of_materialise
      (r := .pb deltaWidth length baseWidth patchWidth gapWidth listLength) hf
      (decodePatchedBase_of_wide _ _ _ hwide),
    fun htable hgap => isTableWidth_eq_64 htable (by omega)⟩

/-! ### The body (rules R203 to R207) -/

/-- The base in closed form (rules R95, R204). -/
theorem readBase_holds {inp : Memory} {c : Cursor} {bytes : List Byte}
    (h : Holds inp c.spos bytes) :
    readBase inp bytes.length c =
      .ok (baseOfRaw bytes.length (BitVec.ofNat 64 (bytesToNat bytes)),
        c.advance bytes.length) := by
  have hraw : readLongBE inp bytes.length c =
      .ok (BitVec.ofNat 64 (bytesToNat bytes), c.advance bytes.length) := readLongBEFrom_holds 0 h
  rw [readBase, hraw, except_bind_ok]

theorem cursorAfter_bitsLeft_le {c : Cursor} (bytes : List Byte) (n w : Nat)
    (hc : c.bitsLeft ≤ 8) : (cursorAfter c bytes n w).bitsLeft ≤ 8 := by
  unfold cursorAfter
  split <;> dsimp only <;> omega

/-- The padding of `P_PB_SECTION_ALIGN` (rule R205) drops the pending bits. -/
theorem align_bitsLeft_le {c : Cursor} (align : Bool) (hc : c.bitsLeft ≤ 8) :
    (if align then resetRun c else c).bitsLeft ≤ 8 := by
  cases align with
  | false => exact hc
  | true => exact Nat.zero_le 8

section
variable {cfg : Settings} {inp : Memory} {c c' : Cursor}
  {deltaWidth length baseWidth patchWidth gapWidth listLength : Nat} {base : Word}
  {deltas entries : List Word}

/-- A complete body is what the three reads of a Patched Base run take, in order (rule R93). -/
theorem body_reads (hbits : c.bitsLeft ≤ 8)
    (hbody : PatchedBaseBody cfg inp c deltaWidth length baseWidth patchWidth gapWidth listLength
      base deltas entries c') :
    ∃ c₁ c₂, readBase inp baseWidth c = .ok (base, c₁) ∧
      readLongs inp length deltaWidth c₁ = .ok (deltas, c₂) ∧
      readLongs inp listLength (entryWidth cfg.patchEntryWidth gapWidth patchWidth)
        (if cfg.sectionAlign then resetRun c₂ else c₂) = .ok (entries, c') := by
  obtain ⟨baseBytes, deltaBytes, entryBytes, c₁, c₂, c₃, rfl, hbase, rfl, rfl, hdeltaLen, hdelta,
    rfl, rfl, rfl, hentryLen, hentry, rfl, rfl⟩ := hbody
  have haligned := align_bitsLeft_le cfg.sectionAlign
    (cursorAfter_bitsLeft_le (c := c.advance baseBytes.length) deltaBytes length deltaWidth hbits)
  exact ⟨_, _, readBase_holds hbase, readLongs_holds hdelta hbits hdeltaLen,
    readLongs_holds hentry haligned hentryLen⟩

theorem body_lengths (hbits : c.bitsLeft ≤ 8)
    (hbody : PatchedBaseBody cfg inp c deltaWidth length baseWidth patchWidth gapWidth listLength
      base deltas entries c') : deltas.length = length ∧ entries.length = listLength := by
  obtain ⟨_, _, -, hdeltas, hentries⟩ := body_reads hbits hbody
  exact ⟨(readLongs_ok hdeltas).1, (readLongs_ok hentries).1⟩

/-- Over a complete body the run is its patch walk over the deltas, and then the addition of the
base to each (rules R209, R212). -/
theorem decodePatchedBase_of_body {d : Decoder} (hbits : d.cur.bitsLeft ≤ 8)
    (hwidths : gapWidth + patchWidth ≤ 64)
    (hbody : PatchedBaseBody cfg inp d.cur deltaWidth length baseWidth patchWidth gapWidth
      listLength base deltas entries c') :
    decodePatchedBase cfg inp deltaWidth length baseWidth patchWidth gapWidth listLength d =
      (applyPatches cfg.gapSentinel deltaWidth patchWidth gapWidth entries deltas >>= fun scratch =>
        .ok (enterRun 2 (scratch.map fun delta => base + delta)
          { d with
            cur := c', w := deltaWidth, bw := baseWidth, pw := patchWidth, pgw := gapWidth
            pll := listLength, base := base
            patchEntries := overwrite entries (List.replicate 31 0) })) := by
  obtain ⟨c₁, c₂, hbase, hdeltas, hentries⟩ := body_reads hbits hbody
  rw [decodePatchedBase, if_neg (by omega)]
  simp only [hbase, hdeltas, hentries, except_bind_ok]

/-- A legal patch list completes the run (rules R209, R210). -/
theorem decodePatchedBase_of_legal {d : Decoder} (hbits : d.cur.bitsLeft ≤ 8)
    (hwidths : gapWidth + patchWidth ≤ 64)
    (hbody : PatchedBaseBody cfg inp d.cur deltaWidth length baseWidth patchWidth gapWidth
      listLength base deltas entries c')
    (hlegal : PatchesLegal cfg.gapSentinel patchWidth gapWidth entries length) :
    decodePatchedBase cfg inp deltaWidth length baseWidth patchWidth gapWidth listLength d =
      .ok (enterRun 2 ((List.range length).map fun i =>
          base + patchedDelta cfg.gapSentinel deltaWidth patchWidth gapWidth entries deltas i)
        { d with
          cur := c', w := deltaWidth, bw := baseWidth, pw := patchWidth, pgw := gapWidth
          pll := listLength, base := base
          patchEntries := entries ++ List.replicate (31 - listLength) 0 }) := by
  obtain ⟨hdeltas, hentries⟩ := body_lengths hbits hbody
  rw [decodePatchedBase_of_body hbits hwidths hbody, applyPatches_closed, hdeltas, if_pos hlegal,
    except_bind_ok, List.map_map, overwrite, hentries, List.drop_replicate]
  rfl

/-- Any other patch list is malformed, wide headers included (rules R202, R209, R210). -/
theorem decodePatchedBase_of_illegal {d : Decoder} (hbits : d.cur.bitsLeft ≤ 8)
    (hbody : PatchedBaseBody cfg inp d.cur deltaWidth length baseWidth patchWidth gapWidth
      listLength base deltas entries c')
    (hillegal : ¬ PatchesLegal cfg.gapSentinel patchWidth gapWidth entries length) :
    decodePatchedBase cfg inp deltaWidth length baseWidth patchWidth gapWidth listLength d =
      .error .malformedHeader := by
  rcases Nat.lt_or_ge 64 (gapWidth + patchWidth) with hwide | hwidths
  · exact decodePatchedBase_of_wide cfg inp d hwide
  · rw [decodePatchedBase_of_body hbits hwidths hbody, applyPatches_closed,
      (body_lengths hbits hbody).1, if_neg hillegal, except_bind_error]

end

/-- Settles O17: the closed form of the decoder gives the values and the registers, and entering the
run gives the rest. -/
theorem patchedBaseCompletes : Obligations.PatchedBaseCompletes := by
  unfold Obligations.PatchedBaseCompletes
  intro s deltaWidth length baseWidth patchWidth gapWidth listLength base deltas entries cur hf
    hbits _ _ _ _ _ _ _ _ _ hwidths hbody hlegal
  have hexec := exec_run_of_ready
    (.pb deltaWidth length baseWidth patchWidth gapWidth listLength) hf
  refine ⟨freeWords .runBuffer s.dec.freeCount length (512 - length), freeWords_length ..,
    hexec.trans ?_⟩
  rw [materialise, decodePatchedBase_of_legal hbits hwidths hbody hlegal, settleDecoder, enterRun,
    List.length_map, List.length_range]

/-- Settles O19: the walk over a complete body whose patch list is not legal ends in the error. -/
theorem patchedBaseListCheck : Obligations.PatchedBaseListCheck := by
  unfold Obligations.PatchedBaseListCheck
  intro s deltaWidth length baseWidth patchWidth gapWidth listLength base deltas entries cur hf
    hbits hbody hillegal
  exact raisesOnly_of_materialise
    (r := .pb deltaWidth length baseWidth patchWidth gapWidth listLength) hf
    (decodePatchedBase_of_illegal hbits hbody hillegal)

/-! ### What `CFG.SIGNED` does not reach (rules R201, R222, R295) -/

/-- A Patched Base run spells its base and its deltas without zig-zag (rules R99, R201). -/
theorem decodePatchedBase_withSigned (cfg : Settings) (inp : Memory) (signed : Bool)
    (deltaWidth length baseWidth patchWidth gapWidth listLength : Nat) (d : Decoder) :
    decodePatchedBase { cfg with signed := signed } inp deltaWidth length baseWidth patchWidth
        gapWidth listLength d =
      decodePatchedBase cfg inp deltaWidth length baseWidth patchWidth gapWidth listLength d := rfl

/-- Under the default spelling the base of a Delta run is signed whatever the stream is. -/
theorem readDeltaBase_withSigned {cfg : Settings} (inp : Memory) (signed : Bool) (c : Cursor)
    (h : cfg.deltaBase = .signed) :
    readDeltaBase { cfg with signed := signed } inp c = readDeltaBase cfg inp c := by
  simp only [readDeltaBase, h]

theorem decodeDelta_withSigned {cfg : Settings} (inp : Memory) (signed : Bool)
    (deltaWidth length : Nat) (d : Decoder) (h : cfg.deltaBase = .signed) :
    decodeDelta { cfg with signed := signed } inp deltaWidth length d =
      decodeDelta cfg inp deltaWidth length d := by
  rw [decodeDelta, decodeDelta, readDeltaBase_withSigned inp signed d.cur h]

theorem settleDecoder_withCfg (s : State) (cfg : Settings) (r : Except ErrorKind Decoder) :
    settleDecoder { s with cfg := cfg } r = { settleDecoder s r with cfg := cfg } := by
  cases r <;> rfl

/-- Two configurations that materialise a run alike give it the same next state but for
themselves: a faulted half only answers its latched code. -/
theorem exec_run_withCfg {s : State} {r : Run} {cfg : Settings}
    (h : materialise cfg s.input r s.dec = materialise s.cfg s.input r s.dec) :
    ∃ t, exec r.toInstr s = .next t ∧
      exec r.toInstr { s with cfg := cfg } = .next { t with cfg := cfg } := by
  have hu := exec_run r { s with cfg := cfg }
  dsimp only at hu
  rw [h, settleDecoder_withCfg s cfg] at hu
  cases hf : s.dec.fault with
  | true =>
    exact ⟨_, (exec_run r s).trans (whenDecoderReady_of_fault hf _),
      hu.trans (whenDecoderReady_of_fault (s := { s with cfg := cfg }) hf _)⟩
  | false =>
    exact ⟨_, exec_run_of_ready r hf,
      hu.trans (whenDecoderReady_of_ready (s := { s with cfg := cfg }) hf _)⟩

/-- Settles O25: neither decoder reads `CFG.SIGNED`, so the two decoder halves are equal. -/
theorem signednessDoesNotReachPatchedBaseOrDelta :
    Obligations.SignednessDoesNotReachPatchedBaseOrDelta := by
  unfold Obligations.SignednessDoesNotReachPatchedBaseOrDelta
  refine fun s signed => ⟨fun a b c d e f => ?_, fun hbase a b => ?_⟩
  · obtain ⟨t, ht, hu⟩ := exec_run_withCfg (s := s) (r := .pb a b c d e f)
      (decodePatchedBase_withSigned s.cfg s.input signed a b c d e f s.dec)
    exact ⟨t, _, ht, hu, decoder_agrees_refl _, rfl⟩
  · obtain ⟨t, ht, hu⟩ := exec_run_withCfg (s := s) (r := .delta a b)
      (decodeDelta_withSigned s.input signed a b s.dec hbase)
    exact ⟨t, _, ht, hu, decoder_agrees_refl _, rfl⟩

end Sys2Proof.Proofs.PatchedBaseRun
end

section
/-! What a Delta run (`45_delta.md`) is made of: the two varints at the head of its body, and the
values its steps lead to, with the closed form of a constant stride. -/

namespace Sys2Proof.Proofs.DeltaValues

open Sys2Proof.Machine Sys2Proof.Laws

/-- The head of a Delta body stands in `inp` at cursor `c`: the varints of the base, which
`P_DELTA_BASE` spells (R222), and of `firstDelta` (R97). -/
structure DeltaHead (cfg : Settings) (inp : Memory) (c : Cursor) (baseBytes firstBytes : List Byte)
    (base fd : Word) : Prop where
  base_isVarint : IsVarint baseBytes
  first_isVarint : IsVarint firstBytes
  held : Holds inp c.spos (baseBytes ++ firstBytes)
  base_eq : base = if cfg.deltaBase = .byStream ∧ cfg.signed = false
    then BitVec.ofNat 64 (varintNat baseBytes)
    else zigzagDecode (BitVec.ofNat 64 (varintNat baseBytes))
  fd_eq : fd = zigzagDecode (BitVec.ofNat 64 (varintNat firstBytes))

/-! ### The values (rules R221, R224, R225) -/

theorem runningSums_getD_zero (v : Word) (steps : List Word) :
    (runningSums v steps).getD 0 0 = v := by
  cases steps <;> rfl

/-- Each value is the one before it moved on by its step. -/
theorem runningSums_getD_succ (v : Word) {steps : List Word} {k : Nat} (hk : k < steps.length) :
    (runningSums v steps).getD (k + 1) 0 = (runningSums v steps).getD k 0 + steps.getD k 0 := by
  induction steps generalizing v k with
  | nil => exact absurd hk (Nat.not_lt_zero k)
  | cons step rest ih =>
    cases k with
    | zero => exact runningSums_getD_zero (v + step) rest
    | succ k => exact ih (v + step) (Nat.lt_of_succ_lt_succ hk)

theorem deltaSteps_stride (length : Nat) (fd : Word) (mags : List Word) :
    deltaSteps 0 length fd mags = List.replicate (length - 1) fd := by
  unfold deltaSteps
  split
  · rw [Nat.sub_eq_zero_of_le ‹_›, List.replicate_zero]
  · rfl

/-- The first step is `firstDelta`, and so is each step of a constant stride; a later step of
another run is the next magnitude with the sign of `firstDelta`. -/
theorem deltaSteps_getD {deltaWidth length k : Nat} (fd : Word) {mags : List Word}
    (hmags : mags.length = magnitudeCount deltaWidth length) (hk : k + 1 < length) :
    (deltaSteps deltaWidth length fd mags).getD k 0 =
      if k = 0 ∨ deltaWidth = 0 then fd else signedStep fd (mags.getD (k - 1) 0) := by
  by_cases hw : deltaWidth = 0
  · subst hw
    rw [deltaSteps_stride, if_pos (.inr rfl), List.getD_replicate _ (by omega)]
  · rw [magnitudeCount, if_neg hw] at hmags
    rw [deltaSteps, if_neg (by omega), if_neg hw]
    cases k with
    | zero => rw [if_pos (.inl rfl), List.getD_cons_zero]
    | succ k =>
      have hlt : k < mags.length := by omega
      rw [if_neg (by omega), List.getD_cons_succ, Nat.add_sub_cancel]
      simp [hlt]

/-- Equal steps make an arithmetic progression modulo 2^64. -/
theorem runningSums_replicate_getElem? (v fd : Word) {n k : Nat} (hk : k ≤ n) :
    (runningSums v (List.replicate n fd))[k]? = some (v + BitVec.ofNat 64 k * fd) := by
  induction n generalizing v k with
  | zero =>
    obtain rfl := Nat.le_zero.mp hk
    simp [runningSums]
  | succ n ih =>
    rw [List.replicate_succ, runningSums]
    cases k with
    | zero => simp
    | succ k =>
      have hmul : BitVec.ofNat 64 (k + 1) * fd = fd + BitVec.ofNat 64 k * fd := by
        rw [BitVec.ofNat_add, BitVec.add_mul, BitVec.one_mul, BitVec.add_comm]
      rw [List.getElem?_cons_succ, ih (v + fd) (Nat.le_of_succ_le_succ hk), hmul,
        BitVec.add_assoc]

end Sys2Proof.Proofs.DeltaValues
end

section
/-! The Delta run (`45_delta.md`): its decoder in closed form over a body in the stream. -/

namespace Sys2Proof.Proofs.DeltaRun

open Sys2Proof.Machine Sys2Proof.Laws Sys2Proof.Proofs.DeltaValues Sys2Proof.Proofs.BitPrimitives
  Sys2Proof.Proofs.PatchedBaseRun

/-! ### The two varints (rules R97, R222) -/

theorem readVslong_holds {inp : Memory} {c : Cursor} {bytes : List Byte}
    (hwf : Memory.wf inp = true) (h : Holds inp c.spos bytes) (hv : IsVarint bytes) :
    readVslong inp c =
      .ok (zigzagDecode (BitVec.ofNat 64 (varintNat bytes)), c.advance bytes.length) :=
  readVslong_ok.mpr ⟨_, readVulong_holds hwf h hv, rfl⟩

/-- Only an unsigned stream under the by-stream spelling stores the base without zig-zag. -/
theorem readDeltaBase_eq (cfg : Settings) (inp : Memory) (c : Cursor) :
    readDeltaBase cfg inp c =
      if cfg.deltaBase = .byStream ∧ cfg.signed = false then readVulong inp c
      else readVslong inp c := by
  unfold readDeltaBase
  cases cfg.deltaBase with
  | signed => simp
  | byStream => cases cfg.signed <;> simp

theorem readDeltaBase_holds {inp : Memory} {c : Cursor} {bytes : List Byte} (cfg : Settings)
    (hwf : Memory.wf inp = true) (h : Holds inp c.spos bytes) (hv : IsVarint bytes) :
    readDeltaBase cfg inp c =
      .ok (if cfg.deltaBase = .byStream ∧ cfg.signed = false
          then BitVec.ofNat 64 (varintNat bytes)
          else zigzagDecode (BitVec.ofNat 64 (varintNat bytes)), c.advance bytes.length) := by
  rw [readDeltaBase_eq, readVulong_holds hwf h hv, readVslong_holds hwf h hv]
  split <;> rfl

/-- The head is what the first two reads of a Delta run take, in order. -/
theorem reads_of_deltaHead {cfg : Settings} {inp : Memory} {c : Cursor}
    {baseBytes firstBytes : List Byte} {base fd : Word} (hwf : Memory.wf inp = true)
    (h : DeltaHead cfg inp c baseBytes firstBytes base fd) :
    ∃ c₁, readDeltaBase cfg inp c = .ok (base, c₁) ∧
      readVslong inp c₁ = .ok (fd, c.advance (baseBytes.length + firstBytes.length)) := by
  obtain ⟨hbaseHeld, hfirstHeld⟩ := holds_append.mp h.held
  refine ⟨c.advance baseBytes.length, ?_, ?_⟩
  · rw [h.base_eq]
    exact readDeltaBase_holds cfg hwf hbaseHeld h.base_isVarint
  · rw [h.fd_eq, ← advance_advance]
    exact readVslong_holds hwf hfirstHeld h.first_isVarint

/-! ### The decoder (rule R221) -/

/-- On a ready half, with the magnitudes read behind the head, the run is entered with the running
sums. -/
theorem exec_delta_of_head {s : State} {deltaWidth length : Nat}
    {baseBytes firstBytes : List Byte} {base fd : Word} {mags : List Word} {c : Cursor}
    (hwf : Memory.wf s.input = true) (hf : s.dec.fault = false)
    (hhead : DeltaHead s.cfg s.input s.dec.cur baseBytes firstBytes base fd)
    (hmags : readLongs s.input (magnitudeCount deltaWidth length) deltaWidth
      (s.dec.cur.advance (baseBytes.length + firstBytes.length)) = .ok (mags, c)) :
    exec (.delta deltaWidth length) s = .next { s with
      dec := enterRun 3 (runningSums base (deltaSteps deltaWidth length fd mags))
        { s.dec with
          cur := c, w := deltaWidth, base := base, fd := fd
          deltaScratch := overwrite mags s.dec.deltaScratch } } := by
  obtain ⟨c₁, hbase, hfirst⟩ := reads_of_deltaHead hwf hhead
  refine (exec_run_of_ready (.delta deltaWidth length) hf).trans ?_
  rw [materialise, decodeDelta]
  simp only [hbase, hfirst, hmags, except_bind_ok]
  rfl

/-! ### The obligations -/

/-- Settles O20: the closed forms of the three reads give the registers and the cursor, and the
running sums over the steps give the recurrence of the values. -/
theorem deltaCompletes : Obligations.DeltaCompletes := by
  unfold Obligations.DeltaCompletes
  intro s deltaWidth length baseBytes firstBytes magBytes base fd mags cur hwf hf hbits _ hpos _
    hbaseVarint hfirstVarint hh hcur hmagLen hbase hfd hmags
  obtain ⟨hvarints, hmagHeld⟩ := holds_append.mp hh
  have hspos : s.dec.cur.spos + (baseBytes ++ firstBytes).length = cur.spos := by
    rw [hcur, advance_spos, List.length_append]
  rw [hspos] at hmagHeld
  have hhead : DeltaHead s.cfg s.input s.dec.cur baseBytes firstBytes base fd :=
    ⟨hbaseVarint, hfirstVarint, hvarints, hbase, hfd⟩
  have hcurBits : cur.bitsLeft ≤ 8 := hcur ▸ hbits
  have hread := readLongs_holds hmagHeld hcurBits hmagLen
  rw [← hmags, hcur] at hread
  have hcount : mags.length = magnitudeCount deltaWidth length := (readLongs_ok hread).1
  have hsteps : (deltaSteps deltaWidth length fd mags).length = length - 1 :=
    deltaSteps_length hcount hpos
  have hvals : (runningSums base (deltaSteps deltaWidth length fd mags)).length = length := by
    rw [runningSums_length, hsteps, Nat.sub_add_cancel hpos]
  refine ⟨runningSums base (deltaSteps deltaWidth length fd mags),
    freeWords .runBuffer s.dec.freeCount length (512 - length), hvals, freeWords_length ..,
    runningSums_getD_zero .., fun k hk => ?_, ?_⟩
  · rw [runningSums_getD_succ base (by omega), deltaSteps_getD fd hcount hk, signedStep]
  · rw [exec_delta_of_head hwf hf hhead hread, enterRun, hvals, hcur]
    rfl

/-- Settles O21: the steps of width 0 all equal `firstDelta`, so the running sums, which stand at
the head of the run buffer, are an arithmetic progression. -/
theorem constantStride : Obligations.ConstantStride := by
  unfold Obligations.ConstantStride
  intro s length baseBytes firstBytes base fd hwf hf hpos _ hbaseVarint hfirstVarint hh hbase hfd
  have hexec := exec_delta_of_head (deltaWidth := 0) (length := length) (mags := []) hwf hf
    ⟨hbaseVarint, hfirstVarint, hh, hbase, hfd⟩ rfl
  rw [deltaSteps_stride] at hexec
  have hvals : (runningSums base (List.replicate (length - 1) fd)).length = length := by
    rw [runningSums_length, List.length_replicate, Nat.sub_add_cancel hpos]
  refine ⟨_, hexec, hf, hvals, fun k hk => ?_⟩
  rw [enterRun_runBuffer, List.getElem?_append_left (hvals.symm ▸ hk)]
  exact runningSums_replicate_getElem? base fd (Nat.le_sub_one_of_lt hk)

end Sys2Proof.Proofs.DeltaRun
end

section
/-! The seek and skip controller (`46_seek_skip.md`): `SKIP` as the slot steps of `NEXT` without the
slots, and `SEEK` as a reposition followed by a skip. -/

namespace Sys2Proof.Proofs.SeekSkip

open Sys2Proof.Machine Sys2Proof.Laws Sys2Proof.Proofs.EngineState Sys2Proof.Proofs.MemoryFrame
  Sys2Proof.Proofs.RunDispatcher

/-! ### Slot steps in two portions (rules R165, R237) -/

theorem slotStep_fault {cfg : Settings} {inp : Memory} {d e : Decoder} {v : Word}
    (h : slotStep cfg inp d = .ok (v, e)) : e.fault = d.fault := by
  obtain ⟨e, he, -, rfl⟩ := slotStep_ok.mp h
  cases hstate : d.dstate with
  | awaitingHeader =>
    rw [ensureRun, hstate] at he
    exact (fetchRun_entered he).fault_eq
  | inRun =>
    rw [ensureRun, hstate] at he
    cases he
    rfl

theorem nextValues_fault {cfg : Settings} {inp : Memory} {n : Nat} {d e : Decoder}
    {vs : List Word} (h : nextValues cfg inp n d = .ok (vs, e)) : e.fault = d.fault := by
  induction n generalizing d vs with
  | zero =>
    cases h
    rfl
  | succ n ih =>
    obtain ⟨⟨v, d₁⟩, hstep, h⟩ := except_bind_eq_ok.mp h
    obtain ⟨⟨vs', d₂⟩, hrest, h⟩ := except_bind_eq_ok.mp h
    cases h
    exact (ih hrest).trans (slotStep_fault hstep)

/-- A walk over `k + m` positions passes through the decoder a walk over the first `k` leaves. -/
theorem nextValues_add_ok {cfg : Settings} {inp : Memory} {k m : Nat} {d e : Decoder}
    {vs : List Word} (h : nextValues cfg inp (k + m) d = .ok (vs, e)) :
    ∃ xs ys d₁, nextValues cfg inp k d = .ok (xs, d₁) ∧
      nextValues cfg inp m d₁ = .ok (ys, e) ∧ vs = xs ++ ys := by
  induction k generalizing d vs with
  | zero => exact ⟨[], vs, d, rfl, by rwa [Nat.zero_add] at h, rfl⟩
  | succ k ih =>
    rw [Nat.succ_add] at h
    obtain ⟨⟨v, d'⟩, hstep, h⟩ := except_bind_eq_ok.mp h
    obtain ⟨⟨vs', e'⟩, hrest, h⟩ := except_bind_eq_ok.mp h
    cases h
    obtain ⟨xs, ys, d₁, hfirst, hsecond, rfl⟩ := ih hrest
    exact ⟨v :: xs, ys, d₁, by rw [nextValues_succ_ok k hstep, hfirst]; rfl, hsecond, rfl⟩

/-! ### Status 0 is a walk without error (rules R104, R276) -/

theorem settleSkip_ok_of_status {s : State} {r : Except ErrorKind Decoder}
    (h : (settleSkip s r).response.status = 0) :
    ∃ d, r = .ok d ∧ settleSkip s r = respond 0 { s with dec := d } := by
  rcases settleSkip_cases s r with hok | ⟨k, -, hs⟩
  · exact hok
  · rw [hs] at h
    exact absurd h (errorCode_ne_zero k)

theorem exec_next_ok_of_status {s t : State} {n : BitVec 32} (hf : s.dec.fault = false)
    (hn : n.toNat ≤ s.out.length) (h : exec (.next n false) s = .next t)
    (hstatus : t.response.status = 0) :
    ∃ vs d, nextValues s.cfg s.input n.toNat s.dec = .ok (vs, d) ∧
      t = respond 0 { s with dec := d, out := vs ++ s.out.drop n.toNat } := by
  obtain rfl := Host.Outcome.next.inj ((exec_next_unmasked hf hn).symm.trans h)
  cases hv : nextValues s.cfg s.input n.toNat s.dec with
  | error k =>
    rw [hv] at hstatus
    exact absurd hstatus (errorCode_ne_zero k)
  | ok p => exact ⟨p.1, p.2, rfl, rfl⟩

/-! ### `SKIP` and `NEXT` (rules R236, R237) -/

/-- `SKIP` takes the slot steps of an unmasked `NEXT` and settles them in the same way, but for the
slots. -/
theorem exec_skip_next {s : State} {k : BitVec 32} (hk : k.toNat ≤ s.out.length) :
    ∃ t u, exec (.skip k) s = .next t ∧ exec (.next k false) s = .next u ∧
      t.dec = u.dec ∧ t.response = u.response := by
  cases hf : s.dec.fault with
  | true =>
    obtain ⟨hnext, hskip, -⟩ := decoderFaultSticks s hf
    exact ⟨_, _, hskip k, hnext k false, rfl, rfl⟩
  | false =>
    refine ⟨_, _, exec_skip_of_ready k hf, exec_next_unmasked hf hk, ?_⟩
    cases nextValues s.cfg s.input k.toNat s.dec with
    | error e => exact ⟨rfl, rfl⟩
    | ok p => exact ⟨rfl, rfl⟩

/-- On a ready half, `SKIP k` then `NEXT m` walk the positions of a `NEXT k + m` that meets no
error, and hand out its last `m` values. -/
theorem exec_skip_then_next {s t : State} {k m : BitVec 32} (hf : s.dec.fault = false)
    (hsum : (k + m).toNat = k.toNat + m.toNat) (hout : k.toNat + m.toNat ≤ s.out.length)
    (h : exec (.next (k + m) false) s = .next t) (hstatus : t.response.status = 0) :
    ∃ u v, exec (.skip k) s = .next u ∧
      exec (.next m false) { u with out := s.out.drop k.toNat } = .next v ∧
      v.dec = t.dec ∧ v.response.status = 0 ∧
      ∀ i, i < m.toNat → v.out[i]? = t.out[k.toNat + i]? := by
  obtain ⟨vs, d, hvs, rfl⟩ := exec_next_ok_of_status hf (hsum.trans_le hout) h hstatus
  rw [hsum] at hvs
  obtain ⟨xs, ys, d₁, hxs, hys, rfl⟩ := nextValues_add_ok hvs
  have hskip := exec_skip_of_ready k hf
  rw [hxs] at hskip
  have hroom : m.toNat ≤ (s.out.drop k.toNat).length := by
    rw [List.length_drop]
    omega
  have hnext := exec_next_unmasked (n := m)
    (s := { respond 0 { s with dec := d₁ } with out := s.out.drop k.toNat })
    ((nextValues_fault hxs).trans hf) hroom
  simp only [respond_cfg, respond_input, respond_dec, hys] at hnext
  refine ⟨_, _, hskip, hnext, rfl, rfl, fun i hi => ?_⟩
  have hxlen := length_nextValues hxs
  have hylen := length_nextValues hys
  calc (ys ++ (s.out.drop k.toNat).drop m.toNat)[i]?
      = ys[i]? := List.getElem?_append_left (by omega)
    _ = (xs ++ (ys ++ s.out.drop (k + m).toNat))[k.toNat + i]? := by
        rw [← hxlen, List.getElem?_append_right (by omega), Nat.add_sub_cancel_left,
          List.getElem?_append_left (by omega)]
    _ = (xs ++ ys ++ s.out.drop (k + m).toNat)[k.toNat + i]? := by rw [List.append_assoc]

/-- Settles O31. A faulted half answers all three commands alike and touches no slot. -/
theorem skipIsNextWithoutWrites : Obligations.SkipIsNextWithoutWrites := by
  unfold Obligations.SkipIsNextWithoutWrites
  constructor
  · intro s k hk
    obtain ⟨t, u, ht, hu, hdec, hresponse⟩ := exec_skip_next hk
    exact ⟨t, u, ht, hu, hdec ▸ decoder_agrees_refl _, hresponse, (exec_skip_frame ht).2⟩
  · intro s t k m hlt hout ht hstatus
    cases hf : s.dec.fault with
    | true =>
      obtain ⟨hnext, hskip, -⟩ := decoderFaultSticks s hf
      obtain rfl := Host.Outcome.next.inj ((hnext _ _).symm.trans ht)
      have hnext := (decoderFaultSticks { respond s.dec.err s with out := s.out.drop k.toNat } hf).1
      exact ⟨_, _, hskip k, hnext m false, decoder_agrees_refl _, hstatus,
        fun _ _ => List.getElem?_drop⟩
    | false =>
      have hsum : (k + m).toNat = k.toNat + m.toNat := by
        rw [BitVec.toNat_add, Nat.mod_eq_of_lt hlt]
      obtain ⟨u, v, hu, hv, hdec, hrest⟩ := exec_skip_then_next hf hsum hout ht hstatus
      exact ⟨u, v, hu, hv, hdec ▸ decoder_agrees_refl _, hrest⟩

/-! ### `SKIP` inside the run in progress (rules R165, R236) -/

theorem skipSlots_succ_ok {cfg : Settings} {inp : Memory} {d e : Decoder} {v : Word}
    (n : Nat) (h : slotStep cfg inp d = .ok (v, e)) :
    skipSlots cfg inp (n + 1) d = skipSlots cfg inp n e := by
  rw [skipSlots, h]; rfl

/-- A skip that the run in progress covers reads no value, so it asks nothing of the run buffer. -/
theorem skipSlots_withinRun {cfg : Settings} {inp : Memory} {n : Nat} {d : Decoder}
    (hd : WithinRun d) (hn : d.runConsumed + n ≤ d.runLength) :
    skipSlots cfg inp n d = .ok (consumePositions n d) := by
  induction n generalizing d with
  | zero => rw [hd.consumePositions_zero]; rfl
  | succ n ih =>
    have hlt : d.runConsumed < d.runLength := by omega
    have hrun := hd.inRun hlt.ne
    rw [skipSlots_succ_ok n (slotStep_inRun cfg inp hrun),
      ih (withinRun_consumePosition hrun hlt)
        (by simp only [consumePosition_runConsumed, consumePosition_runLength]; omega),
      consumePositions_consumePosition]

/-- Settles O32: every slot step of the skip stays in the run. -/
theorem skipInsideARun : Obligations.SkipInsideARun := by
  unfold Obligations.SkipInsideARun
  intro s k hf hrun hlt hk
  rw [exec_skip_of_ready k hf, ← skipSlots_eq, skipSlots_withinRun (.of_inRun hrun hlt) hk]
  rfl

/-! ### `SEEK` (rules R240, R242, R243) -/

theorem exec_seek_of_ready {s : State} (p0 p1 p2 p3 : Word) (hf : s.dec.fault = false) :
    exec (.seek p0 p1 p2 p3) s =
      .next (settleSkip s (seekTo s.cfg s.input p0 p1 p3 s.dec)) :=
  whenDecoderReady_of_ready hf _

theorem seekTo_of_located {cfg : Settings} {inp : Memory} {p0 p1 : Word} {pos : Nat}
    (p3 : Word) (d : Decoder) (hloc : streamLocate cfg.locate p0 p1 = some pos)
    (hpos : pos ≤ Memory.size inp) :
    seekTo cfg inp p0 p1 p3 d = skipSlots cfg inp p3.toNat (repositioned pos d) := by
  rw [seekTo, hloc]
  exact if_neg hpos.not_gt

/-- A seek that answers was located inside the input or at its end. -/
theorem located_of_seekTo_ok {cfg : Settings} {inp : Memory} {p0 p1 p3 : Word} {d e : Decoder}
    (h : seekTo cfg inp p0 p1 p3 d = .ok e) :
    ∃ pos, streamLocate cfg.locate p0 p1 = some pos ∧ pos ≤ Memory.size inp := by
  unfold seekTo at h
  split at h
  · cases h
  · next pos hloc =>
    split at h
    · cases h
    · next hpos => exact ⟨pos, hloc, not_lt.mp hpos⟩

/-- Settles O33: no slot step follows the repositioning. -/
theorem seekCompletes : Obligations.SeekCompletes := by
  unfold Obligations.SeekCompletes
  intro s p0 p1 p2 pos hf hloc hpos
  rw [exec_seek_of_ready p0 p1 p2 0 hf, seekTo_of_located 0 s.dec hloc hpos]
  rfl

/-- A skip settled over the repositioned half or over the half before it: they differ only in what a
fault leaves unspecified. -/
theorem settleSkip_repositioned_agrees (s : State) (pos : Nat) (r : Except ErrorKind Decoder) :
    let u := settleSkip s r
    let v := settleSkip (respond 0 { s with dec := repositioned pos s.dec }) r
    u.dec.Agrees v.dec ∧ u.response = v.response ∧ u.out = v.out := by
  cases r with
  | ok d => exact ⟨decoder_agrees_refl _, rfl, rfl⟩
  | error k => exact ⟨⟨rfl, rfl, nofun, nofun, nofun⟩, rfl, rfl⟩

/-- Settles O34: the seek without a count leaves the repositioned half, from which the slot steps of
the seek with a count and those of the skip are the same. -/
theorem seekSkipsTheCount : Obligations.SeekSkipsTheCount := by
  unfold Obligations.SeekSkipsTheCount
  intro s t p0 p1 p2 p3 hf hlt ht hstatus
  obtain rfl := Host.Outcome.next.inj ((exec_seek_of_ready p0 p1 p2 0 hf).symm.trans ht)
  obtain ⟨d, hd, hsettled⟩ := settleSkip_ok_of_status hstatus
  obtain ⟨pos, hloc, hpos⟩ := located_of_seekTo_ok hd
  obtain rfl : repositioned pos s.dec = d :=
    Except.ok.inj ((seekTo_of_located 0 s.dec hloc hpos).symm.trans hd)
  have hseek := exec_seek_of_ready p0 p1 p2 p3 hf
  rw [seekTo_of_located p3 s.dec hloc hpos] at hseek
  have hcount : (p3.setWidth 32).toNat = p3.toNat := by
    rw [BitVec.toNat_setWidth, Nat.mod_eq_of_lt hlt]
  have hskip := exec_skip_of_ready (p3.setWidth 32)
    (s := respond 0 { s with dec := repositioned pos s.dec }) hf
  rw [← skipSlots_eq, hcount] at hskip
  rw [hsettled]
  obtain ⟨hdec, hresponse, hout⟩ := settleSkip_repositioned_agrees s pos _
  exact ⟨_, _, hseek, hskip, hdec, hresponse, hout, (exec_seek_frame hseek).1⟩

/-- Settles O36: the walk takes no third integer, so both sides are one term. -/
theorem seekIgnoresTheBitCount : Obligations.SeekIgnoresTheBitCount := by
  unfold Obligations.SeekIgnoresTheBitCount
  intro s p0 p1 p2 p2' p3
  rfl

end Sys2Proof.Proofs.SeekSkip
end

section
/-! The sink's capacity (`47_encoder_control.md` rule R258): `RESET` tests it for zero, and nothing
else in the machine reads it. -/

namespace Sys2Proof.Proofs.SinkCapacity

open Sys2Proof.Machine Sys2Proof.Laws Sys2Proof.Proofs.EngineState

/-! ### The decoder's walks do not read the capacity -/

theorem materialise_withCapacity (cfg : Settings) (capacity : Nat) (inp : Memory) (r : Run)
    (d : Decoder) :
    materialise { cfg with sinkCapacity := capacity } inp r d = materialise cfg inp r d := by
  cases r <;> rfl

theorem fetchRun_withCapacity (cfg : Settings) (capacity : Nat) (inp : Memory) (d : Decoder) :
    fetchRun { cfg with sinkCapacity := capacity } inp d = fetchRun cfg inp d := by
  simp only [fetchRun, materialise_withCapacity]

theorem slotStep_withCapacity (cfg : Settings) (capacity : Nat) (inp : Memory) (d : Decoder) :
    slotStep { cfg with sinkCapacity := capacity } inp d = slotStep cfg inp d := by
  simp only [slotStep, ensureRun, fetchRun_withCapacity]

theorem skipSlots_withCapacity (cfg : Settings) (capacity : Nat) (inp : Memory) (k : Nat)
    (d : Decoder) :
    skipSlots { cfg with sinkCapacity := capacity } inp k d = skipSlots cfg inp k d := by
  induction k generalizing d with
  | zero => rfl
  | succ k ih => simp only [skipSlots, slotStep_withCapacity, ih]

theorem fillSlots_withCapacity (cfg : Settings) (capacity : Nat) (inp : Memory)
    (present : List Bool) (out : List Word) (d : Decoder) :
    fillSlots { cfg with sinkCapacity := capacity } inp present out d =
      fillSlots cfg inp present out d := by
  induction present generalizing out d with
  | nil => rfl
  | cons p ps ih =>
    cases out with
    | nil => rfl
    | cons slot rest => simp only [fillSlots, slotStep_withCapacity, ih]

theorem seekTo_withCapacity (cfg : Settings) (capacity : Nat) (inp : Memory) (p0 p1 p3 : Word)
    (d : Decoder) :
    seekTo { cfg with sinkCapacity := capacity } inp p0 p1 p3 d =
      seekTo cfg inp p0 p1 p3 d := by
  simp only [seekTo, skipSlots_withCapacity]

/-! ### Outcomes under another capacity -/

/-- The same state, made with a sink of another capacity. -/
def withCapacity (capacity : Nat) (s : State) : State :=
  { s with cfg := { s.cfg with sinkCapacity := capacity } }

/-- Two outcomes that are one but for the capacity in the next state. -/
inductive OutcomesAlike (capacity : Nat) :
    Host.Outcome State Fault Refusal → Host.Outcome State Fault Refusal → Prop
  | next (t : State) : OutcomesAlike capacity (.next t) (.next (withCapacity capacity t))
  | refused (r : Refusal) : OutcomesAlike capacity (.refused r) (.refused r)

theorem OutcomesAlike.of_eq {capacity : Nat} {t u : State} (h : u = withCapacity capacity t) :
    OutcomesAlike capacity (.next t) (.next u) :=
  h ▸ .next t

theorem OutcomesAlike.next_eq {capacity : Nat} {t : State}
    {o o' : Host.Outcome State Fault Refusal} (h : OutcomesAlike capacity o o')
    (ho : o = .next t) : o' = .next (withCapacity capacity t) := by
  cases h with
  | next u => rw [Host.Outcome.next.inj ho]
  | refused r => cases ho

theorem OutcomesAlike.refused_eq {capacity : Nat} {r : Refusal}
    {o o' : Host.Outcome State Fault Refusal} (h : OutcomesAlike capacity o o')
    (ho : o = .refused r) : o' = .refused r := by
  cases h with
  | next u => cases ho
  | refused r' => exact ho

theorem settleDecoder_withCapacity (capacity : Nat) (s : State) (r : Except ErrorKind Decoder) :
    settleDecoder (withCapacity capacity s) r = withCapacity capacity (settleDecoder s r) := by
  cases r <;> rfl

theorem settleSkip_withCapacity (capacity : Nat) (s : State) (r : Except ErrorKind Decoder) :
    settleSkip (withCapacity capacity s) r = withCapacity capacity (settleSkip s r) := by
  cases r <;> rfl

theorem settleSlots_withCapacity (capacity n : Nat) (s : State)
    (r : Except ErrorKind (List Word × Decoder)) :
    settleSlots n (withCapacity capacity s) r = withCapacity capacity (settleSlots n s r) := by
  cases r <;> rfl

/-- The decoder gate reads no configuration. -/
theorem whenDecoderReady_alike {capacity : Nat} {s : State}
    {body body' : Host.Outcome State Fault Refusal} (h : OutcomesAlike capacity body body') :
    OutcomesAlike capacity (whenDecoderReady s body)
      (whenDecoderReady (withCapacity capacity s) body') := by
  cases hf : s.dec.fault with
  | true =>
    rw [whenDecoderReady_of_fault hf,
      whenDecoderReady_of_fault (s := withCapacity capacity s) hf]
    exact .next _
  | false =>
    rwa [whenDecoderReady_of_ready hf,
      whenDecoderReady_of_ready (s := withCapacity capacity s) hf]

/-- Neither does the encoder gate. -/
theorem whenEncoderReady_alike {capacity : Nat} {s : State}
    {body body' : Host.Outcome State Fault Refusal} (h : OutcomesAlike capacity body body') :
    OutcomesAlike capacity (whenEncoderReady s body)
      (whenEncoderReady (withCapacity capacity s) body') := by
  cases hf : s.enc.fault with
  | true =>
    rw [whenEncoderReady_of_fault hf,
      whenEncoderReady_of_fault (s := withCapacity capacity s) hf]
    exact .next _
  | false =>
    rwa [whenEncoderReady_of_ready hf,
      whenEncoderReady_of_ready (s := withCapacity capacity s) hf]

/-- Neither does the check of the caller's buffers. -/
theorem outcomesAlike_ite {capacity : Nat} {covered : Bool} {t u : State} (r : Refusal)
    (h : u = withCapacity capacity t) :
    OutcomesAlike capacity (if covered then .next t else .refused r)
      (if covered then .next u else .refused r) := by
  cases covered with
  | true => exact .of_eq h
  | false => exact .refused r

/-! ### The instructions (rule R258) -/

theorem exec_run_alike (capacity : Nat) (r : Run) (s : State) :
    OutcomesAlike capacity (exec r.toInstr s) (exec r.toInstr (withCapacity capacity s)) := by
  rw [exec_run, exec_run]
  refine whenDecoderReady_alike (.of_eq ?_)
  exact (congrArg _ (materialise_withCapacity ..)).trans (settleDecoder_withCapacity ..)

theorem exec_next_alike (capacity : Nat) (n : BitVec 32) (masked : Bool) (s : State) :
    OutcomesAlike capacity (exec (.next n masked) s)
      (exec (.next n masked) (withCapacity capacity s)) := by
  refine whenDecoderReady_alike (outcomesAlike_ite _ ?_)
  exact (congrArg _ (fillSlots_withCapacity ..)).trans (settleSlots_withCapacity ..)

theorem exec_skip_alike (capacity : Nat) (k : BitVec 32) (s : State) :
    OutcomesAlike capacity (exec (.skip k) s) (exec (.skip k) (withCapacity capacity s)) := by
  refine whenDecoderReady_alike (.of_eq ?_)
  exact (congrArg _ (skipSlots_withCapacity ..)).trans (settleSkip_withCapacity ..)

theorem exec_seek_alike (capacity : Nat) (p0 p1 p2 p3 : Word) (s : State) :
    OutcomesAlike capacity (exec (.seek p0 p1 p2 p3) s)
      (exec (.seek p0 p1 p2 p3) (withCapacity capacity s)) := by
  refine whenDecoderReady_alike (.of_eq ?_)
  exact (congrArg _ (seekTo_withCapacity ..)).trans (settleSkip_withCapacity ..)

theorem exec_add_alike (capacity : Nat) (count : BitVec 32) (masked : Bool) (s : State) :
    OutcomesAlike capacity (exec (.add count masked) s)
      (exec (.add count masked) (withCapacity capacity s)) :=
  whenEncoderReady_alike (outcomesAlike_ite _ rfl)

theorem exec_flush_alike (capacity : Nat) (s : State) :
    OutcomesAlike capacity (exec .flush s) (exec .flush (withCapacity capacity s)) :=
  whenEncoderReady_alike (.of_eq rfl)

/-- `RESET` asks only whether there is a sink. -/
theorem exec_reset_alike {capacity : Nat} {s : State} (signed : Bool)
    (h : capacity = 0 ↔ s.cfg.sinkCapacity = 0) :
    OutcomesAlike capacity (exec (.reset signed) s)
      (exec (.reset signed) (withCapacity capacity s)) :=
  .of_eq (by simp [withCapacity, restartEngine, Encoder.restart, h])

/-- No instruction tells apart two capacities that are both zero or both not. -/
theorem exec_alike {capacity : Nat} {s : State} (i : Instr)
    (h : capacity = 0 ↔ s.cfg.sinkCapacity = 0) :
    OutcomesAlike capacity (exec i s) (exec i (withCapacity capacity s)) := by
  cases i with
  | sr bw rc => exact exec_run_alike capacity (.sr bw rc) s
  | direct w l => exact exec_run_alike capacity (.direct w l) s
  | pb w l bw pw pgw pll => exact exec_run_alike capacity (.pb w l bw pw pgw pll) s
  | delta w l => exact exec_run_alike capacity (.delta w l) s
  | reset signed => exact exec_reset_alike signed h
  | next n masked => exact exec_next_alike capacity n masked s
  | skip k => exact exec_skip_alike capacity k s
  | seek p0 p1 p2 p3 => exact exec_seek_alike capacity p0 p1 p2 p3 s
  | add count masked => exact exec_add_alike capacity count masked s
  | flush => exact exec_flush_alike capacity s

/-- Settles O43: without a sink the restarted encoder half is faulted at once, and any two non-zero
capacities give one outcome but for themselves. -/
theorem resetWithoutASink : Obligations.ResetWithoutASink := by
  unfold Obligations.ResetWithoutASink
  refine ⟨fun s signed hcap => ?_, fun s i capacity capacity' hcap hcap' => ?_⟩
  · refine ⟨_, exec_reset signed s, decide_eq_true hcap, if_pos hcap, ?_, rfl, rfl, rfl, rfl⟩
    rw [restartEngine_response, if_pos hcap]
    rfl
  · have halike := exec_alike (capacity := capacity') (s := withCapacity capacity s) i
      (iff_of_false hcap' hcap)
    refine ⟨fun t ht => ?_, fun r hr => halike.refused_eq hr⟩
    exact ⟨_, halike.next_eq ht, decoder_agrees_refl _, encoder_agrees_refl _, rfl,
      fun _ => rfl, rfl, rfl, rfl, rfl, rfl, rfl, rfl⟩

end Sys2Proof.Proofs.SinkCapacity
end

section
/-! The bytes of emitted runs, read back: what a sequence of whole runs spells to the slot steps of
the decoder, wherever it stands in the input, and that the two run writers of the encoder spell the
values they are given (`41_run_dispatcher.md`, `42_short_repeat.md`, `43_direct.md`). -/

namespace Sys2Proof.Proofs.SpelledRuns

open Sys2Proof.Machine Sys2Proof.Laws Sys2Proof.Proofs.Encoding Sys2Proof.Proofs.BitPrimitives
  Sys2Proof.Proofs.RunDispatcher Sys2Proof.Proofs.DirectRun

/-! ### Whole runs and the values they spell -/

/-- The bytes are one run: wherever they stand in the input, the run fetch there delivers the values
and ends right after them. -/
def SpellsRun (signed : Bool) (bytes : List Byte) (vs : List Word) : Prop :=
  ∀ (cfg : Settings) (inp : Memory) (d : Decoder),
    cfg.signed = signed → Holds inp d.cur.spos bytes →
      ∃ d', fetchRun cfg inp d = .ok d' ∧ d'.runLength = vs.length ∧
        d'.runBuffer.take vs.length = vs ∧ d'.cur.spos = d.cur.spos + bytes.length

/-- The bytes are whole runs: wherever they stand in the input, slot steps from there hand out the
values, and the last one ends a run right after the bytes. -/
def Spells (signed : Bool) (bytes : List Byte) (vs : List Word) : Prop :=
  ∀ (cfg : Settings) (inp : Memory) (d : Decoder),
    cfg.signed = signed → d.dstate = .awaitingHeader → Holds inp d.cur.spos bytes →
      ∃ d', nextValues cfg inp vs.length d = .ok (vs, d') ∧ d'.dstate = .awaitingHeader ∧
        d'.cur.spos = d.cur.spos + bytes.length

theorem spells_nil (signed : Bool) : Spells signed [] [] :=
  fun _ _ d _ hwait _ => ⟨d, rfl, hwait, rfl⟩

/-- Two walks, the second from where the first ends, are one. -/
theorem nextValues_append {cfg : Settings} {inp : Memory} {m : Nat} {d d₁ d₂ : Decoder}
    {xs ys : List Word} (hxs : nextValues cfg inp xs.length d = .ok (xs, d₁))
    (hys : nextValues cfg inp m d₁ = .ok (ys, d₂)) :
    nextValues cfg inp (xs.length + m) d = .ok (xs ++ ys, d₂) := by
  induction xs generalizing d with
  | nil =>
    cases hxs
    simpa using hys
  | cons x xs ih =>
    obtain ⟨⟨v, e⟩, hstep, hrest⟩ := except_bind_eq_ok.mp hxs
    obtain ⟨⟨vs, e'⟩, hrest, heq⟩ := except_bind_eq_ok.mp hrest
    cases heq
    rw [List.length_cons, Nat.succ_add, nextValues_succ_ok _ hstep, ih hrest]
    rfl

theorem Spells.append {signed : Bool} {bs cs : List Byte} {xs ys : List Word}
    (hxs : Spells signed bs xs) (hys : Spells signed cs ys) :
    Spells signed (bs ++ cs) (xs ++ ys) := by
  intro cfg inp d hsigned hwait hh
  obtain ⟨hbs, hcs⟩ := holds_append.mp hh
  obtain ⟨d₁, hfirst, hwait₁, hspos₁⟩ := hxs cfg inp d hsigned hwait hbs
  obtain ⟨d₂, hsecond, hwait₂, hspos₂⟩ := hys cfg inp d₁ hsigned hwait₁ (hspos₁ ▸ hcs)
  refine ⟨d₂, ?_, hwait₂, ?_⟩
  · rw [List.length_append]
    exact nextValues_append hfirst hsecond
  · rw [hspos₂, hspos₁, List.length_append, Nat.add_assoc]

/-- The slot steps fetch the run and take each of its positions. -/
theorem SpellsRun.spells {signed : Bool} {bytes : List Byte} {vs : List Word}
    (h : SpellsRun signed bytes vs) (hpos : 0 < vs.length) : Spells signed bytes vs := by
  intro cfg inp d hsigned hwait hh
  obtain ⟨d', hfetch, hlength, hbuffer, hspos⟩ := h cfg inp d hsigned hh
  have hentered := fetchRun_entered hfetch
  have hconsumed := hentered.runConsumed_eq
  have hcovered : d'.runLength ≤ d'.runBuffer.length := by
    have := congrArg List.length hbuffer
    rw [List.length_take] at this
    omega
  refine ⟨consumePositions vs.length d', ?_, ?_, hspos⟩
  · rw [nextValues_of_fetchRun hwait hpos hfetch,
      nextValues_withinRun (.of_inRun hentered.dstate_eq (by omega)) (by omega) hcovered,
      hconsumed, List.drop_zero, hbuffer]
  · rw [consumePositions, hconsumed, Nat.zero_add, hlength, if_pos rfl]

/-! ### Short Repeat (rules R182, R186) -/

theorem storedBytes_range (z : Word) : 1 ≤ storedBytes z ∧ storedBytes z ≤ 8 := by
  have := bitLength_le z
  rw [storedBytes]
  omega

theorem toNat_lt_storedBytes (z : Word) : z.toNat < 2 ^ (8 * storedBytes z) := by
  refine (toNat_lt_bitLength z).trans_le (Nat.pow_le_pow_right Nat.two_pos ?_)
  rw [storedBytes]
  omega

theorem readLongBE_holds_beBytes {inp : Memory} {c : Cursor} {v : Word} {n : Nat}
    (hh : Holds inp c.spos (beBytes v n)) (hv : v.toNat < 2 ^ (8 * n)) :
    readLongBE inp n c = .ok (v, c.advance n) := by
  have hread := readLongBEFrom_holds 0 hh
  rwa [← bytesToNat, bytesToNat_beBytes v n hv, ofNat_toNat_word, beBytes_length] at hread

theorem decodeShortRepeat_of_readLongBE {inp : Memory} {byteWidth : Nat} {d : Decoder} {raw : Word}
    {c : Cursor} (cfg : Settings) (repeatCount : Nat)
    (h : readLongBE inp byteWidth d.cur = .ok (raw, c)) :
    decodeShortRepeat cfg inp byteWidth repeatCount d =
      .ok (enterRun 0 (List.replicate repeatCount (valueOfStored cfg.signed raw))
        { d with cur := c, bw := byteWidth }) := by
  rw [decodeShortRepeat, h, except_bind_ok]

/-- The header decodes to the run's byte width and count, and the zig-zag of the value is undone. -/
theorem spellsRun_srBytes (signed : Bool) (v : Word) {n : Nat} (hlo : 3 ≤ n) (hhi : n ≤ 10) :
    SpellsRun signed (srBytes signed v n) (List.replicate n v) := by
  intro cfg inp d hsigned hh
  obtain ⟨hheader, hbody⟩ := holds_append.mp hh
  obtain ⟨hpos, hle⟩ := storedBytes_range (storedOfValue signed v)
  have hwf : (Instr.sr (storedBytes (storedOfValue signed v)) n).wellFormed = true := by
    simp [Instr.wellFormed, hpos, hle, hlo, hhi]
  have hdec := decodeHeader_encodeHeader_sr [] hwf
  rw [List.append_nil] at hdec
  have hread := readLongBE_holds_beBytes
    (c := (resetRun d.cur).advance
      (encodeHeader (.sr (storedBytes (storedOfValue signed v)) n)).length)
    hbody (toNat_lt_storedBytes _)
  refine ⟨_, (fetchRun_of_holds hheader hdec).trans
    (decodeShortRepeat_of_readLongBE cfg n hread), ?_⟩
  rw [hsigned, valueOfStored_storedOfValue]
  refine ⟨rfl, List.take_left, ?_⟩
  simp [srBytes]

/-! ### Direct (rules R192, R196) -/

/-- The header of a Direct run and then bytes whose bits are the packed stored values, less than a
byte of padding after them. -/
theorem spellsRun_direct (signed : Bool) {vals : List Word} {body : List Byte} {pad : Nat}
    (hpos : 1 ≤ vals.length) (hle : vals.length ≤ 512)
    (hbody : bitsOf body = ((vals.map (storedOfValue signed)).flatMap fun v =>
      bitsOfWord v (directWidth signed vals)) ++ List.replicate pad false) (hpad : pad < 8) :
    SpellsRun signed (directHeader signed vals ++ body) vals := by
  intro cfg inp d hsigned hh
  obtain ⟨hheader, hpayload⟩ := holds_append.mp hh
  have hlen : body.length = fetchCount 0 vals.length (directWidth signed vals) := by
    have := congrArg List.length hbody
    rw [bitsOf_length, List.length_append, length_flatMap_bitsOfWord, List.length_replicate,
      List.length_map] at this
    rw [fetchCount]
    omega
  have hread := readLongs_holds (n := vals.length) (w := directWidth signed vals)
    (c := (resetRun d.cur).advance (directHeader signed vals).length) hpayload (Nat.zero_le 8) hlen
  have hfields := fieldsOf_flatMap_bitsOfWord (vs := vals.map (storedOfValue signed))
    (fun _ => toNat_lt_directWidth) (List.replicate pad false)
  rw [List.length_map] at hfields
  rw [pendingBits_of_none rfl, List.nil_append, hbody, hfields] at hread
  refine ⟨_, (fetchRun_of_holds hheader (decodeHeader_directHeader signed hpos hle)).trans
    (decodeDirect_of_readLongs cfg hread), ?_⟩
  rw [hsigned, map_valueOfStored_storedOfValue]
  refine ⟨rfl, List.take_left, ?_⟩
  simp [cursorAfter, Nat.add_assoc]

/-! ### Runs written to the sink (rules R186, R196, R254) -/

/-- Whole runs have been appended to the sink, and they spell the values. -/
structure Wrote (signed : Bool) (p p' : WritePort) (vs : List Word) : Prop where
  emitted : Emitted p p'
  spelled : ∃ bytes, Memory.bytes p'.out = Memory.bytes p.out ++ bytes ∧ Spells signed bytes vs

theorem wrote_nil (signed : Bool) {p : WritePort} (h : PortClean p) : Wrote signed p p [] :=
  ⟨⟨id, h⟩, [], (List.append_nil _).symm, spells_nil signed⟩

theorem Wrote.append {signed : Bool} {p₁ p₂ p₃ : WritePort} {xs ys : List Word}
    (hxs : Wrote signed p₁ p₂ xs) (hys : Wrote signed p₂ p₃ ys) :
    Wrote signed p₁ p₃ (xs ++ ys) := by
  obtain ⟨bs, hbs, hbs'⟩ := hxs.spelled
  obtain ⟨cs, hcs, hcs'⟩ := hys.spelled
  exact ⟨hxs.emitted.trans hys.emitted, bs ++ cs, by rw [hcs, hbs, List.append_assoc],
    hbs'.append hcs'⟩

theorem wrote_emitShortRepeat (signed : Bool) (v : Word) {n : Nat} {p : WritePort}
    (hclean : PortClean p) (hlo : 3 ≤ n) (hhi : n ≤ 10) :
    Wrote signed p (emitShortRepeat signed v n p) (List.replicate n v) :=
  ⟨emitted_emitShortRepeat signed v n hclean, _, (appended_emitShortRepeat signed v n p).bytes_eq,
    (spellsRun_srBytes signed v hlo hhi).spells (by rw [List.length_replicate]; omega)⟩

theorem wrote_emitDirect (signed : Bool) {vals : List Word} {p : WritePort} (hclean : PortClean p)
    (hpos : 1 ≤ vals.length) (hle : vals.length ≤ 512) :
    Wrote signed p (emitDirect signed vals p) vals := by
  obtain ⟨body, pad, hbytes, hbody, hpad⟩ := bytes_emitDirect signed vals hclean
  exact ⟨emitted_emitDirect signed vals hclean, _, hbytes,
    (spellsRun_direct signed hpos hle hbody hpad).spells hpos⟩

/-- The run selection writes every literal, in order: each turn takes the literals of the run it
emits off the front (rules R253, R254). -/
theorem wrote_emitLiterals (signed : Bool) {fuel : Nat} {lits : List Word} {p : WritePort}
    (hclean : PortClean p) (hfuel : lits.length ≤ fuel) (hle : lits.length ≤ 512) :
    Wrote signed p (emitLiterals signed fuel lits p) lits := by
  induction fuel generalizing lits p with
  | zero =>
    obtain rfl := List.length_eq_zero_iff.mp (Nat.le_zero.mp hfuel)
    exact wrote_nil signed hclean
  | succ fuel ih =>
    cases lits with
    | nil => exact wrote_nil signed hclean
    | cons v rest =>
      have hturn : ∀ {k : Nat} {q : WritePort}, 1 ≤ k →
          Wrote signed p q ((v :: rest).take k) →
          Wrote signed p (emitLiterals signed fuel ((v :: rest).drop k) q) (v :: rest) := by
        intro k q hk hrun
        have hdrop : ((v :: rest).drop k).length = (v :: rest).length - k := List.length_drop
        have hrest := ih hrun.emitted.clean (lits := (v :: rest).drop k) (by omega) (by omega)
        simpa only [List.take_append_drop] using hrun.append hrest
      unfold emitLiterals
      dsimp only
      split
      · next h3 =>
        obtain ⟨hpos, h10, -⟩ := identRun_cons v rest
        exact hturn hpos (take_identRun v rest ▸ wrote_emitShortRepeat signed v hclean h3 h10)
      · next h3 =>
        have hspan := directSpan_pos h3
        have hlen := List.length_take_of_le (directSpan_le (v :: rest))
        have hbound := directSpan_le (v :: rest)
        exact hturn hspan (wrote_emitDirect signed hclean (by omega) (by omega))

end Sys2Proof.Proofs.SpelledRuns
end

section
/-! Encoder control (`47_encoder_control.md`): the fault gate, what `ADD` leaves in the literal
window with and without a mask, what `FLUSH` leaves in the sink, and the round trip through the
decoder. -/

namespace Sys2Proof.Proofs.EncoderControl

open Sys2Proof.Machine Sys2Proof.Laws Sys2Proof.Proofs.EngineState Sys2Proof.Proofs.MemoryFrame
  Sys2Proof.Proofs.BitPrimitives Sys2Proof.Proofs.RunDispatcher Sys2Proof.Proofs.SpelledRuns

/-! ### The encoder commands, faulted and ready (rules R251, R256, R259) -/

/-- Settles O38: both commands stand behind the gate of the faulted half. -/
theorem encoderFaultSticks : Obligations.EncoderFaultSticks := by
  unfold Obligations.EncoderFaultSticks
  intro s hf
  exact ⟨fun _ _ => whenEncoderReady_of_fault hf _, whenEncoderReady_of_fault hf _⟩

theorem exec_add_of_fault {s : State} {count : BitVec 32} {masked : Bool}
    (hf : s.enc.fault = true) : exec (.add count masked) s = .next (respond s.enc.err s) :=
  (encoderFaultSticks s hf).1 count masked

theorem exec_add_of_ready {s : State} {count : BitVec 32} {masked : Bool}
    (hf : s.enc.fault = false) (hb : buffersCover masked s.mask s.values count.toNat = true) :
    exec (.add count masked) s = .next (respond 0 { s with
      enc := pushLiterals s.cfg.signed (addedLiterals masked count.toNat s) s.enc }) :=
  (whenEncoderReady_of_ready hf _).trans (if_pos hb)

theorem exec_flush_of_ready {s : State} (hf : s.enc.fault = false) :
    exec .flush s = .next (respondTotal (flushWindow s.cfg.signed s.enc).port.bytesWritten
      (sinkFlush { s with enc := flushWindow s.cfg.signed s.enc })) :=
  whenEncoderReady_of_ready hf _

/-! ### The literals of an `ADD` (rules R251, R252) -/

theorem literalsOf_present (maskConsumes : Bool) {n : Nat} {vs : List Word} (h : vs.length ≤ n) :
    literalsOf maskConsumes (List.replicate n true) vs = vs := by
  induction vs generalizing n with
  | nil => cases n <;> rfl
  | cons v vs ih =>
    obtain ⟨n, rfl⟩ := Nat.exists_eq_add_of_lt (Nat.zero_lt_of_lt h)
    simpa [List.replicate_succ, literalsOf] using ih (by simpa using h)

theorem addedLiterals_unmasked (n : Nat) (s : State) :
    addedLiterals false n s = s.values.take n :=
  literalsOf_present _ (List.length_take_le n _)

/-- An unmasked `ADD` pushes the values it counts. -/
theorem exec_add_unmasked {s : State} {count : BitVec 32} (hf : s.enc.fault = false)
    (hn : count.toNat ≤ s.values.length) :
    exec (.add count false) s = .next (respond 0 { s with
      enc := pushLiterals s.cfg.signed (s.values.take count.toNat) s.enc }) := by
  rw [exec_add_of_ready hf (by simpa [buffersCover, maskCovers] using hn), addedLiterals_unmasked]

/-- Counting all the values at hand. -/
theorem toNat_ofNat_length {vs : List Word} (h : vs.length < 2 ^ 32) :
    (BitVec.ofNat 32 vs.length).toNat = vs.length := by
  rw [BitVec.toNat_ofNat, Nat.mod_eq_of_lt h]

theorem exec_add_all {s : State} {vs : List Word} (hf : s.enc.fault = false)
    (hlt : vs.length < 2 ^ 32) :
    exec (.add (BitVec.ofNat 32 vs.length) false) { s with values := vs } =
      .next (respond 0 { s with values := vs, enc := pushLiterals s.cfg.signed vs s.enc }) := by
  have hcount := toNat_ofNat_length hlt
  rw [exec_add_unmasked (s := { s with values := vs }) hf hcount.le, hcount]
  dsimp only
  rw [List.take_length]

/-- Under `P_MASK_CONSUMES` every slot gives one literal. -/
theorem literalsOf_consumes (ps : List Bool) (vs : List Word) :
    literalsOf true ps vs = (ps.zip vs).map fun q => if q.1 then q.2 else 0 := by
  induction ps generalizing vs with
  | nil => rfl
  | cons p ps ih =>
    cases vs with
    | nil => rfl
    | cons v vs => cases p <;> simp [literalsOf, ih]

/-- Otherwise the present slots give theirs. -/
theorem literalsOf_drops (ps : List Bool) (vs : List Word) :
    literalsOf false ps vs = ((ps.zip vs).filter Prod.fst).map Prod.snd := by
  induction ps generalizing vs with
  | nil => rfl
  | cons p ps ih =>
    cases vs with
    | nil => rfl
    | cons v vs => cases p <;> simp [literalsOf, ih]

/-- The first slots, each with its presence, by index. -/
theorem zip_take_eq_map_range {n : Nat} {mask : List Bool} {values : List Word}
    (hm : n ≤ mask.length) (hv : n ≤ values.length) :
    (mask.take n).zip (values.take n) =
      (List.range n).map fun i => (mask.getD i true, values.getD i 0) := by
  refine List.ext_getElem (by simp [hm, hv]) fun i hi _ => ?_
  have hlt : i < n := by simp at hi; omega
  simp [List.getElem?_eq_getElem (hlt.trans_le hm), List.getElem?_eq_getElem (hlt.trans_le hv)]

/-- The literals of a masked `ADD` slot by slot, as rule R252 says them. -/
theorem addedLiterals_masked {n : Nat} {s : State} (hm : n ≤ s.mask.length)
    (hv : n ≤ s.values.length) :
    addedLiterals true n s = if s.cfg.maskConsumes
      then (List.range n).map (fun i => if s.mask.getD i true then s.values.getD i 0 else 0)
      else ((List.range n).filter fun i => s.mask.getD i true).map
        (fun i => s.values.getD i 0) := by
  rw [addedLiterals, presentSlots, if_pos rfl]
  cases s.cfg.maskConsumes with
  | true => rw [literalsOf_consumes, zip_take_eq_map_range hm hv, List.map_map]; rfl
  | false =>
    rw [literalsOf_drops, zip_take_eq_map_range hm hv, List.filter_map, List.map_map]; rfl

theorem length_literalsOf_le (maskConsumes : Bool) (ps : List Bool) (vs : List Word) :
    (literalsOf maskConsumes ps vs).length ≤ vs.length := by
  cases maskConsumes with
  | true =>
    rw [literalsOf_consumes, List.length_map, List.length_zip]
    exact Nat.min_le_right _ _
  | false =>
    rw [literalsOf_drops, List.length_map]
    refine (List.length_filter_le _ _).trans ?_
    rw [List.length_zip]
    exact Nat.min_le_right _ _

/-- Settles O47: both commands push the same literals; a faulted half answers both alike. -/
theorem addMask : Obligations.AddMask := by
  unfold Obligations.AddMask
  intro s count lits hv hm hlits
  rw [← addedLiterals_masked hm hv] at hlits
  have hlt : lits.length < 2 ^ 32 := by
    have hle := length_literalsOf_le s.cfg.maskConsumes (presentSlots true s.mask count.toNat)
      (s.values.take count.toNat)
    rw [← addedLiterals, ← hlits, List.length_take_of_le hv] at hle
    exact hle.trans_lt count.isLt
  cases hf : s.enc.fault with
  | true =>
    exact ⟨_, _, exec_add_of_fault hf, exec_add_of_fault (s := { s with values := lits }) hf,
      encoder_agrees_refl _, rfl, rfl, rfl, rfl, rfl, rfl, rfl⟩
  | false =>
    refine ⟨_, _, exec_add_of_ready hf (by simp [buffersCover, maskCovers, hv, hm]),
      exec_add_all hf hlt, ?_, rfl, rfl, rfl, rfl, rfl, rfl, rfl⟩
    rw [← hlits]
    exact encoder_agrees_refl _

/-! ### The literal window (rules R251, R254) -/

/-- Settles O45: literals that leave room stand behind the buffered ones. -/
theorem addBuffers : Obligations.AddBuffers := by
  unfold Obligations.AddBuffers
  intro s count hf hn hbuf hroom
  have hlen := List.length_take_of_le hn
  rw [exec_add_unmasked hf hn, pushLiterals_of_room _ hbuf (by rwa [hlen]), hlen]
  rfl

/-- The full window's literals, the emission's fuel counted. -/
theorem emitWindow_full_port (signed : Bool) {e : Encoder} {lits : List Word}
    (hlen : lits.length = 512) :
    (emitWindow signed { e with litBuf := lits, litCount := 512 }).port =
      emitLiterals signed 512 lits e.port := by
  rw [emitWindow_port, windowLiterals]
  dsimp only
  rw [← hlen, List.take_length]

/-- Literals that just fill the window are emitted behind the buffered ones. -/
theorem pushLiterals_of_fill (signed : Bool) {vs : List Word} {e : Encoder}
    (hb : e.litBuf.length = 512) (hlt : e.litCount < 512) (h : e.litCount + vs.length = 512) :
    pushLiterals signed vs e = emitWindow signed { e with
      litBuf := e.litBuf.take e.litCount ++ vs
      litCount := 512 } := by
  obtain ⟨init, v, rfl⟩ : ∃ init v, vs = init ++ [v] :=
    (List.eq_nil_or_concat' vs).resolve_left (by rintro rfl; simp at h; omega)
  rw [List.length_append, List.length_singleton] at h
  have hlast : (e.litBuf.drop (e.litCount + init.length)).set 0 v = [v] := by
    have hone : (e.litBuf.drop (e.litCount + init.length)).length = 1 := by
      rw [List.length_drop]; omega
    obtain ⟨x, hx⟩ := List.length_eq_one_iff.mp hone
    rw [hx]; rfl
  have hfront : (e.litBuf.take e.litCount ++ init).length = e.litCount + init.length := by
    rw [List.length_append, List.length_take_of_le (by omega)]
  have hset : (e.litBuf.take e.litCount ++ init ++ e.litBuf.drop (e.litCount + init.length)).set
      (e.litCount + init.length) v = e.litBuf.take e.litCount ++ (init ++ [v]) := by
    rw [List.set_append_right _ _ hfront.le, hfront, Nat.sub_self, hlast, List.append_assoc]
  rw [pushLiterals_append, pushLiterals_of_room signed hb (by omega)]
  show pushLiteral signed _ v = _
  unfold pushLiteral
  dsimp only
  rw [if_pos (by omega), hset, show e.litCount + init.length + 1 = 512 by omega]

/-- Literals that go past the end of the window stand at the front of the emptied one. -/
theorem pushLiterals_of_overflow (signed : Bool) {xs ys : List Word} {e : Encoder}
    (hb : e.litBuf.length = 512) (hlt : e.litCount < 512) (hxs : e.litCount + xs.length = 512)
    (hys : ys.length < 512) :
    pushLiterals signed (xs ++ ys) e = { e with
      litBuf := ys ++ (freeWords .litBuf e.freeCount 0 512).drop ys.length
      litCount := ys.length
      port := emitLiterals signed 512 (e.litBuf.take e.litCount ++ xs) e.port
      freeCount := e.freeCount + 1 } := by
  have hfull : (e.litBuf.take e.litCount ++ xs).length = 512 := by
    rw [List.length_append, List.length_take_of_le (by omega), hxs]
  rw [pushLiterals_append, pushLiterals_of_fill signed hb hlt hxs,
    pushLiterals_of_room signed (by simp) (by simpa using hys), emitWindow_full_port signed hfull]
  simp

/-- Settles O46: the values up to the window's end fill it, and the others leave room in the
emptied one. -/
theorem addEmitsAFullWindow : Obligations.AddEmitsAFullWindow := by
  unfold Obligations.AddEmitsAFullWindow
  intro s count rest hf hn hbuf hlt hsum hrest
  set k := 512 - s.enc.litCount with hk
  have hle : k ≤ count.toNat := by omega
  have hxs : (s.values.take k).length = k := List.length_take_of_le (hle.trans hn)
  have hys : ((s.values.take count.toNat).drop k).length = rest := by
    rw [List.length_drop, List.length_take_of_le hn]; omega
  have hsplit : s.values.take count.toNat =
      s.values.take k ++ (s.values.take count.toNat).drop k := by
    conv_lhs => rw [← List.take_append_drop k (s.values.take count.toNat)]
    rw [List.take_take, Nat.min_eq_left hle]
  refine ⟨(freeWords .litBuf s.enc.freeCount 0 512).drop rest, by simp, ?_,
    fun _ _ hread => read?_of_prefix (prefix_emitLiterals _ _ _ _) hread⟩
  rw [exec_add_unmasked hf hn]
  conv_lhs => rw [hsplit]
  rw [pushLiterals_of_overflow _ hbuf hlt (by omega) (by omega), hys]
  rfl

/-! ### `ADD` in portions (rules R251, R252, R257) -/

/-- Buffers brought in two portions, each slot with its presence. -/
theorem literalsOf_presentSlots_append (maskConsumes masked : Bool) {xs ys : List Word}
    {ms ns : List Bool} (h : masked = true → ms.length = xs.length ∧ ns.length = ys.length) :
    literalsOf maskConsumes (presentSlots masked (ms ++ ns) (xs.length + ys.length)) (xs ++ ys) =
      literalsOf maskConsumes (presentSlots masked ms xs.length) xs ++
        literalsOf maskConsumes (presentSlots masked ns ys.length) ys := by
  cases masked with
  | false =>
    simp only [presentSlots, Bool.false_eq_true, if_false, List.replicate_add]
    exact literalsOf_append maskConsumes List.length_replicate
  | true =>
    obtain ⟨hm, hn⟩ := h rfl
    have htake : (ms ++ ns).take (xs.length + ys.length) = ms ++ ns := by
      rw [← hm, ← hn, ← List.length_append, List.take_length]
    simp only [presentSlots, if_true, htake]
    rw [← hm, ← hn, List.take_length, List.take_length]
    exact literalsOf_append maskConsumes hm

/-- `ADD` over buffers of exactly the counted length, on a ready half. -/
theorem exec_add_exact {s : State} {masked : Bool} {vs : List Word} {ms : List Bool}
    (hf : s.enc.fault = false) (hlt : vs.length < 2 ^ 32)
    (hm : masked = true → ms.length = vs.length) :
    exec (.add (BitVec.ofNat 32 vs.length) masked) { s with values := vs, mask := ms } =
      .next (respond 0 { s with
        values := vs
        mask := ms
        enc := pushLiterals s.cfg.signed
          (literalsOf s.cfg.maskConsumes (presentSlots masked ms vs.length) vs) s.enc }) := by
  have hcount := toNat_ofNat_length hlt
  have hcover : buffersCover masked ms vs (BitVec.ofNat 32 vs.length).toNat = true := by
    rw [hcount]
    cases masked with
    | false => simp [buffersCover, maskCovers]
    | true => simp [buffersCover, maskCovers, hm rfl]
  rw [exec_add_of_ready (s := { s with values := vs, mask := ms }) hf hcover, hcount,
    addedLiterals]
  dsimp only
  rw [List.take_length]

/-- Settles O60: the literals of both portions are those of the whole, and pushing them in two parts
is pushing them at once. -/
theorem addInAnySplit : Obligations.AddInAnySplit := by
  unfold Obligations.AddInAnySplit
  intro s masked xs ys ms ns hlt hlen
  cases hf : s.enc.fault with
  | true =>
    exact ⟨_, _, _, exec_add_of_fault (s := { s with values := xs, mask := ms }) hf,
      exec_add_of_fault hf,
      exec_add_of_fault (s := { s with values := xs ++ ys, mask := ms ++ ns }) hf,
      encoder_agrees_refl _, rfl⟩
  | false =>
    have hwhole := exec_add_exact (s := s) (masked := masked) (vs := xs ++ ys) (ms := ms ++ ns) hf
      (by rwa [List.length_append]) fun h => by simp [hlen h]
    rw [List.length_append, literalsOf_presentSlots_append _ _ hlen, pushLiterals_append] at hwhole
    exact ⟨_, _, _, exec_add_exact hf (by omega) fun h => (hlen h).1,
      exec_add_exact ((pushLiterals_fault _ _ _).1.trans hf) (by omega) fun h => (hlen h).2,
      hwhole, encoder_agrees_refl _, rfl⟩

/-! ### `FLUSH` (rules R254, R256) -/

theorem flushWindow_eq (signed : Bool) (e : Encoder) :
    flushWindow signed e = if e.litCount = 0 then e else { e with
      litBuf := freeWords .litBuf e.freeCount 0 512
      litCount := 0
      port := emitLiterals signed e.litCount (e.litBuf.take e.litCount) e.port
      freeCount := e.freeCount + 1 } := by
  rw [flushWindow]
  split_ifs
  · omega
  · rfl
  · rfl
  · omega

theorem emitted_flushWindow (signed : Bool) {e : Encoder} (h : PortClean e.port) :
    Emitted e.port (flushWindow signed e).port := by
  rw [flushWindow]
  split_ifs
  · exact emitted_emitLiterals signed _ _ h
  · exact ⟨id, h⟩

/-- An index below the end of the sink reads the same in any sink grown from it. -/
theorem read?_eq_of_prefix {m m' : Memory} (hwf : Memory.wf m = true) (h : m <+: m') {a : Nat}
    (ha : a < Memory.size m) : Memory.read? m' a = Memory.read? m a := by
  have hread : Memory.read? m a = some ((Memory.bytes m)[a]'(by simpa using ha)) := by
    rw [memory_read?_eq hwf, List.getElem?_eq_getElem]
  rw [hread, read?_of_prefix h hread]

/-- The counter of a counted sink moves by the bytes appended. -/
theorem bytesWritten_of_counted {p p' : WritePort} {bytes : List Byte} (hp : p.Counted)
    (hp' : p'.Counted) (hb : Memory.bytes p'.out = Memory.bytes p.out ++ bytes) :
    p'.bytesWritten = p.bytesWritten + BitVec.ofNat 64 bytes.length := by
  rw [hp.bytesWritten_eq, hp'.bytesWritten_eq, size_of_bytes_append hb, BitVec.ofNat_add]

/-- Settles O48: the emission appends to the sink, keeps it counted and leaves the cursor clean. -/
theorem flushCompletes : Obligations.FlushCompletes := by
  unfold Obligations.FlushCompletes
  intro s hf hcounted hleft hcur
  have hemitted := emitted_flushWindow s.cfg.signed (e := s.enc) ⟨hleft, hcur⟩
  have hprefix := prefix_flushWindow s.cfg.signed s.enc
  obtain ⟨bytes, hbytes⟩ := bytes_of_prefix hprefix
  exact ⟨bytes, freeWords .litBuf s.enc.freeCount 0 512, flushWindow s.cfg.signed s.enc,
    exec_flush_of_ready hf, freeWords_length .., flushWindow_eq _ _, hbytes,
    fun _ ha => read?_eq_of_prefix hcounted.out_wf hprefix ha,
    bytesWritten_of_counted hcounted (hemitted.counted hcounted) hbytes,
    hemitted.clean.wbitsLeft_eq, hemitted.clean.wcurByte_eq⟩

/-! ### The round trip (rule R257) -/

/-- Since the sink was `p`, the encoder half has been given the values: the first of them are
written, the others wait in the window. -/
structure Gathered (signed : Bool) (p : WritePort) (e : Encoder) (vs : List Word) : Prop where
  litBuf_length : e.litBuf.length = 512
  litCount_lt : e.litCount < 512
  written : ∃ ws, Wrote signed p e.port ws ∧ vs = ws ++ windowLiterals e

/-- One more literal waits in the window, or the window it fills is written. -/
theorem Gathered.pushLiteral {signed : Bool} {p : WritePort} {e : Encoder} {vs : List Word}
    (h : Gathered signed p e vs) (v : Word) :
    Gathered signed p (pushLiteral signed e v) (vs ++ [v]) := by
  obtain ⟨hb, hlt, ws, hws, rfl⟩ := h
  have htake : (e.litBuf.take e.litCount).length = e.litCount := List.length_take_of_le (by omega)
  rw [List.append_assoc, windowLiterals]
  show Gathered signed p (pushLiterals signed [v] e) _
  by_cases hroom : e.litCount + 1 < 512
  · rw [pushLiterals_of_room (vs := [v]) signed hb hroom]
    exact ⟨by simp; omega, hroom, ws, hws,
      congrArg (ws ++ ·) (List.take_left' (by simp [htake])).symm⟩
  · have hfill : e.litCount + [v].length = 512 := by simp; omega
    have hfull : (e.litBuf.take e.litCount ++ [v]).length = 512 := by
      rw [List.length_append, htake, hfill]
    rw [pushLiterals_of_fill signed hb hlt hfill]
    refine ⟨by simp, by simp, _, hws.append ?_, (List.append_nil _).symm⟩
    rw [emitWindow_full_port signed hfull]
    exact wrote_emitLiterals signed hws.emitted.clean hfull.le hfull.le

theorem Gathered.pushLiterals {signed : Bool} {p : WritePort} {e : Encoder} {vs : List Word}
    (h : Gathered signed p e vs) (added : List Word) :
    Gathered signed p (pushLiterals signed added e) (vs ++ added) := by
  induction added generalizing e vs with
  | nil => rwa [List.append_nil]
  | cons v added ih =>
    rw [List.append_cons]
    exact ih (h.pushLiteral v)

/-- A flush writes what still waits. -/
theorem Gathered.flushWindow {signed : Bool} {p : WritePort} {e : Encoder} {vs : List Word}
    (h : Gathered signed p e vs) : Wrote signed p (flushWindow signed e).port vs := by
  obtain ⟨hb, hlt, ws, hws, rfl⟩ := h
  have hlen : (windowLiterals e).length = e.litCount := List.length_take_of_le (by omega)
  rw [Machine.flushWindow]
  split
  · exact hws.append (wrote_emitLiterals signed hws.emitted.clean hlen.le (by omega))
  · next hempty =>
    rwa [List.length_eq_zero_iff.mp (by omega : (windowLiterals e).length = 0), List.append_nil]

theorem gathered_restart (signed : Bool) (sinkCapacity : Nat) (e : Encoder) :
    Gathered signed WritePort.reset (e.restart sinkCapacity) [] :=
  ⟨freeWords_length .., Nat.zero_lt_succ 511, [], wrote_nil signed ⟨rfl, rfl⟩, rfl⟩

/-- A `NEXT` right after a `RESET` over a sink that was written since it was empty hands out the
values, to the end of the bytes. -/
theorem exec_next_of_wrote {s : State} {signed : Bool} {p : WritePort} {vs : List Word}
    (hp : Wrote signed WritePort.reset p vs) (hin : s.presented = p.out)
    (hlt : vs.length < 2 ^ 32) (hout : s.out.length = vs.length) :
    ∃ d, exec (.next (BitVec.ofNat 32 vs.length) false) (restartEngine signed s) =
        .next (respond 0 { restartEngine signed s with dec := d, out := vs }) ∧
      d.cur.spos = Memory.size p.out ∧ d.dstate = .awaitingHeader := by
  obtain ⟨bytes, hbytes, hspells⟩ := hp.spelled
  have hcount := toNat_ofNat_length hlt
  have hh : Holds p.out 0 bytes :=
    holds_of_bytes_append (hp.emitted.counted counted_reset).out_wf hbytes
  obtain ⟨d, hvalues, hwait, hspos⟩ := hspells (restartEngine signed s).cfg p.out
    (restartEngine signed s).dec rfl rfl hh
  have hnext := exec_next_unmasked (s := restartEngine signed s)
    (n := BitVec.ofNat 32 vs.length) rfl (hcount.trans_le hout.ge)
  rw [hcount, restartEngine_input, hin, hvalues, restartEngine_out, ← hout, List.drop_length]
    at hnext
  refine ⟨d, ?_, hspos.trans (size_of_bytes_append hbytes).symm, hwait⟩
  rw [← hout, hnext, Except.map, List.append_nil]
  rfl

/-- Settles O52: from the empty sink of the `RESET` the encoder half gathers every value, the flush
writes the last of them, and the decoder's slot steps read the runs back. -/
theorem roundTrip : Obligations.RoundTrip := by
  unfold Obligations.RoundTrip
  intro s r signed values hcap hlt hr
  obtain rfl := Host.Outcome.next.inj hr
  have hready : (restartEngine signed s).enc.fault = false := decide_eq_false hcap
  refine ⟨_, _, exec_add_all hready hlt,
    exec_flush_of_ready ((pushLiterals_fault _ _ _).1.trans hready), ?_⟩
  intro s' r' hin hout hr'
  obtain rfl := Host.Outcome.next.inj hr'
  have hgathered := (gathered_restart signed s.cfg.sinkCapacity s.enc).pushLiterals values
  obtain ⟨d, hnext, hspos, hwait⟩ := exec_next_of_wrote hgathered.flushWindow hin hlt hout
  exact ⟨_, hnext, rfl, rfl, hspos, hwait⟩

end Sys2Proof.Proofs.EncoderControl
end

section
/-! Exceptions (`60_exceptions.md`): how a decoder instruction can end, said once for the run forms
and the commands; which errors it can take and what taking one leaves alone; that code 3 never
appears; and that a fault state is left by `RESET` only. -/

namespace Sys2Proof.Proofs.Exceptions

open Sys2Proof.Machine Sys2Proof.Laws Sys2Proof.Proofs.EngineState Sys2Proof.Proofs.MemoryFrame
  Sys2Proof.Proofs.RunDispatcher Sys2Proof.Proofs.PatchedBaseRun Sys2Proof.Proofs.SeekSkip

/-! ### A run or a walk that answers keeps the fault pair (rule R28) -/

/-- `D.FAULT` and `D.ERR` are as they were. -/
structure FlagsKept (d e : Decoder) : Prop where
  fault_eq : e.fault = d.fault
  err_eq : e.err = d.err

theorem FlagsKept.refl (d : Decoder) : FlagsKept d d := ⟨rfl, rfl⟩

theorem FlagsKept.trans {d e f : Decoder} (hde : FlagsKept d e) (hef : FlagsKept e f) :
    FlagsKept d f :=
  ⟨hef.fault_eq.trans hde.fault_eq, hef.err_eq.trans hde.err_eq⟩

/-- Every run form ends in `enterRun`, well-formed or not. -/
theorem materialise_flagsKept {cfg : Settings} {inp : Memory} {r : Run} {d e : Decoder}
    (h : materialise cfg inp r d = .ok e) : FlagsKept d e := by
  cases r with
  | sr byteWidth repeatCount =>
    obtain ⟨_, -, h⟩ := except_bind_eq_ok.mp h
    cases h
    exact ⟨rfl, rfl⟩
  | direct bitWidth length =>
    obtain ⟨_, -, h⟩ := except_bind_eq_ok.mp h
    cases h
    exact ⟨rfl, rfl⟩
  | pb deltaWidth length baseWidth patchWidth gapWidth listLength =>
    rw [materialise, decodePatchedBase] at h
    split at h
    · cases h
    · obtain ⟨_, -, h⟩ := except_bind_eq_ok.mp h
      obtain ⟨_, -, h⟩ := except_bind_eq_ok.mp h
      obtain ⟨_, -, h⟩ := except_bind_eq_ok.mp h
      obtain ⟨_, -, h⟩ := except_bind_eq_ok.mp h
      cases h
      exact ⟨rfl, rfl⟩
  | delta deltaWidth length =>
    obtain ⟨_, -, h⟩ := except_bind_eq_ok.mp h
    obtain ⟨_, -, h⟩ := except_bind_eq_ok.mp h
    obtain ⟨_, -, h⟩ := except_bind_eq_ok.mp h
    cases h
    exact ⟨rfl, rfl⟩

theorem slotStep_flagsKept {cfg : Settings} {inp : Memory} {d e : Decoder} {v : Word}
    (h : slotStep cfg inp d = .ok (v, e)) : FlagsKept d e := by
  obtain ⟨e, he, -, rfl⟩ := slotStep_ok.mp h
  unfold ensureRun at he
  split at he
  · exact ⟨(fetchRun_entered he).fault_eq, (fetchRun_entered he).err_eq⟩
  · cases he
    exact ⟨rfl, rfl⟩

theorem nextValues_flagsKept {cfg : Settings} {inp : Memory} {n : Nat} {d e : Decoder}
    {vs : List Word} (h : nextValues cfg inp n d = .ok (vs, e)) : FlagsKept d e := by
  induction n generalizing d vs with
  | zero =>
    cases h
    exact .refl _
  | succ n ih =>
    obtain ⟨_, hstep, h⟩ := except_bind_eq_ok.mp h
    obtain ⟨_, hrest, h⟩ := except_bind_eq_ok.mp h
    cases h
    exact (slotStep_flagsKept hstep).trans (ih hrest)

theorem except_map_eq_ok {ε α β : Type} {x : Except ε α} {f : α → β} {b : β} :
    x.map f = .ok b ↔ ∃ a, x = .ok a ∧ f a = b := by
  cases x <;> simp [Except.map]

theorem skipSlots_flagsKept {cfg : Settings} {inp : Memory} {n : Nat} {d e : Decoder}
    (h : skipSlots cfg inp n d = .ok e) : FlagsKept d e := by
  rw [skipSlots_eq] at h
  obtain ⟨p, hv, h⟩ := except_map_eq_ok.mp h
  cases h
  exact nextValues_flagsKept hv

theorem fillSlots_flagsKept {cfg : Settings} {inp : Memory} {ps : List Bool} {out out' : List Word}
    {d e : Decoder} (hlen : ps.length ≤ out.length)
    (h : fillSlots cfg inp ps out d = .ok (out', e)) : FlagsKept d e := by
  rw [fillSlots_eq hlen] at h
  obtain ⟨p, hv, h⟩ := except_map_eq_ok.mp h
  cases h
  exact nextValues_flagsKept hv

theorem seekTo_flagsKept {cfg : Settings} {inp : Memory} {p0 p1 p3 : Word} {d e : Decoder}
    (h : seekTo cfg inp p0 p1 p3 d = .ok e) : FlagsKept d e := by
  obtain ⟨pos, hloc, hpos⟩ := located_of_seekTo_ok h
  rw [seekTo_of_located p3 d hloc hpos] at h
  exact ⟨(skipSlots_flagsKept h).fault_eq, (skipSlots_flagsKept h).err_eq⟩

/-! ### The errors an instruction can take (rules R271, R272, R274) -/

/-- The token is not located, or lies beyond the end of the input (rule R274). -/
def TokenOutside (s : State) (p0 p1 : Word) : Prop :=
  ∀ pos, streamLocate s.cfg.locate p0 p1 = some pos → Memory.size s.input < pos

theorem seekTo_of_tokenOutside {s : State} {p0 p1 : Word} (p3 : Word) (d : Decoder)
    (h : TokenOutside s p0 p1) :
    seekTo s.cfg s.input p0 p1 p3 d = .error .seekOutOfRange := by
  unfold seekTo
  split
  · rfl
  · next pos hloc => exact if_pos (h pos hloc)

/-- Once a token is located inside the input, only the slot steps can fail, and not with this
error. -/
theorem tokenOutside_of_seekTo {s : State} {p0 p1 p3 : Word} {d : Decoder}
    (h : seekTo s.cfg s.input p0 p1 p3 d = .error .seekOutOfRange) : TokenOutside s p0 p1 := by
  intro pos hloc
  by_contra hpos
  rw [seekTo_of_located p3 d hloc (not_lt.mp hpos)] at h
  rcases skipSlots_error h with h | h <;> cases h

/-- The errors instruction `i` can take in state `s`: every form and command can meet the end of the
stream; a defective run is a Patched Base run, executed or fetched by a command; a token outside the
input is a `SEEK`'s. -/
inductive Raisable (s : State) (i : Instr) : ErrorKind → Prop where
  | malformedHeader (hsr : ∀ byteWidth repeatCount, i ≠ .sr byteWidth repeatCount)
      (hdirect : ∀ bitWidth length, i ≠ .direct bitWidth length)
      (hdelta : ∀ deltaWidth length, i ≠ .delta deltaWidth length) : Raisable s i .malformedHeader
  | truncatedStream : Raisable s i .truncatedStream
  | seekOutOfRange {p0 p1 p2 p3 : Word} (hi : i = .seek p0 p1 p2 p3)
      (houtside : TokenOutside s p0 p1) : Raisable s i .seekOutOfRange

theorem Raisable.code_eq {s : State} {i : Instr} {k : ErrorKind} (h : Raisable s i k) :
    k.code = 1 ∨ k.code = 2 ∨ k.code = 4 := by
  cases h with
  | malformedHeader => exact .inl rfl
  | truncatedStream => exact .inr (.inl rfl)
  | seekOutOfRange => exact .inr (.inr rfl)

theorem Raisable.code_ne_three {s : State} {i : Instr} {k : ErrorKind} (h : Raisable s i k) :
    k.code ≠ 3 := by
  rcases h.code_eq with h | h | h <;> rw [h] <;> decide

theorem raisable_of_materialise {s : State} {r : Run} {k : ErrorKind}
    (h : materialise s.cfg s.input r s.dec = .error k) : Raisable s r.toInstr k := by
  cases r with
  | sr byteWidth repeatCount =>
    obtain rfl := decodeShortRepeat_error h
    exact .truncatedStream
  | direct bitWidth length =>
    obtain rfl := decodeDirect_error h
    exact .truncatedStream
  | pb deltaWidth length baseWidth patchWidth gapWidth listLength =>
    obtain rfl | rfl := decodePatchedBase_error h
    · exact .malformedHeader nofun nofun nofun
    · exact .truncatedStream
  | delta deltaWidth length =>
    obtain rfl := decodeDelta_error h
    exact .truncatedStream

theorem raisable_of_fillSlots {s : State} {n : BitVec 32} {masked : Bool} {ps : List Bool}
    {k : ErrorKind} (h : fillSlots s.cfg s.input ps s.out s.dec = .error k) :
    Raisable s (.next n masked) k := by
  obtain rfl | rfl := fillSlots_error h
  · exact .malformedHeader nofun nofun nofun
  · exact .truncatedStream

theorem raisable_of_skipSlots {s : State} {n : BitVec 32} {k : ErrorKind}
    (h : skipSlots s.cfg s.input n.toNat s.dec = .error k) : Raisable s (.skip n) k := by
  obtain rfl | rfl := skipSlots_error h
  · exact .malformedHeader nofun nofun nofun
  · exact .truncatedStream

theorem raisable_of_seekTo {s : State} {p0 p1 p2 p3 : Word} {k : ErrorKind}
    (h : seekTo s.cfg s.input p0 p1 p3 s.dec = .error k) : Raisable s (.seek p0 p1 p2 p3) k := by
  obtain rfl | rfl | rfl := seekTo_error h
  · exact .malformedHeader nofun nofun nofun
  · exact .truncatedStream
  · exact .seekOutOfRange rfl (tokenOutside_of_seekTo h)

/-! ### How a decoder instruction can end (rules R170, R276) -/

/-- Everything a decoder instruction can do to the fault pair and the response: answer the latched
code, complete, or take an error. -/
inductive DecoderEnding (s : State) (i : Instr) (t : State) : Prop where
  | latched (hfault : s.dec.fault = true) (ht : t = respond s.dec.err s)
  | completed (hready : s.dec.fault = false) (hflags : FlagsKept s.dec t.dec)
      (hresponse : t.response = s.response ∨ t.response.status = 0)
  | raised (hready : s.dec.fault = false) (k : ErrorKind) (hk : Raisable s i k)
      (ht : DecoderRaised k.code t)

theorem settleDecoder_ending {s : State} {i : Instr} {r : Except ErrorKind Decoder}
    (hready : s.dec.fault = false) (hok : ∀ d, r = .ok d → FlagsKept s.dec d)
    (herr : ∀ k, r = .error k → Raisable s i k) : DecoderEnding s i (settleDecoder s r) := by
  cases r with
  | ok d => exact .completed hready (hok d rfl) (.inl rfl)
  | error k => exact .raised hready k (herr k rfl) ⟨rfl, rfl, rfl⟩

theorem settleSkip_ending {s : State} {i : Instr} {r : Except ErrorKind Decoder}
    (hready : s.dec.fault = false) (hok : ∀ d, r = .ok d → FlagsKept s.dec d)
    (herr : ∀ k, r = .error k → Raisable s i k) : DecoderEnding s i (settleSkip s r) := by
  cases r with
  | ok d => exact .completed hready (hok d rfl) (.inr rfl)
  | error k => exact .raised hready k (herr k rfl) ⟨rfl, rfl, rfl⟩

theorem settleSlots_ending {n : Nat} {s : State} {i : Instr}
    {r : Except ErrorKind (List Word × Decoder)} (hready : s.dec.fault = false)
    (hok : ∀ out d, r = .ok (out, d) → FlagsKept s.dec d)
    (herr : ∀ k, r = .error k → Raisable s i k) : DecoderEnding s i (settleSlots n s r) := by
  cases r with
  | ok p => exact .completed hready (hok p.1 p.2 rfl) (.inr rfl)
  | error k => exact .raised hready k (herr k rfl) ⟨rfl, rfl, rfl⟩

theorem exec_run_ending {r : Run} {s t : State} (h : exec r.toInstr s = .next t) :
    DecoderEnding s r.toInstr t := by
  rcases exec_run_cases h with ⟨hf, rfl⟩ | ⟨hf, rfl⟩
  · exact .latched hf rfl
  · exact settleDecoder_ending hf (fun _ => materialise_flagsKept) fun _ => raisable_of_materialise

theorem exec_next_ending {n : BitVec 32} {masked : Bool} {s t : State}
    (h : exec (.next n masked) s = .next t) : DecoderEnding s (.next n masked) t := by
  rcases exec_next_cases h with ⟨hf, rfl⟩ | ⟨hf, hcover, rfl⟩
  · exact .latched hf rfl
  · have hlen := (length_presentSlots_le masked s.mask n.toNat).trans
      (le_length_of_buffersCover hcover)
    exact settleSlots_ending hf (fun _ _ => fillSlots_flagsKept hlen) fun _ => raisable_of_fillSlots

theorem exec_skip_ending {k : BitVec 32} {s t : State} (h : exec (.skip k) s = .next t) :
    DecoderEnding s (.skip k) t := by
  rcases exec_skip_cases h with ⟨hf, rfl⟩ | ⟨hf, rfl⟩
  · exact .latched hf rfl
  · exact settleSkip_ending hf (fun _ => skipSlots_flagsKept) fun _ => raisable_of_skipSlots

theorem exec_seek_ending {p0 p1 p2 p3 : Word} {s t : State}
    (h : exec (.seek p0 p1 p2 p3) s = .next t) : DecoderEnding s (.seek p0 p1 p2 p3) t := by
  rcases exec_seek_cases h with ⟨hf, rfl⟩ | ⟨hf, rfl⟩
  · exact .latched hf rfl
  · exact settleSkip_ending hf (fun _ => seekTo_flagsKept) fun _ => raisable_of_seekTo

theorem exec_decoder_ending {i : Instr} {s t : State} (h : exec i s = .next t)
    (hreset : ∀ signed, i ≠ .reset signed) (hadd : ∀ count masked, i ≠ .add count masked)
    (hflush : i ≠ .flush) : DecoderEnding s i t := by
  cases i with
  | sr bw rc => exact exec_run_ending (r := .sr bw rc) h
  | direct w l => exact exec_run_ending (r := .direct w l) h
  | pb w l bw pw pgw pll => exact exec_run_ending (r := .pb w l bw pw pgw pll) h
  | delta w l => exact exec_run_ending (r := .delta w l) h
  | reset signed => exact absurd rfl (hreset signed)
  | next n masked => exact exec_next_ending h
  | skip k => exact exec_skip_ending h
  | seek p0 p1 p2 p3 => exact exec_seek_ending h
  | add count masked => exact absurd rfl (hadd count masked)
  | flush => exact absurd rfl hflush

/-! ### Fault entry (rules R270, R271, R274, R276 to R278) -/

/-- A ready decoder half that ends faulted has taken one of the instruction's errors. -/
theorem DecoderEnding.raisable {s t : State} {i : Instr} (h : DecoderEnding s i t)
    (hready : s.dec.fault = false) (hfault : t.dec.fault = true) :
    ∃ k, Raisable s i k ∧ DecoderRaised k.code t := by
  cases h with
  | latched hf => simp [hf] at hready
  | completed _ hflags => simp [hflags.fault_eq, hready] at hfault
  | raised _ k hk ht => exact ⟨k, hk, ht⟩

/-- Only a decoder instruction can fault a ready decoder half, and it moves nothing outside the
decoder's frame. -/
theorem exec_fault_entry {i : Instr} {s t : State} (h : exec i s = .next t)
    (hready : s.dec.fault = false) (hfault : t.dec.fault = true) :
    ∃ k, Raisable s i k ∧ DecoderRaised k.code t ∧ OnlyDecoderMoves s t := by
  cases i with
  | reset signed =>
    cases h
    exact nomatch hfault
  | add count masked => simp [exec_encoder_dec h (.inl ⟨_, _, rfl⟩), hready] at hfault
  | flush => simp [exec_encoder_dec h (.inr rfl), hready] at hfault
  | _ =>
    obtain ⟨k, hk, ht⟩ := (exec_decoder_ending h nofun nofun nofun).raisable hready hfault
    exact ⟨k, hk, ht, exec_decoder_onlyDecoderMoves h nofun nofun nofun⟩

/-- No instruction but `NEXT` writes a slot of the caller. -/
theorem exec_out {i : Instr} {s t : State} (h : exec i s = .next t)
    (hnext : ∀ n masked, i ≠ .next n masked) : t.out = s.out := by
  cases i with
  | sr bw rc => exact (runFrame (.sr bw rc) s t h).2.1
  | direct w l => exact (runFrame (.direct w l) s t h).2.1
  | pb w l bw pw pgw pll => exact (runFrame (.pb w l bw pw pgw pll) s t h).2.1
  | delta w l => exact (runFrame (.delta w l) s t h).2.1
  | reset signed =>
    cases h
    rfl
  | next n masked => exact absurd rfl (hnext n masked)
  | skip k => exact (exec_skip_frame h).2
  | seek p0 p1 p2 p3 => exact (exec_seek_frame h).2
  | add count masked => rcases exec_add_cases h with ⟨-, rfl⟩ | ⟨-, -, rfl⟩ <;> rfl
  | flush => rcases exec_flush_cases h with ⟨-, rfl⟩ | ⟨-, rfl⟩ <;> rfl

/-- Settles O24: of the errors a run form can take, code 1 is the Patched Base run's. -/
theorem malformedOnlyFromPatchedBase : Obligations.MalformedOnlyFromPatchedBase := by
  unfold Obligations.MalformedOnlyFromPatchedBase
  intro r s t h hready hfault herr
  obtain ⟨k, hk, ht, -⟩ := exec_fault_entry h hready hfault
  have hcode : k.code = 1 := ht.err_eq.symm.trans herr
  cases hk with
  | malformedHeader hsr hdirect hdelta =>
    cases r with
    | sr byteWidth repeatCount => exact absurd rfl (hsr byteWidth repeatCount)
    | direct bitWidth length => exact absurd rfl (hdirect bitWidth length)
    | pb a b c d e f => exact ⟨a, b, c, d, e, f, rfl⟩
    | delta deltaWidth length => exact absurd rfl (hdelta deltaWidth length)
  | truncatedStream => exact absurd hcode (by decide)
  | seekOutOfRange => exact absurd hcode (by decide)

/-- Settles O35: the walk ends before any byte is read when the token is outside, and of the errors
an instruction can take, code 4 is that one. -/
theorem seekOutOfRange : Obligations.SeekOutOfRange := by
  unfold Obligations.SeekOutOfRange
  refine ⟨fun s p0 p1 p2 p3 hf houtside => ?_, fun i s t h hready hfault herr => ?_⟩
  · refine ⟨_, exec_seek_of_ready p0 p1 p2 p3 hf, ?_, onlyDecoderMoves_settleSkip s _,
      settleSkip_out s _⟩
    rw [seekTo_of_tokenOutside p3 s.dec houtside]
    exact ⟨rfl, rfl, rfl⟩
  · obtain ⟨k, hk, ht, -⟩ := exec_fault_entry h hready hfault
    have hcode : k.code = 4 := ht.err_eq.symm.trans herr
    cases hk with
    | malformedHeader => exact absurd hcode (by decide)
    | truncatedStream => exact absurd hcode (by decide)
    | seekOutOfRange hi houtside => exact ⟨_, _, _, _, hi, houtside⟩

/-- Settles O39: fault entry, with the frame of the caller's slots. -/
theorem decoderFaultEntry : Obligations.DecoderFaultEntry := by
  unfold Obligations.DecoderFaultEntry
  intro i s t h hready hfault
  obtain ⟨k, hk, ht, hframe⟩ := exec_fault_entry h hready hfault
  rw [ht.err_eq]
  refine ⟨hk.code_eq, ht, hframe, exec_out h, ?_⟩
  rintro n masked rfl
  exact exec_next_beyond h

/-! ### Code 3 never appears (rule R273) -/

/-- Code 3 stands in neither error register and not in the response. -/
structure WithoutCode3 (s : State) : Prop where
  dec_err : s.dec.err ≠ 3
  enc_err : s.enc.err ≠ 3
  status : s.response.status ≠ 3

theorem withoutCode3_of_ending {i : Instr} {s t : State} (hs : WithoutCode3 s)
    (h : DecoderEnding s i t) (henc : t.enc = s.enc) : WithoutCode3 t := by
  cases h with
  | latched _ ht => exact ht ▸ ⟨hs.dec_err, hs.enc_err, hs.dec_err⟩
  | completed _ hflags hresponse =>
    refine ⟨hflags.err_eq ▸ hs.dec_err, henc ▸ hs.enc_err, ?_⟩
    rcases hresponse with hresponse | hstatus
    · exact hresponse ▸ hs.status
    · exact hstatus ▸ by decide
  | raised _ k hk ht =>
    exact ⟨ht.err_eq ▸ hk.code_ne_three, henc ▸ hs.enc_err, ht.response_eq ▸ hk.code_ne_three⟩

theorem flushWindow_err (signed : Bool) (e : Encoder) : (flushWindow signed e).err = e.err := by
  unfold flushWindow
  split <;> rfl

theorem exec_add_withoutCode3 {count : BitVec 32} {masked : Bool} {s t : State}
    (hs : WithoutCode3 s) (h : exec (.add count masked) s = .next t) : WithoutCode3 t := by
  rcases exec_add_cases h with ⟨-, rfl⟩ | ⟨-, -, rfl⟩
  · exact ⟨hs.dec_err, hs.enc_err, hs.enc_err⟩
  · exact ⟨hs.dec_err, (pushLiterals_fault _ _ _).2.trans_ne hs.enc_err, by simp⟩

theorem exec_flush_withoutCode3 {s t : State} (hs : WithoutCode3 s)
    (h : exec .flush s = .next t) : WithoutCode3 t := by
  rcases exec_flush_cases h with ⟨-, rfl⟩ | ⟨-, rfl⟩
  · exact ⟨hs.dec_err, hs.enc_err, hs.enc_err⟩
  · exact ⟨hs.dec_err, (flushWindow_err _ _).trans_ne hs.enc_err, by simp⟩

/-- `RESET` writes 0 or 5 (rules R275, R290), whatever stood there before. -/
theorem restartEngine_withoutCode3 (signed : Bool) (s : State) :
    WithoutCode3 (restartEngine signed s) := by
  refine ⟨by simp, ?_, ?_⟩
  · simp only [restartEngine_enc, Encoder.restart]
    split <;> decide
  · simp only [restartEngine_response]
    split <;> decide

/-- Settles O40, half by half: a decoder instruction keeps its code or takes 1, 2 or 4, an encoder
command keeps its code, and `RESET` writes 0 or 5. -/
theorem invalidWidthCodeNeverAppears : Obligations.InvalidWidthCodeNeverAppears := by
  unfold Obligations.InvalidWidthCodeNeverAppears
  intro i s t h hdec henc hstatus
  have hs : WithoutCode3 s := ⟨hdec, henc, hstatus⟩
  have ht : WithoutCode3 t := by
    cases i with
    | reset signed =>
      cases h
      exact restartEngine_withoutCode3 signed s
    | add count masked => exact exec_add_withoutCode3 hs h
    | flush => exact exec_flush_withoutCode3 hs h
    | _ =>
      exact withoutCode3_of_ending hs (exec_decoder_ending h nofun nofun nofun)
        (exec_decoder_enc h nofun nofun nofun)
  exact ⟨ht.dec_err, ht.enc_err, ht.status⟩

/-! ### Leaving a fault state (rule R280) -/

/-- A faulted decoder half stands still under its own instructions and is out of reach of the
encoder's. -/
theorem exec_dec_of_fault {i : Instr} {s t : State} (h : exec i s = .next t)
    (hreset : ∀ signed, i ≠ .reset signed) (hf : s.dec.fault = true) : t.dec = s.dec := by
  cases i with
  | add count masked => exact exec_encoder_dec h (.inl ⟨_, _, rfl⟩)
  | flush => exact exec_encoder_dec h (.inr rfl)
  | _ =>
    cases exec_decoder_ending h hreset nofun nofun with
    | latched _ ht => rw [ht, respond_dec]
    | completed hready => simp [hf] at hready
    | raised hready => simp [hf] at hready

/-- A faulted encoder half likewise. -/
theorem exec_enc_of_fault {i : Instr} {s t : State} (h : exec i s = .next t)
    (hreset : ∀ signed, i ≠ .reset signed) (hf : s.enc.fault = true) : t.enc = s.enc := by
  cases i with
  | add count masked =>
    rcases exec_add_cases h with ⟨-, rfl⟩ | ⟨hready, -⟩
    · rfl
    · simp [hf] at hready
  | flush =>
    rcases exec_flush_cases h with ⟨-, rfl⟩ | ⟨hready, -⟩
    · rfl
    · simp [hf] at hready
  | _ => exact exec_decoder_enc h hreset nofun nofun

/-- Settles O41: no other instruction moves a faulted half, and `RESET` restarts both. -/
theorem onlyResetLeavesAFault : Obligations.OnlyResetLeavesAFault := by
  unfold Obligations.OnlyResetLeavesAFault
  refine ⟨fun i s t h hreset => ⟨exec_dec_of_fault h hreset, exec_enc_of_fault h hreset⟩,
    fun s signed => ?_⟩
  exact ⟨_, exec_reset signed s, rfl, rfl, rfl, fun hcap => decide_eq_false hcap⟩

end Sys2Proof.Proofs.Exceptions
end

section
/-! Reset and hazards (`70_reset_and_hazards.md`): what `RESET` writes, what nothing but `RESET`
writes, and the engine between commands. -/

namespace Sys2Proof.Proofs.ResetAndHazards

open Sys2Proof.Machine Sys2Proof.Laws Sys2Proof.Proofs.MemoryFrame

/-! ### The engine between commands (rule R287) -/

theorem step_of_idle {s : State} (h : s.pending = []) : step s = .next s := by
  rw [step, h]

/-- Settles O55. -/
theorem idleStepHoldsState : Obligations.IdleStepHoldsState := by
  unfold Obligations.IdleStepHoldsState
  exact fun _ => step_of_idle

/-! ### `RESET` with a sink (rules R40, R290) -/

/-- The listed registers of the encoder half, with a sink of some capacity. -/
theorem encoder_restart_eq {sinkCapacity : Nat} (hcap : sinkCapacity ≠ 0) (e : Encoder) :
    e.restart sinkCapacity =
      { litBuf := freeWords .litBuf e.freeCount 0 512, litCount := 0, port := WritePort.reset
        fault := false, err := 0, freeCount := e.freeCount + 1 } := by
  simp [Encoder.restart, hcap]

/-- Settles O42: the decoder half restarts in any case, the encoder half and the status see a sink
of some capacity. -/
theorem resetRestarts : Obligations.ResetRestarts := by
  unfold Obligations.ResetRestarts
  intro s signed hcap
  refine ⟨_, exec_reset signed s, rfl, rfl, rfl, rfl, rfl, ?_⟩
  rw [restartEngine_enc, encoder_restart_eq hcap, restartEngine_response, if_neg hcap]
  exact ⟨rfl, rfl, rfl, rfl, rfl, rfl, rfl, rfl, rfl, rfl, rfl, rfl, rfl, rfl⟩

/-! ### The configuration (rules R21, R22, R291) -/

/-- No instruction but `RESET` writes a configuration register. -/
theorem exec_cfg {i : Instr} {s t : State} (h : exec i s = .next t)
    (hreset : ∀ signed, i ≠ .reset signed) : t.cfg = s.cfg := by
  cases i with
  | add count masked => rcases exec_add_cases h with ⟨-, rfl⟩ | ⟨-, -, rfl⟩ <;> rfl
  | flush => rcases exec_flush_cases h with ⟨-, rfl⟩ | ⟨-, rfl⟩ <;> rfl
  | _ => exact (exec_decoder_onlyDecoderMoves h hreset nofun nofun).cfg_eq

/-- Settles O44: `RESET` writes `CFG.SIGNED` alone, and the others write nothing. -/
theorem parametersAreFixed : Obligations.ParametersAreFixed := by
  unfold Obligations.ParametersAreFixed
  refine fun i s t h => ⟨?_, exec_cfg h⟩
  cases i with
  | reset signed =>
    cases h
    rfl
  | _ => rw [exec_cfg h nofun]

end Sys2Proof.Proofs.ResetAndHazards
end

section
/-! The Short Repeat run (`42_short_repeat.md`): its decoder in closed form over a body in the
stream, the run fetch over the bytes of its writer, and the window that is flushed as one such
run. -/

namespace Sys2Proof.Proofs.ShortRepeatRun

open Sys2Proof.Machine Sys2Proof.Laws Sys2Proof.Proofs.BitPrimitives
  Sys2Proof.Proofs.PatchedBaseRun Sys2Proof.Proofs.SpelledRuns Sys2Proof.Proofs.EncoderControl

/-! ### The decoder (rule R182) -/

/-- The big-endian reader in closed form (rules R59, R122). -/
theorem readLongBE_holds {inp : Memory} {c : Cursor} {bytes : List Byte}
    (h : Holds inp c.spos bytes) :
    readLongBE inp bytes.length c =
      .ok (BitVec.ofNat 64 (bytesToNat bytes), c.advance bytes.length) :=
  readLongBEFrom_holds 0 h

/-- Settles O14: the big-endian reader gives the value and the cursor, and entering the run gives
the other registers. -/
theorem shortRepeatCompletes : Obligations.ShortRepeatCompletes := by
  unfold Obligations.ShortRepeatCompletes
  rintro s _ repeatCount bytes hf _ _ _ _ rfl hh
  have hdecode := decodeShortRepeat_of_readLongBE s.cfg repeatCount (readLongBE_holds hh)
  refine ⟨freeWords .runBuffer s.dec.freeCount repeatCount (512 - repeatCount),
    freeWords_length .., (exec_run_of_ready (.sr bytes.length repeatCount) hf).trans ?_⟩
  rw [materialise, hdecode, settleDecoder, enterRun, List.length_replicate]
  rfl

/-! ### The writer (rule R186) -/

/-- Settles O50: the bytes appended spell the run, and a fetched run has just been entered. -/
theorem shortRepeatRoundTrip : Obligations.ShortRepeatRoundTrip := by
  unfold Obligations.ShortRepeatRoundTrip
  intro cfg v n p d hlo hhi hp hspos
  have happ := appended_emitShortRepeat cfg.signed v n p
  have hh := holds_of_bytes_append (happ.counted hp).out_wf happ.bytes_eq
  rw [← hspos] at hh
  obtain ⟨d', hfetch, hlength, hbuffer, hend⟩ :=
    spellsRun_srBytes cfg.signed v hlo hhi cfg _ d rfl hh
  have hentered := fetchRun_entered hfetch
  rw [List.length_replicate] at hlength hbuffer
  exact ⟨d', hfetch, hentered.dstate_eq, hlength, hentered.runConsumed_eq, hbuffer,
    by rw [hend, hspos, size_of_bytes_append happ.bytes_eq]⟩

/-- The header byte of a Short Repeat run as a number (rule R88). -/
theorem encodeHeader_sr {byteWidth repeatCount : Nat} (hw : byteWidth - 1 < 8)
    (hn : repeatCount - 3 < 8) :
    encodeHeader (.sr byteWidth repeatCount) =
      [BitVec.ofNat 8 (8 * (byteWidth - 1) + (repeatCount - 3))] := by
  have hbyte : ∀ a < 8, ∀ b < 8,
      0#2 ++ BitVec.ofNat 3 a ++ BitVec.ofNat 3 b = BitVec.ofNat 8 (8 * a + b) := by decide
  rw [encodeHeader, hbyte _ hw _ hn]

/-- A word other than 0 has its highest set bit where its bit length says (rule R14). -/
theorem pow_bitLength_le {z : Word} (hz : z.toNat ≠ 0) : 2 ^ (bitLength z - 1) ≤ z.toNat := by
  rw [bitLength, if_neg hz, Nat.add_sub_cancel]
  exact Nat.log2_self_le hz

/-- One byte fewer would not hold the value, unless one byte is all there is (rule R186). -/
theorem storedBytes_least (z : Word) :
    storedBytes z = 1 ∨ 2 ^ (8 * (storedBytes z - 1)) ≤ z.toNat := by
  by_cases hone : storedBytes z = 1
  · exact .inl hone
  · rw [storedBytes] at hone ⊢
    have hz : z.toNat ≠ 0 := fun hzero => hone (by rw [bitLength, if_pos hzero]; rfl)
    exact .inr ((Nat.pow_le_pow_right Nat.two_pos (by omega)).trans (pow_bitLength_le hz))

/-! ### A window of equal literals (rules R253, R254) -/

theorem equalRun_replicate (v : Word) (n : Nat) : equalRun v (List.replicate n v) = n := by
  induction n with
  | zero => rfl
  | succ n ih => rw [List.replicate_succ, equalRun, if_pos rfl, ih]

theorem emitLiterals_nil (signed : Bool) (fuel : Nat) (p : WritePort) :
    emitLiterals signed fuel [] p = p := by
  cases fuel <;> rfl

/-- The run selection takes three to ten equal literals in one turn. -/
theorem emitLiterals_replicate (signed : Bool) (v : Word) {n fuel : Nat} (p : WritePort)
    (hlo : 3 ≤ n) (hhi : n ≤ 10) (hfuel : 0 < fuel) :
    emitLiterals signed fuel (List.replicate n v) p = emitShortRepeat signed v n p := by
  obtain ⟨m, rfl⟩ : ∃ m, n = m + 1 := ⟨n - 1, by omega⟩
  obtain ⟨fuel, rfl⟩ : ∃ k, fuel = k + 1 := ⟨fuel - 1, by omega⟩
  have hident : identRun (v :: List.replicate m v) = m + 1 := by
    rw [identRun, equalRun_replicate, Nat.min_eq_right hhi]
  rw [List.replicate_succ, emitLiterals, hident, if_pos hlo, ← List.replicate_succ,
    List.drop_replicate, Nat.sub_self, List.replicate_zero, emitLiterals_nil]

/-- Settles O49: the run selection takes the whole window in one Short Repeat run, whose byte width
is the least that holds the stored value. -/
theorem equalLiteralsMakeOneShortRepeat : Obligations.EqualLiteralsMakeOneShortRepeat := by
  unfold Obligations.EqualLiteralsMakeOneShortRepeat
  rintro s v _ hf hlo hhi hwindow rfl
  have hport : (flushWindow s.cfg.signed s.enc).port =
      emitShortRepeat s.cfg.signed v s.enc.litCount s.enc.port := by
    rw [flushWindow, if_pos (by omega), emitWindow_port, windowLiterals, hwindow,
      emitLiterals_replicate _ _ _ hlo hhi (by omega)]
  obtain ⟨hpos, hle⟩ := storedBytes_range (storedOfValue s.cfg.signed v)
  have hfits := toNat_lt_storedBytes (storedOfValue s.cfg.signed v)
  refine ⟨storedBytes (storedOfValue s.cfg.signed v),
    beBytes (storedOfValue s.cfg.signed v) (storedBytes (storedOfValue s.cfg.signed v)), _,
    exec_flush_of_ready hf, hpos, hle, hfits, storedBytes_least _, beBytes_length _ _,
    bytesToNat_beBytes _ _ hfits, ?_⟩
  rw [respondTotal_enc, sinkFlush_enc, hport, (appended_emitShortRepeat _ _ _ _).bytes_eq, srBytes,
    encodeHeader_sr (by omega) (by omega)]
  rfl

end Sys2Proof.Proofs.ShortRepeatRun
end

section
/-! Where a run is cut short (rule R272): each read of a run body or of a run header that reaches
beyond the end of the stream raises `TruncatedStream`. -/

namespace Sys2Proof.Proofs.TruncatedRuns

open Sys2Proof.Machine Sys2Proof.Laws Sys2Proof.Proofs.MemoryFrame
  Sys2Proof.Proofs.RunDispatcher Sys2Proof.Proofs.PatchedBaseRun Sys2Proof.Proofs.DeltaValues
  Sys2Proof.Proofs.DeltaRun

/-! ### Short Repeat and Direct (rules R182, R192) -/

section
variable {inp : Memory} {d : Decoder}

theorem decodeShortRepeat_cut_short {byteWidth : Nat} (cfg : Settings) (repeatCount : Nat)
    (hwf : Memory.wf inp = true) (hspos : d.cur.spos ≤ Memory.size inp)
    (h : Memory.size inp < d.cur.spos + byteWidth) :
    decodeShortRepeat cfg inp byteWidth repeatCount d = .error .truncatedStream := by
  rw [decodeShortRepeat, readLongBE_cut_short hwf hspos h, except_bind_error]

theorem decodeDirect_cut_short {bitWidth length : Nat} (cfg : Settings)
    (hwf : Memory.wf inp = true) (hspos : d.cur.spos ≤ Memory.size inp)
    (hbits : d.cur.bitsLeft ≤ 8)
    (h : Memory.size inp < d.cur.spos + fetchCount d.cur.bitsLeft length bitWidth) :
    decodeDirect cfg inp bitWidth length d = .error .truncatedStream := by
  rw [decodeDirect, readLongs_cut_short hwf hspos hbits h, except_bind_error]

end

/-! ### Patched Base (rules R93, R201, R205, R211) -/

theorem readBase_ok_cursor {inp : Memory} {baseWidth : Nat} {c c' : Cursor} {base : Word}
    (h : readBase inp baseWidth c = .ok (base, c')) : c' = c.advance baseWidth := by
  obtain ⟨⟨raw, c₁⟩, hraw, heq⟩ := except_bind_eq_ok.mp h
  cases heq
  exact readLongBEFrom_ok_spos hraw

section
variable {cfg : Settings} {inp : Memory} {c c₁ c₂ c₃ : Cursor}
  {deltaWidth length baseWidth patchWidth gapWidth listLength : Nat} {base : Word}
  {deltas entries : List Word}

/-- The three reads of a Patched Base body end as many bytes on as the body has, whatever the
patches say: the bits of the deltas and of the entries are one string, or two that each end in
whole bytes. -/
theorem spos_of_body_reads (hbits : c.bitsLeft ≤ 8)
    (hbase : readBase inp baseWidth c = .ok (base, c₁))
    (hdeltas : readLongs inp length deltaWidth c₁ = .ok (deltas, c₂))
    (hentries : readLongs inp listLength (entryWidth cfg.patchEntryWidth gapWidth patchWidth)
      (if cfg.sectionAlign then resetRun c₂ else c₂) = .ok (entries, c₃)) :
    c₃.spos = c.spos + patchedBaseBytes cfg c.bitsLeft deltaWidth length baseWidth patchWidth
      gapWidth listLength := by
  obtain rfl := readBase_ok_cursor hbase
  have hreached := reached_readLongs (c := c.advance baseWidth) hbits hdeltas
  have hbits₂ := (readLongs_ok hdeltas).2.bitsLeft_le hbits
  have hreached' := reached_readLongs (align_bitsLeft_le cfg.sectionAlign hbits₂) hentries
  unfold patchedBaseBytes
  cases halign : cfg.sectionAlign with
  | false =>
    simp only [halign, Bool.false_eq_true, if_false] at hreached' ⊢
    rw [(hreached.trans hreached').spos_eq, advance_spos, advance_bitsLeft, Nat.add_assoc]
  | true =>
    simp only [halign, if_true] at hreached' ⊢
    rw [hreached'.spos_eq, resetRun_spos, resetRun_bitsLeft, hreached.spos_eq, advance_spos,
      advance_bitsLeft, Nat.sub_zero, Nat.add_assoc, Nat.add_assoc, Nat.add_assoc]

/-- The three reads of a Patched Base body end within the stream. -/
theorem spos_le_of_body_reads (hwf : Memory.wf inp = true) (hspos : c.spos ≤ Memory.size inp)
    (hbase : readBase inp baseWidth c = .ok (base, c₁))
    (hdeltas : readLongs inp length deltaWidth c₁ = .ok (deltas, c₂))
    (hentries : readLongs inp listLength (entryWidth cfg.patchEntryWidth gapWidth patchWidth)
      (if cfg.sectionAlign then resetRun c₂ else c₂) = .ok (entries, c₃)) :
    c₃.spos ≤ Memory.size inp := by
  have halign : Fetched inp c₂ (if cfg.sectionAlign then resetRun c₂ else c₂) := by
    split
    · exact fetched_resetRun inp c₂
    · exact .refl inp c₂
  exact ((((fetched_readBase hbase).trans (readLongs_ok hdeltas).2).trans halign).trans
    (readLongs_ok hentries).2).spos_le hwf hspos

end

/-- A Patched Base run whose body is cut short: one of the three reads before the walk has no
answer (rule R211). -/
theorem decodePatchedBase_cut_short {inp : Memory} {d : Decoder}
    {deltaWidth length baseWidth patchWidth gapWidth listLength : Nat} (cfg : Settings)
    (hwf : Memory.wf inp = true) (hspos : d.cur.spos ≤ Memory.size inp)
    (hbits : d.cur.bitsLeft ≤ 8) (hwidths : gapWidth + patchWidth ≤ 64)
    (h : Memory.size inp < d.cur.spos + patchedBaseBytes cfg d.cur.bitsLeft deltaWidth length
      baseWidth patchWidth gapWidth listLength) :
    decodePatchedBase cfg inp deltaWidth length baseWidth patchWidth gapWidth listLength d =
      .error .truncatedStream := by
  rw [decodePatchedBase, if_neg (Nat.not_lt.mpr hwidths)]
  cases hbase : readBase inp baseWidth d.cur with
  | error k => rw [readBase_error hbase, except_bind_error]
  | ok b =>
    obtain ⟨base, c₁⟩ := b
    rw [except_bind_ok]
    dsimp only
    cases hdeltas : readLongs inp length deltaWidth c₁ with
    | error k => rw [readLongs_error hdeltas, except_bind_error]
    | ok ds =>
      obtain ⟨deltas, c₂⟩ := ds
      rw [except_bind_ok]
      dsimp only
      cases hentries : readLongs inp listLength
          (entryWidth cfg.patchEntryWidth gapWidth patchWidth)
          (if cfg.sectionAlign then resetRun c₂ else c₂) with
      | error k => rw [readLongs_error hentries, except_bind_error]
      | ok es =>
        have hend := spos_of_body_reads hbits hbase hdeltas hentries
        have hle := spos_le_of_body_reads hwf hspos hbase hdeltas hentries
        omega

/-! ### Delta (rules R221 to R223) -/

section
variable {inp : Memory} {d : Decoder} (cfg : Settings) (deltaWidth length : Nat)

/-- The base has no end. -/
theorem decodeDelta_base_cut_short (h : NoVarintFrom inp d.cur.spos) :
    decodeDelta cfg inp deltaWidth length d = .error .truncatedStream := by
  have hbase : readDeltaBase cfg inp d.cur = .error .truncatedStream := by
    rw [readDeltaBase_eq, readVulong_unended h, readVslong_unended h, ite_self]
  rw [decodeDelta, hbase, except_bind_error]

/-- `firstDelta` has no end. -/
theorem decodeDelta_first_cut_short {baseBytes : List Byte} (hwf : Memory.wf inp = true)
    (hvarint : IsVarint baseBytes) (hh : Holds inp d.cur.spos baseBytes)
    (h : NoVarintFrom inp (d.cur.spos + baseBytes.length)) :
    decodeDelta cfg inp deltaWidth length d = .error .truncatedStream := by
  have hfirst : readVslong inp (d.cur.advance baseBytes.length) = .error .truncatedStream :=
    readVslong_unended h
  rw [decodeDelta, readDeltaBase_holds cfg hwf hh hvarint, except_bind_ok]
  dsimp only
  rw [hfirst, except_bind_error]

/-- The magnitudes are cut short. -/
theorem decodeDelta_magnitudes_cut_short {baseBytes firstBytes : List Byte}
    (hwf : Memory.wf inp = true) (hspos : d.cur.spos ≤ Memory.size inp)
    (hbits : d.cur.bitsLeft ≤ 8) (hbaseVarint : IsVarint baseBytes)
    (hfirstVarint : IsVarint firstBytes)
    (hh : Holds inp d.cur.spos (baseBytes ++ firstBytes))
    (h : Memory.size inp < d.cur.spos + baseBytes.length + firstBytes.length +
      fetchCount d.cur.bitsLeft (magnitudeCount deltaWidth length) deltaWidth) :
    decodeDelta cfg inp deltaWidth length d = .error .truncatedStream := by
  obtain ⟨c₁, hbase, hfirst⟩ := reads_of_deltaHead (cfg := cfg) hwf
    ⟨hbaseVarint, hfirstVarint, hh, rfl, rfl⟩
  have hhead := ((fetched_readDeltaBase hbase).trans (fetched_readVslong hfirst)).spos_le hwf hspos
  have hmags := readLongs_cut_short (n := magnitudeCount deltaWidth length) (w := deltaWidth)
    hwf hhead hbits (by rwa [advance_spos, advance_bitsLeft, ← Nat.add_assoc])
  rw [decodeDelta, hbase, except_bind_ok]
  dsimp only
  rw [hfirst, except_bind_ok]
  dsimp only
  rw [hmags, except_bind_error]

end

/-! ### The header (rules R81, R162) -/

/-- The first byte stands in the stream, and not all of the bytes its tag calls for. -/
theorem fetchRun_cut_short {inp : Memory} {d : Decoder} {h0 : Byte} (cfg : Settings)
    (hwf : Memory.wf inp = true) (hread : Memory.read? inp d.cur.spos = some h0)
    (h : Memory.size inp < d.cur.spos + headerLength (tagOf h0)) :
    fetchRun cfg inp d = .error .truncatedStream := by
  have hlt := memory_read?_lt hwf hread
  have hrest : readBytes inp (headerLength (tagOf h0) - 1) ((resetRun d.cur).advance 1) =
      .error .truncatedStream :=
    readBytes_cut_short hwf (by rw [advance_spos, resetRun_spos]; omega)
      (by rw [advance_spos, resetRun_spos]; omega)
  rw [fetchRun, fetchHeader, readByte_of_read? (c := resetRun d.cur) hread, except_bind_ok]
  dsimp only
  rw [hrest, except_bind_error, except_bind_error]

/-- `SKIP` and an unmasked `NEXT` that need a value take the error of the run fetch. -/
theorem commands_raise_of_fetchRun_error {s : State} {n : BitVec 32} {k : ErrorKind}
    (hf : s.dec.fault = false) (hwait : s.dec.dstate = .awaitingHeader) (hpos : 0 < n.toNat)
    (h : fetchRun s.cfg s.input s.dec = .error k) :
    RaisesOnly k.code (.skip n) s ∧
      (n.toNat ≤ s.out.length → ∃ t,
        exec (.next n false) s = .next t ∧ DecoderRaised k.code t ∧ OnlyDecoderMoves s t) := by
  have hvalues := nextValues_of_fetchRun_error hwait hpos h
  constructor
  · have hexec := exec_skip_of_ready n hf
    rw [hvalues] at hexec
    obtain ⟨hmoves, hout⟩ := exec_skip_frame hexec
    exact ⟨_, hexec, ⟨rfl, rfl, rfl⟩, hmoves, hout⟩
  · intro hn
    have hexec := exec_next_unmasked hf hn
    rw [hvalues] at hexec
    exact ⟨_, hexec, ⟨rfl, rfl, rfl⟩, onlyDecoderMoves_next hexec⟩

/-- Settles O22: the read that reaches beyond the end of the stream has no answer, and its error is
what the run or the command ends in. -/
theorem cutShortRunsAreTruncated : Obligations.CutShortRunsAreTruncated := by
  unfold Obligations.CutShortRunsAreTruncated
  intro s hwf hf hbits hspos
  have hraise : ∀ r : Run, materialise s.cfg s.input r s.dec = .error .truncatedStream →
      RaisesOnly 2 r.toInstr s := fun _ => raisesOnly_of_materialise hf
  refine ⟨?sr, ?direct, ?pb, ?deltaBase, ?deltaFirst, ?deltaMagnitudes, ?header⟩
  case sr =>
    exact fun byteWidth repeatCount h => hraise (.sr byteWidth repeatCount)
      (decodeShortRepeat_cut_short s.cfg repeatCount hwf hspos h)
  case direct =>
    exact fun bitWidth length h => hraise (.direct bitWidth length)
      (decodeDirect_cut_short s.cfg hwf hspos hbits h)
  case pb =>
    exact fun deltaWidth length baseWidth patchWidth gapWidth listLength hwidths h =>
      hraise (.pb deltaWidth length baseWidth patchWidth gapWidth listLength)
        (decodePatchedBase_cut_short s.cfg hwf hspos hbits hwidths h)
  case deltaBase =>
    exact fun deltaWidth length h => hraise (.delta deltaWidth length)
      (decodeDelta_base_cut_short s.cfg deltaWidth length h)
  case deltaFirst =>
    exact fun deltaWidth length baseBytes hvarint hh h => hraise (.delta deltaWidth length)
      (decodeDelta_first_cut_short s.cfg deltaWidth length hwf hvarint hh h)
  case deltaMagnitudes =>
    exact fun deltaWidth length baseBytes firstBytes hbaseVarint hfirstVarint hh h =>
      hraise (.delta deltaWidth length)
        (decodeDelta_magnitudes_cut_short s.cfg deltaWidth length hwf hspos hbits hbaseVarint
          hfirstVarint hh h)
  case header =>
    exact fun h0 n hwait hread h hpos =>
      commands_raise_of_fetchRun_error hf hwait hpos (fetchRun_cut_short s.cfg hwf hread h)

end Sys2Proof.Proofs.TruncatedRuns
end
